-- ==== Sys2Proof/Word.lean ====
section
/-! DEFINITION. The widths of the engine's quantities (10_state.md rules R21, R33; every integer is unsigned, rule R14). -/

namespace Sys2Proof

/-- A byte of a stream, a buffer or a payload; also a symbol (one of the 256 byte values, R7, R18). -/
abbrev Byte := BitVec 8

/-- A register, window or command word: every register is 32 bits wide (R21). -/
abbrev Word := BitVec 32

/-- An arena index: 0 to 510, or `NULL` (R33). -/
abbrev NodeIdx := BitVec 9

end Sys2Proof
end

