-- ==== Sys2Proof/Config.lean ====
section
/-! DEFINITION. The constants the spec fixes (00_scope.md rules R7 to R11), the open parameters a model takes as
arguments (R11), and the free values: what the spec calls unspecified (R17). -/

namespace Sys2Proof

/-- NSYM: the alphabet has exactly 256 symbols (R7). -/
abbrev NSYM : Nat := 256

/-- NNODE: the arena's entries, 256 leaves and 255 internal nodes (R7, R33). -/
abbrev NNODE : Nat := 511

/-- The null node index (R33). -/
abbrev NULL : NodeIdx := 0x1FF#9

/-- The `sym` value that marks an internal node (R33). -/
abbrev NOT_A_LEAF : BitVec 9 := 0x100#9

/-- The open parameters of the step relation (R11, R20): the capacities of the two byte buffers.
Every `State` carries its own; no step changes them, so a statement about every state covers every capacity. -/
structure Params where
  ibufCap : Nat
  obufCap : Nat
  deriving DecidableEq, Repr

/-- The capacities of `State.reset`. DESIGN CHOICE (log entry 1): the spec leaves them open in 1..2^28. -/
def Config.resetParams : Params := { ibufCap := 2 ^ 28, obufCap := 2 ^ 28 }

/-- An unspecified 32-bit read (R17, R63, R77), applied to the state's count of draws. -/
opaque Config.freeWord : Nat → Word

/-- An unspecified 8-bit read (R17, R65, R77), applied to the state's count of draws. -/
opaque Config.freeByte : Nat → Byte

/-- The content of an `IBUF` byte that nothing has written since a reset: unspecified and stable until written
(R39). The first argument counts resets, the second is the byte's index. -/
opaque Config.ibufInitial : Nat → Nat → Byte

end Sys2Proof
end

