-- ==== Sys2Proof/Syntax.lean ====
section
/-! DEFINITION. The engine's commands: one constructor per row of spec/opcode_table.json (30_encoding.md rule R91).
No command has an operand field; each works on a fixed set of registers and memories (R93). -/

namespace Sys2Proof

inductive Instr where
  | nop
  | ack
  | orst
  | hist
  | build
  | gen
  | ser
  | des
  | pack
  | unpack
  | wrsize
  | rdsize
  | compress
  | decompress
  deriving DecidableEq, Repr

/-- Every command, in the order of the opcode map (R91). -/
def Instr.all : List Instr :=
  [.nop, .ack, .orst, .hist, .build, .gen, .ser, .des, .pack, .unpack, .wrsize, .rdsize, .compress, .decompress]

end Sys2Proof
end

