-- ==== Sys2Proof/WellFormed.lean ====
section
/-! DEFINITION. Well-formedness. A command has no operand, so every `Instr` is well-formed as it stands; what can be
ill-formed is the 32-bit word written to `CMD` (30_encoding.md rules R90 to R92) and a choice of the open
parameters (00_scope.md rule R11). -/

namespace Sys2Proof

/-- The opcode values of the opcode map (R91): 0x0_ control, 0x1_ primitives, 0x2_ composites. -/
def listedOpcodes : List Byte :=
  [0x00, 0x01, 0x02] ++ [0x10, 0x11, 0x12, 0x13, 0x14, 0x15, 0x16, 0x17, 0x18] ++ [0x20, 0x21]

/-- Bits 31:8 of a command word must be 0 (R90). -/
def CommandWord.upperBitsZero (w : Word) : Bool := w.toNat / 2 ^ 8 == 0

/-- Bits 7:0 of a command word must be a listed opcode (R91, R92). -/
def CommandWord.opcodeListed (w : Word) : Bool := listedOpcodes.contains (w.setWidth 8)

/-- A word the engine has a command for: everything else is illegal (R92). -/
def CommandWord.wf (w : Word) : Bool := CommandWord.upperBitsZero w && CommandWord.opcodeListed w

/-- The bounds on the buffer capacities (R11). -/
def Params.wf (p : Params) : Bool :=
  decide (1 ≤ p.ibufCap) && decide (p.ibufCap ≤ 2 ^ 28) && decide (1 ≤ p.obufCap) && decide (p.obufCap ≤ 2 ^ 28)

end Sys2Proof
end

