-- ==== Sys2Proof/Decode.lean ====
section
/-! DEFINITION. The command decoder and encoder (30_encoding.md rules R90 to R93). -/

namespace Sys2Proof

/-- Why a word is no command (R92). -/
inductive DecodeError where
  /-- `word[31:8] ≠ 0`, whatever the opcode. -/
  | nonzeroUpperBits
  /-- `word[7:0]` is not in the opcode map. -/
  | unlistedOpcode
  deriving DecidableEq, Repr

/-- One row of the opcode map. -/
structure OpcodeRow where
  opcode : Byte
  instr  : Instr
  deriving DecidableEq, Repr

/-- The opcode map (R91). -/
def opcodeMap : List OpcodeRow :=
  [⟨0x00, .nop⟩, ⟨0x01, .ack⟩, ⟨0x02, .orst⟩] ++
  [⟨0x10, .hist⟩, ⟨0x11, .build⟩, ⟨0x12, .gen⟩, ⟨0x13, .ser⟩, ⟨0x14, .des⟩, ⟨0x15, .pack⟩, ⟨0x16, .unpack⟩,
    ⟨0x17, .wrsize⟩, ⟨0x18, .rdsize⟩] ++
  [⟨0x20, .compress⟩, ⟨0x21, .decompress⟩]

/-- Field `opcode`, bits 7:0 (R90). -/
def opcodeField (w : Word) : Byte := w.extractLsb' 0 8

/-- Field `zero`, bits 31:8 (R90). -/
def zeroField (w : Word) : BitVec 24 := w.extractLsb' 8 24

/-- The command a word selects, after checking `word[31:8] = 0` (R90); every other word is rejected (R92). -/
def decode (w : Word) : Except DecodeError Instr :=
  if zeroField w = 0 then
    match opcodeMap.find? (fun r => decide (r.opcode = opcodeField w)) with
    | some r => .ok r.instr
    | none => .error .unlistedOpcode
  else .error .nonzeroUpperBits

/-- The opcode value of a command (R91). -/
def opcodeOf : Instr → Byte
  | .nop        => 0x00
  | .ack        => 0x01
  | .orst       => 0x02
  | .hist       => 0x10
  | .build      => 0x11
  | .gen        => 0x12
  | .ser        => 0x13
  | .des        => 0x14
  | .pack       => 0x15
  | .unpack     => 0x16
  | .wrsize     => 0x17
  | .rdsize     => 0x18
  | .compress   => 0x20
  | .decompress => 0x21

/-- The command word: the opcode in bits 7:0 and zeros above (R90). -/
def encode (i : Instr) : Word := 0#24 ++ opcodeOf i

/-- The command word that `nbits` bits numbered from bit 0 of the opcode table stand for. A command word is one
32-bit register write and has no byte order (20_memory.md rule R69), so the table's bit `k` is the word's bit `k`. -/
def tableWord (nbits w : Nat) : Word := BitVec.ofNat 32 (w % 2 ^ nbits)

/-- What the decoder reads from a row's bits; none for bits that do not fit the one 32-bit word. -/
def decodeTableWord (nbits w : Nat) : Option Instr :=
  if w % 2 ^ nbits < 2 ^ 32 then
    match decode (tableWord nbits w) with
    | .ok i => some i
    | .error _ => none
  else none

end Sys2Proof
end

