-- ==== Sys2Proof/Machine/Table.lean ====
section
/-! DEFINITION. A fixed-size memory of 2^d entries as plain data: a perfect binary tree whose leaves are the entries,
indexed by the bits of the address, most significant first. It stands for the engine's internal memories (20_memory.md
rule R60); an access costs d steps, so that Lean's kernel can run a command over 511 arena entries. -/

namespace Sys2Proof.Machine

inductive Table (α : Type) : Nat → Type where
  | entry (a : α) : Table α 0
  | halves {d : Nat} (lo hi : Table α d) : Table α (d + 1)
  deriving DecidableEq, Repr

/-- The entry at an address, of which the low `d` bits count. -/
def Table.getNat {α : Type} : {d : Nat} → Table α d → Nat → α
  | _, .entry a, _ => a
  | d + 1, .halves lo hi, i => bif i.testBit d then hi.getNat i else lo.getNat i

/-- The table with one entry changed by `f`. -/
def Table.updateNat {α : Type} (f : α → α) : {d : Nat} → Table α d → Nat → Table α d
  | _, .entry a, _ => .entry (f a)
  | d + 1, .halves lo hi, i =>
    bif i.testBit d then .halves lo (hi.updateNat f i) else .halves (lo.updateNat f i) hi

/-- The table of 2^d entries whose entry `i` is `f (base + i)`. -/
def Table.tabulateFrom {α : Type} (f : Nat → α) : (d : Nat) → Nat → Table α d
  | 0, base => .entry (f base)
  | d + 1, base => .halves (tabulateFrom f d base) (tabulateFrom f d (base + 2 ^ d))

/-- The table whose entry `i` of `t` is changed to `f (base + i)` of it. -/
def Table.mapFrom {α : Type} (f : Nat → α → α) : {d : Nat} → Table α d → Nat → Table α d
  | _, .entry a, base => .entry (f base a)
  | d + 1, .halves lo hi, base => .halves (lo.mapFrom f base) (hi.mapFrom f (base + 2 ^ d))

/-- Read entry `i`. -/
def Table.get {α : Type} {d : Nat} (t : Table α d) (i : BitVec d) : α := t.getNat i.toNat

/-- Change entry `i` by `f`. -/
def Table.update {α : Type} {d : Nat} (t : Table α d) (i : BitVec d) (f : α → α) : Table α d := t.updateNat f i.toNat

/-- Write entry `i`. -/
def Table.set {α : Type} {d : Nat} (t : Table α d) (i : BitVec d) (x : α) : Table α d := t.update i (fun _ => x)

/-- The table whose entry `i` is `f i`. -/
def Table.tabulate {α : Type} (d : Nat) (f : BitVec d → α) : Table α d := tabulateFrom (fun i => f (BitVec.ofNat d i)) d 0

/-- Change every entry `i` by `f i`. -/
def Table.mapEntries {α : Type} {d : Nat} (t : Table α d) (f : BitVec d → α → α) : Table α d :=
  t.mapFrom (fun i => f (BitVec.ofNat d i)) 0

/-- The table with the same entry everywhere. -/
def Table.fill {α : Type} : (d : Nat) → α → Table α d
  | 0, a => .entry a
  | d + 1, a => .halves (fill d a) (fill d a)

end Sys2Proof.Machine
end

