-- ==== Sys2Proof/Machine/State.lean ====
section
/-! DEFINITION. The architectural state (10_state.md rule R20), the host port's operations (20_memory.md rule R61),
the fault codes (60_exceptions.md rule R251) and the state after reset (10_state.md rule R46). -/

namespace Sys2Proof.Machine

/-- The causes of a fault, which end a command and set `STATUS.ERR` (R251). These are outcomes of the machine, a next
state each; they are not the stops of `Fault` below. -/
inductive FaultCode where
  | alloc | shortRead | obufFull | iRange | treeTrunc | bitsExhausted | badFlag
  | illegalCmd | noTree | degenerate | noCode
  deriving DecidableEq, Repr

/-- Where the MODEL stops because the spec's own pseudocode has no step. Safe: no state a run reaches from reset
raises either (the invariant `Machine.Inv` of Safety.lean rules them out). -/
inductive Fault where
  /-- GEN, SER or UNPACK follows an index that is no arena entry (`NULL`), or GEN meets a leaf whose `sym` is no
  symbol: `STATUS.TVALID` = 1 over an arena that breaks rules R33 to R35. Safe. -/
  | badNodeIndex
  /-- GEN or SER has taken more steps than any tree of 511 nodes needs (R153, R171, R297): `STATUS.TVALID` = 1 over
  an arena whose links form a cycle. The bounds of DES and UNPACK would raise it too, and no state meets them. Safe. -/
  | traversalUnbounded
  deriving DecidableEq, Repr

inductive Refusal where
  /-- Raised by an arm of `exec` whose instruction has no meaning yet; no arm of this model raises it. Safe. -/
  | notModelled (mnemonic : String)
  deriving DecidableEq, Repr

/-- One arena entry (R33). -/
structure Node where
  sym     : BitVec 9
  freq    : Word
  left    : NodeIdx
  right   : NodeIdx
  parent  : NodeIdx
  visited : Bool
  deriving DecidableEq, Repr

/-- One code table entry (R37): `len` bits, code bit `b_j` at bit `255 − j` of `bits`, unused positions 0 (R104). -/
structure Code where
  len  : BitVec 8
  bits : BitVec 256
  deriving DecidableEq, Repr

/-- A byte buffer: the bytes written so far, in canonical form (`Memory.wf`, Ops.lean). -/
abbrev Memory := List Host.Cell

/-- One operation at the engine's boundary: the four of the host port (R61), and the reset input asserted and
released (R290). -/
inductive PortOp where
  | read32 (addr : Word)
  | write32 (addr v : Word)
  | read8 (addr : Word)
  | write8 (addr : Word) (b : Byte)
  | rst
  deriving DecidableEq, Repr

/-- What the last port operation returned to the host. -/
inductive Reply where
  | none
  | word (v : Word)
  | byte (b : Byte)
  deriving DecidableEq, Repr

structure State where
  /-- `IBUF_CAP`, `OBUF_CAP`: parameters of the step relation, not state (R11, R20). -/
  params  : Params
  /-- `STATUS.BUSY` (R23). -/
  busy    : Bool
  /-- `STATUS.DONE` (R23). -/
  done    : Bool
  /-- `STATUS.ERR` (R23). -/
  err     : Bool
  /-- `STATUS.TVALID` (R23, R41). -/
  tvalid  : Bool
  /-- `STATUS.FCODE` (R23, R251). -/
  fcode   : BitVec 8
  /-- `CTRL.IE` (R24). -/
  ie      : Bool
  /-- `ILEN` (R25). -/
  ilen    : Word
  /-- `IPOS` (R26). -/
  ipos    : Word
  /-- `OLEN` (R27). -/
  olen    : Word
  /-- `NSIZE` (R28). -/
  nsize   : Word
  /-- `ROOT`, bits 8:0 (R29). -/
  root    : NodeIdx
  /-- `NCOUNT`, bits 9:0 (R30). -/
  ncount  : BitVec 10
  /-- `HIST[0..255]` (R32). -/
  hist    : Table Word 8
  /-- `NODE[0..510]` (R33). The table's last place, 0x1FF, is the null index and no arena entry. -/
  node    : Table Node 9
  /-- `CODE[0..255]` (R37). -/
  code    : Table Code 8
  /-- `IBUF` (R39): the bytes the host has written since reset, by index. -/
  ibuf    : Memory
  /-- `OBUF` (R40): the bytes the engine has written since reset, by index. -/
  obuf    : Memory
  /-- MODEL's own: the port operations the host has issued and the engine has not yet taken, oldest first (R61). -/
  port    : List PortOp
  /-- MODEL's own: what the last port operation returned. -/
  reply   : Reply
  /-- MODEL's own: how many unspecified values have been drawn (R17). -/
  draws   : Nat
  /-- MODEL's own: how many resets have happened; selects the unspecified content of `IBUF` (R39, R46). -/
  epoch   : Nat
  deriving DecidableEq, Repr

/-- The content `State.reset` gives every arena entry. DESIGN CHOICE (log entry 3): the spec leaves every field
unspecified; no command and no port read shows it while `TVALID` = 0. -/
def Node.blank : Node := { sym := 0, freq := 0, left := NULL, right := NULL, parent := NULL, visited := false }

/-- The entry of a symbol without a code (R37). -/
def Code.none : Code := { len := 0, bits := 0 }

/-- The state after reset (R46, R290). -/
def State.reset : State :=
  { params := Config.resetParams
    busy := false, done := false, err := false, tvalid := false, fcode := 0
    ie := false
    ilen := 0, ipos := 0, olen := 0, nsize := 0
    root := NULL, ncount := 0
    hist := Table.fill 8 0
    node := Table.fill 9 Node.blank
    code := Table.fill 8 Code.none
    ibuf := [], obuf := []
    port := [], reply := .none, draws := 0, epoch := 0 }

/-- How the body of a command goes on or ends: a value and the state so far, a `raise` (R15, R252), or the model's
stop. -/
inductive Res (α : Type) where
  | ok (a : α) (s : State)
  | raise (f : FaultCode) (s : State)
  | stuck (r : Fault)

end Sys2Proof.Machine
end

