-- ==== Sys2Proof/Machine/Flags.lean ====
section
/-! DEFINITION. The flags: the fields of `STATUS` and `CTRL`, their images, the interrupt output, and the `visited`
marks of the arena (10_state.md rules R23, R24, R41, R42, R48). -/

namespace Sys2Proof.Machine

/-- The fault codes: class in bits 7:4, cause in bits 3:0 (R251). -/
def FaultCode.code : FaultCode → BitVec 8
  | .alloc         => 0x11
  | .shortRead     => 0x21
  | .obufFull      => 0x22
  | .iRange        => 0x23
  | .treeTrunc     => 0x31
  | .bitsExhausted => 0x32
  | .badFlag       => 0x33
  | .illegalCmd    => 0x41
  | .noTree        => 0x42
  | .degenerate    => 0x43
  | .noCode        => 0x44

/-- The codes `STATUS.FCODE` can hold while `ERR` = 1 (R251: values not in the table never occur). -/
def faultCodes : List (BitVec 8) :=
  [0x11, 0x21, 0x22, 0x23, 0x31, 0x32, 0x33, 0x41, 0x42, 0x43, 0x44]

/-- The word a read of `STATUS` returns: bits 31:16 and 7:4 are reserved and read 0 (R23). -/
def State.statusWord (s : State) : Word :=
  0#16 ++ s.fcode ++ 0#4 ++ BitVec.ofBool s.tvalid ++ BitVec.ofBool s.err ++ BitVec.ofBool s.done ++
    BitVec.ofBool s.busy

/-- The word a read of `CTRL` returns: bits 31:1 read 0 (R24). -/
def State.ctrlWord (s : State) : Word := 0#31 ++ BitVec.ofBool s.ie

/-- The interrupt output, a function of the registers (R48, R260). -/
def State.irq (s : State) : Bool := s.ie && (s.done || s.err)

/-- The flags at the acceptance of a command (R230). -/
def State.flagsAccepted (s : State) : State := { s with done := false, busy := true }

/-- The flags at the normal completion of a command other than ACK (R231). -/
def State.flagsCompleted (s : State) : State := { s with busy := false, done := true }

/-- The flags after a fault (R252). -/
def State.flagsFaulted (f : FaultCode) (s : State) : State :=
  { s with busy := false, done := false, err := true, fcode := f.code }

/-- The flags after ACK, which clears the outcome and does not set `DONE` (R231, R233). -/
def State.flagsAcknowledged (s : State) : State :=
  { s with err := false, fcode := 0, done := false, busy := false }

/-- Clear the `visited` mark of every entry below `ncount` (R151). -/
def clearVisited (ncount : Nat) (nd : Table Node 9) : Table Node 9 :=
  nd.mapEntries (fun i n => if i.toNat < ncount then { n with visited := false } else n)

end Sys2Proof.Machine
end

