-- ==== Sys2Proof/Machine/Ops.lean ====
section
/-! DEFINITION. The shared operations: byte buffers, arena and table access, the life of a command (acceptance,
completion, taking a fault, the return from one), and sequencing of a command's body. -/

namespace Sys2Proof.Machine

/-! ### Byte buffers -/

/-- The byte written last at index `i`; `none` where nothing has been written. -/
def Memory.read? : Memory → Nat → Option Byte
  | [], _ => none
  | (a, b) :: m, i => if a = i then some b else Memory.read? m i

/-- Write one byte, keeping the indices strictly rising. -/
def Memory.write : Memory → Nat → Byte → Memory
  | [], i, v => [(i, v)]
  | (a, b) :: m, i, v =>
    if a < i then (a, b) :: Memory.write m i v
    else if a = i then (i, v) :: m
    else (i, v) :: (a, b) :: m

/-- Bytes at consecutive indices from `a` on. -/
def cellsFrom : Nat → List Byte → Memory
  | _, [] => []
  | a, b :: bs => (a, b) :: cellsFrom (a + 1) bs

/-- Write bytes at consecutive indices from `a` on: what `Memory.write` of each in turn gives
(`Memory.writeAll_eq_turns`, Laws/Memory.lean). -/
def Memory.writeAll (m : Memory) (a : Nat) (bs : List Byte) : Memory :=
  m.filter (fun c => decide (c.1 < a)) ++ cellsFrom a bs ++ m.filter (fun c => decide (a + bs.length ≤ c.1))

/-- Canonical form: indices strictly rising. An index that is not listed has no written value, so no entry can equal
what an unlisted index reads as. -/
abbrev Memory.wf (m : Memory) : Prop := m.Pairwise (fun x y => x.1 < y.1)

/-- `IBUF[i]` (R39): the host's byte, or the unspecified content since reset, stable until written. -/
def State.ibufByte (s : State) (i : Nat) : Byte := (s.ibuf.read? i).getD (Config.ibufInitial s.epoch i)

/-! ### Arena, histogram and code table -/

/-- `NODE[i]`; `none` when `i` is `NULL` and names no entry (R33). -/
def nodeAt (nd : Table Node 9) (i : NodeIdx) : Option Node := if i = NULL then none else some (nd.get i)

/-- `NODE[i] <- x`; nothing when `i` is `NULL`. -/
def nodeSet (nd : Table Node 9) (i : NodeIdx) (x : Node) : Table Node 9 := if i = NULL then nd else nd.set i x

/-- Change `NODE[i]` by `f`; nothing when `i` is `NULL`. -/
def nodeUpdate (nd : Table Node 9) (i : NodeIdx) (f : Node → Node) : Table Node 9 :=
  if i = NULL then nd else nd.update i f

/-- `isLeaf` (R15): the `sym` field is not the sentinel. -/
def Node.isLeaf (n : Node) : Bool := n.sym != NOT_A_LEAF

/-- `isLeaf(i)` of an index; false for `NULL`. -/
def isLeafAt (nd : Table Node 9) (i : NodeIdx) : Bool :=
  match nodeAt nd i with
  | some n => n.isLeaf
  | none => false

/-- A new leaf (R131, R175). -/
def Node.leaf (sym : Byte) (freq : Word) : Node :=
  { sym := sym.setWidth 9, freq := freq, left := NULL, right := NULL, parent := NULL, visited := false }

/-- A new internal node (R130). -/
def Node.internal (freq : Word) (left right : NodeIdx) : Node :=
  { sym := NOT_A_LEAF, freq := freq, left := left, right := right, parent := NULL, visited := false }

/-- The number a sequence of bits spells, first bit most significant. -/
def bitsToNat (bs : List Bool) : Nat := bs.foldl (fun n b => 2 * n + b.toNat) 0

/-- The code table entry that records a path: left-aligned, zero-filled (R37, R104). -/
def Code.ofPath (p : List Bool) : Code :=
  { len := BitVec.ofNat 8 p.length, bits := BitVec.ofNat 256 (bitsToNat p * 2 ^ (256 - p.length)) }

/-- The code as a sequence of bits, first bit first (R16, R37). -/
def Code.toBits (c : Code) : List Bool := (List.range c.len.toNat).map c.bits.getMsbD

/-! ### Sequencing of a command's body -/

/-- Go on with `k` unless the first part raised a fault or stopped: nothing after a `raise` is executed (R252). -/
def Res.bind {α β : Type} (r : Res α) (k : α → State → Res β) : Res β :=
  match r with
  | .ok a s => k a s
  | .raise f s => .raise f s
  | .stuck e => .stuck e

/-- One body after another. -/
def Res.andThen (r : Res Unit) (k : State → Res Unit) : Res Unit := r.bind (fun _ s => k s)

/-! ### The life of a command -/

/-- Taking a fault (R252): the registers go back to their values at acceptance (R253), and so does the content of
`OBUF`, of which no partial artifact or payload remains (R239, R254; DEDUCED, log entry 6); the structures stay as the
body left them (R254, R239). `s0` is the state at acceptance (`SNAP`, R230), `s` the state at the `raise`. -/
def takeFault (s0 : State) (f : FaultCode) (s : State) : State :=
  State.flagsFaulted f
    { s with ilen := s0.ilen, ipos := s0.ipos, olen := s0.olen, nsize := s0.nsize, obuf := s0.obuf }

/-- The return from a fault (R233, R256): it restores nothing. -/
def acknowledge (s : State) : State := s.flagsAcknowledged

/-- The refusal of a word that is no command (R230): taken at the `CMD` write, nothing to roll back (R252). -/
def rejectWord (s : State) : State :=
  if s.busy then s
  else if s.err then s
  else { s with done := false, err := true, fcode := FaultCode.illegalCmd.code }

/-- One command other than ACK, from the `CMD` write to its completion or fault, as a single transition (R230, R231):
ignored while `BUSY` or `ERR` is 1 (R77, R255). -/
def runCommand (body : State → Res Unit) (s : State) : Host.Outcome State Fault Refusal :=
  if s.busy then .next s
  else if s.err then .next s
  else
    match body s.flagsAccepted with
    | .ok _ s' => .next s'.flagsCompleted
    | .raise f s' => .next (takeFault s f s')
    | .stuck r => .fault r

/-- The command ACK: the only one accepted while `ERR` is 1 (R230, R255). -/
def runAck (s : State) : Host.Outcome State Fault Refusal :=
  if s.busy then .next s else .next (acknowledge s)

end Sys2Proof.Machine
end

