-- ==== Sys2Proof/Machine/Operands.lean ====
section
/-! DEFINITION. The operand registers and the two byte streams they describe (10_state.md rules R25 to R28,
20_memory.md rules R67, R74, 30_encoding.md rule R96). -/

namespace Sys2Proof.Machine

/-- The range check of `CheckIn` (R74). -/
def State.inputInRange (s : State) : Bool := decide (s.ilen.toNat ≤ s.params.ibufCap) && decide (s.ipos.toNat ≤ s.ilen.toNat)

/-- `CheckIn()` (R74). -/
def checkIn (s : State) : Res Unit := if s.inputInRange then .ok () s else .raise .iRange s

/-- `IbufNext(f)` (R74): the byte at `IPOS`, and `IPOS` moved past it. -/
def ibufNext (f : FaultCode) (s : State) : Res Byte :=
  if s.ipos.toNat ≥ s.ilen.toNat then .raise f s
  else .ok (s.ibufByte s.ipos.toNat) { s with ipos := s.ipos + 1 }

/-- `ObufAppend(b)` (R74). -/
def obufAppend (b : Byte) (s : State) : Res Unit :=
  if s.olen.toNat = s.params.obufCap then .raise .obufFull s
  else .ok () { s with obuf := s.obuf.write s.olen.toNat b, olen := s.olen + 1 }

/-- `ObufAppend` of each byte in turn: all of them, or `F_OBUF_FULL` where one of them finds `OLEN = OBUF_CAP`
(R170, R195); what was appended before that is taken back with the fault (R253). Laws/Streams.lean proves it is the
appends one by one (`obufAppendAll_ok`, `obufAppendAll_full`). -/
def obufAppendAll (bs : List Byte) (s : State) : Res Unit :=
  if s.olen.toNat ≤ s.params.obufCap ∧ s.params.obufCap < s.olen.toNat + bs.length then .raise .obufFull s
  else
    .ok () { s with
      obuf := s.obuf.writeAll s.olen.toNat bs
      olen := s.olen + BitVec.ofNat 32 bs.length }

/-- The payload `IBUF[IPOS .. ILEN−1]`, in increasing index order (R120, R190). -/
def State.payload (s : State) : List Byte := (List.range' s.ipos.toNat (s.ilen.toNat - s.ipos.toNat)).map s.ibufByte

/-- The four bytes of a size field, least-significant byte first (R67, R96). -/
def sizeBytes (n : Word) : List Byte :=
  [n.extractLsb' 0 8, n.extractLsb' 8 8, n.extractLsb' 16 8, n.extractLsb' 24 8]

/-- The size four bytes in stream order spell (R96). -/
def sizeOfBytes (b0 b1 b2 b3 : Byte) : Word := b3 ++ b2 ++ b1 ++ b0

/-- Empty the output stream: `OBUF` keeps its bytes (R234). -/
def State.resetOlen (s : State) : State := { s with olen := 0 }

end Sys2Proof.Machine
end

