-- ==== Sys2Proof/Machine/BitPacker.lean ====
section
/-! DEFINITION. BitPacker: the commands PACK and WRSIZE (44_bit_packer.md rules R190 to R195, 30_encoding.md rules
R100, R101). -/

namespace Sys2Proof.Machine

/-- The accumulator and its bit count, 0 to 7 between bits (R43, R190). -/
structure PackAcc where
  acc : Byte
  cnt : Nat
  deriving DecidableEq, Repr

/-- The accumulator at the start of a byte. -/
def PackAcc.empty : PackAcc := { acc := 0, cnt := 0 }

/-- Shift one bit in: `((acc << 1) | bit) & 0xFF` (R190). -/
def shiftIn (acc : Byte) (b : Bool) : Byte := (acc <<< 1) ||| (BitVec.ofBool b).setWidth 8

/-- Shift and pack the bits of one code, first bit first; append each full byte (R190, R191). -/
def packBits : List Bool → PackAcc → State → Res PackAcc
  | [], p, s => .ok p s
  | b :: bs, p, s =>
    if p.cnt + 1 = 8 then
      (obufAppend (shiftIn p.acc b) s).bind (fun _ s => packBits bs .empty s)
    else packBits bs { acc := shiftIn p.acc b, cnt := p.cnt + 1 } s

/-- The codes of the payload bytes, in payload order; a byte without a code faults before any of its bits is shifted
in (R190, R193). -/
def packSymbols : List Byte → PackAcc → State → Res PackAcc
  | [], p, s => .ok p s
  | x :: xs, p, s =>
    if (s.code.get x).len = 0 then .raise .noCode s
    else (packBits (s.code.get x).toBits p s).bind (fun p s => packSymbols xs p s)

/-- The last byte, padded with zero bits (R192). -/
def flushBits (p : PackAcc) (s : State) : Res Unit :=
  if p.cnt > 0 then obufAppend (p.acc <<< (8 - p.cnt)) s else .ok () s

/-- The body of PACK (R190). -/
def bodyPack (s : State) : Res Unit :=
  (checkIn s).bind (fun _ s => (packSymbols s.payload .empty s).bind flushBits)

/-- PACK (R190). -/
def execPack (s : State) : Host.Outcome State Fault Refusal := runCommand bodyPack s

/-- The body of WRSIZE (R195). -/
def bodyWrsize (s : State) : Res Unit := obufAppendAll (sizeBytes s.nsize) s

/-- WRSIZE (R195). -/
def execWrsize (s : State) : Host.Outcome State Fault Refusal := runCommand bodyWrsize s

end Sys2Proof.Machine
end

