-- ==== Sys2Proof/Machine/CodeGenerator.lean ====
section
/-! DEFINITION. CodeGenerator: the command GEN (42_code_generator.md rules R150 to R157). -/

namespace Sys2Proof.Machine

/-- The traversal's state: the current node, the path to it with its LAST bit first, the arena and the code table
(R43, R150). -/
structure Traversal where
  cur  : NodeIdx
  path : List Bool
  node : Table Node 9
  code : Table Code 8
  deriving DecidableEq, Repr

/-- What one traversal step gives. -/
inductive TraversalStep where
  | goOn (t : Traversal)
  | finish (t : Traversal)
  | stuck
  deriving DecidableEq, Repr

/-- Mark `NODE[i]` visited. -/
def markVisited (nd : Table Node 9) (i : NodeIdx) : Table Node 9 :=
  nodeUpdate nd i (fun n => { n with visited := true })

/-- Case 1 (R152): record the path as the leaf's code, mark the leaf, climb. -/
def recordLeaf (t : Traversal) (n : Node) : TraversalStep :=
  if n.sym.toNat < NSYM then
    .goOn { cur := n.parent, path := t.path.tail, node := markVisited t.node t.cur,
                code := t.code.set (n.sym.setWidth 8) (Code.ofPath t.path.reverse) }
  else .stuck

/-- Case 2 (R152, R153): mark the node; stop at the root, climb elsewhere. -/
def closeNode (t : Traversal) (n : Node) : TraversalStep :=
  if n.parent = NULL then .finish { t with node := markVisited t.node t.cur }
  else .goOn { t with cur := n.parent, path := t.path.tail, node := markVisited t.node t.cur }

/-- One pass of the loop: the four cases in order (R150, R152). -/
def genStep (t : Traversal) : TraversalStep :=
  match nodeAt t.node t.cur with
  | none => .stuck
  | some n =>
    if n.isLeaf && !n.visited then recordLeaf t n
    else
      match nodeAt t.node n.left, nodeAt t.node n.right with
      | some l, some r =>
        if l.visited && r.visited then closeNode t n
        else if !l.visited then .goOn { t with cur := n.left, path := false :: t.path }
        else .goOn { t with cur := n.right, path := true :: t.path }
      | _, _ => .stuck

/-- At most `k` passes of the loop. -/
def genLoop : Nat → Traversal → Except Fault Traversal
  | 0, _ => .error .traversalUnbounded
  | k + 1, t =>
    match genStep t with
    | .goOn t' => genLoop k t'
    | .finish t' => .ok t'
    | .stuck => .error .badNodeIndex

/-- More passes than any tree the arena can hold needs: `2 · (NCOUNT − 1) + 1 ≤ 1021` (R153). -/
def genBound : Nat := 2 * NNODE

/-- The traversal's start: marks cleared, code table emptied, at the root with the empty path (R150, R151). -/
def genStart (s : State) : Traversal :=
  { cur := s.root, path := [], node := clearVisited s.ncount.toNat s.node, code := Table.fill 8 Code.none }

/-- The body of GEN (R150). -/
def bodyGen (s : State) : Res Unit :=
  if s.tvalid = false then .raise .noTree s
  else if isLeafAt s.node s.root then .raise .degenerate s
  else
    match genLoop genBound (genStart s) with
    | .ok t => .ok () { s with node := t.node, code := t.code }
    | .error r => .stuck r

/-- GEN (R150). -/
def execGen (s : State) : Host.Outcome State Fault Refusal := runCommand bodyGen s

end Sys2Proof.Machine
end

