-- ==== Sys2Proof/Machine/Decoder.lean ====
section
/-! DEFINITION. Decoder: the commands UNPACK and RDSIZE (45_decoder.md rules R210 to R216). -/

namespace Sys2Proof.Machine

/-- The walk's transient state (R43, R210): cursor, bytes emitted, the current byte and how many of its bits are not
yet consumed. -/
structure Walk where
  cur  : NodeIdx
  em   : Nat
  byte : Byte
  k    : Nat
  deriving DecidableEq, Repr

/-- Fetch the next byte when its first bit is needed (R214). -/
def fetchBits (w : Walk) (s : State) : Res Walk :=
  if w.k = 0 then (ibufNext .bitsExhausted s).bind (fun b s => .ok { w with byte := b, k := 8 } s)
  else .ok w s

/-- The child a bit selects: left on 0, right on 1 (R211). -/
def Node.child (n : Node) (bit : Bool) : NodeIdx := if bit then n.right else n.left

/-- Consume one bit, most significant first, move the cursor, and emit at a leaf (R210, R211). -/
def consumeBit (w : Walk) (s : State) : Res Walk :=
  match nodeAt s.node w.cur with
  | none => .stuck .badNodeIndex
  | some n =>
    let cur := n.child (w.byte.getLsbD (w.k - 1))
    match nodeAt s.node cur with
    | none => .stuck .badNodeIndex
    | some m =>
      if m.isLeaf then
        (obufAppend (m.sym.setWidth 8) s).bind (fun _ s =>
          .ok { w with cur := s.root, em := w.em + 1, k := w.k - 1 } s)
      else .ok { w with cur := cur, k := w.k - 1 } s

/-- At most `bound` passes of `while em < NSIZE`, the test before every bit (R210, R212). -/
def unpackLoop : Nat → Walk → State → Res Unit
  | 0, _, _ => .stuck .traversalUnbounded
  | bound + 1, w, s =>
    if w.em < s.nsize.toNat then
      (fetchBits w s).bind (fun w s => (consumeBit w s).bind (fun w s => unpackLoop bound w s))
    else .ok () s

/-- Each pass consumes one bit of `IBUF[IPOS..ILEN−1]` (R297); one more pass ends or exhausts the walk. -/
def unpackBound (s : State) : Nat := 8 * (s.ilen.toNat - s.ipos.toNat) + 1

/-- The body of UNPACK (R210): the three acceptance checks in order. -/
def bodyUnpack (s : State) : Res Unit :=
  if s.tvalid = false then .raise .noTree s
  else
    (checkIn s).bind (fun _ s =>
      if s.nsize.toNat > 0 ∧ isLeafAt s.node s.root = true then .raise .degenerate s
      else unpackLoop (unpackBound s) { cur := s.root, em := 0, byte := 0, k := 0 } s)

/-- UNPACK (R210). -/
def execUnpack (s : State) : Host.Outcome State Fault Refusal := runCommand bodyUnpack s

/-- The body of RDSIZE (R215). -/
def bodyRdsize (s : State) : Res Unit :=
  (checkIn s).bind (fun _ s =>
    if s.ilen.toNat - s.ipos.toNat < 4 then .raise .shortRead s
    else
      let p := s.ipos.toNat
      .ok () { s with
        nsize := sizeOfBytes (s.ibufByte p) (s.ibufByte (p + 1)) (s.ibufByte (p + 2)) (s.ibufByte (p + 3))
        ipos := s.ipos + 4 })

/-- RDSIZE (R215). -/
def execRdsize (s : State) : Host.Outcome State Fault Refusal := runCommand bodyRdsize s

end Sys2Proof.Machine
end

