-- ==== Sys2Proof/Machine/Histogram.lean ====
section
/-! DEFINITION. SymbolHistogram: the command HIST (40_histogram.md rules R120 to R122). -/

namespace Sys2Proof.Machine

/-- `HIST[b] <- HIST[b] + 1`, 32-bit (R120). -/
def histBump (h : Table Word 8) (b : Byte) : Table Word 8 := h.update b (fun n => n + 1)

/-- The histogram of a payload: every slot 0, then one increment per byte in payload order (R120). -/
def histogramOf (payload : List Byte) : Table Word 8 := payload.foldl histBump (Table.fill 8 0)

/-- The body of HIST (R120). -/
def bodyHist (s : State) : Res Unit :=
  (checkIn s).bind (fun _ s => .ok () { s with hist := histogramOf s.payload })

/-- HIST (R120). -/
def execHist (s : State) : Host.Outcome State Fault Refusal := runCommand bodyHist s

end Sys2Proof.Machine
end

