-- ==== Sys2Proof/Machine/TreeBuilder.lean ====
section
/-! DEFINITION. TreeBuilder: the command BUILD (41_tree_builder.md rules R130 to R139). -/

namespace Sys2Proof.Machine

/-- One slot of the working set: a node's index and its frequency, which is fixed while the node is in the set (R130,
R43). -/
structure WsEntry where
  idx  : NodeIdx
  freq : Word
  deriving DecidableEq, Repr

/-- Put `x` before the first entry whose frequency is not greater: `x` stood before all of `l` (R133). -/
def insertByFreq (x : WsEntry) : List WsEntry → List WsEntry
  | [] => [x]
  | y :: l => bif Nat.ble y.freq.toNat x.freq.toNat then x :: y :: l else y :: insertByFreq x l

/-- `Order` of this hardware: the stable descending sort by frequency, compared unsigned (R133, R138). -/
def stableOrder (ws : List WsEntry) : List WsEntry := ws.foldr insertByFreq []

/-- Which of the two combined nodes becomes the left child (R135). -/
inductive ChildOrder where
  | leftIsSecondToLast
  | leftIsLast
  deriving DecidableEq, Repr

/-- The (left, right) children for `a = WS[n−2]` and `b = WS[n−1]` (R135). -/
def ChildOrder.children (c : ChildOrder) (a b : NodeIdx) : NodeIdx × NodeIdx :=
  match c with
  | .leftIsSecondToLast => (a, b)
  | .leftIsLast => (b, a)

/-- Combine `a` and `b` into the new arena entry `next`: its frequency is their sum modulo 2^32 (R134, R138). -/
def combine (c : ChildOrder) (a b : WsEntry) (next : NodeIdx) (nd : Table Node 9) : Table Node 9 :=
  let lr := c.children a.idx b.idx
  let nd := nodeSet nd next (Node.internal (a.freq + b.freq) lr.1 lr.2)
  let nd := nodeUpdate nd a.idx (fun n => { n with parent := next })
  nodeUpdate nd b.idx (fun n => { n with parent := next })

/-- `k` iterations of `while n > 1` (R130): order, combine the last two, put the new node in the second-to-last slot
and drop the last (R134). -/
def buildLoop (order : List WsEntry → List WsEntry) (c : ChildOrder) :
    Nat → NodeIdx → List WsEntry → Table Node 9 → List WsEntry × Table Node 9
  | 0, _, ws, nd => (ws, nd)
  | k + 1, next, ws, nd =>
    match (order ws).reverse with
    | b :: a :: front =>
      buildLoop order c k (next + 1) (({ idx := next, freq := a.freq + b.freq } : WsEntry) :: front).reverse
        (combine c a b next nd)
    | _ => (ws, nd)

/-- The 256 leaves, entry `s` for symbol `s`, before any internal node exists (R131). -/
def initialArena (hist : Table Word 8) : Table Node 9 :=
  .halves (Table.tabulate 8 (fun s => Node.leaf s (hist.get s))) (Table.fill 8 Node.blank)

/-- The working set in symbol order (R131). -/
def initialWs (hist : Table Word 8) : List WsEntry :=
  (List.range NSYM).map (fun s => { idx := BitVec.ofNat 9 s, freq := hist.get (BitVec.ofNat 8 s) })

/-- The working set and the arena after the 255 iterations (R136), for any ordering function and either child
order (R132, R135). -/
def buildWith (order : List WsEntry → List WsEntry) (c : ChildOrder) (hist : Table Word 8) :
    List WsEntry × Table Node 9 :=
  buildLoop order c 255 256 (initialWs hist) (initialArena hist)

/-- The root BUILD leaves: `WS[0]` (R130). -/
def rootOf (ws : List WsEntry) : NodeIdx :=
  match ws with
  | x :: _ => x.idx
  | [] => NULL

/-- The body of BUILD on this hardware: stable order, left child second-to-last (R130, R133, R135). -/
def bodyBuild (s : State) : Res Unit :=
  let r := buildWith stableOrder .leftIsSecondToLast s.hist
  .ok () { s with node := r.2, root := rootOf r.1, ncount := 511, tvalid := true }

/-- BUILD (R130). -/
def execBuild (s : State) : Host.Outcome State Fault Refusal := runCommand bodyBuild s

end Sys2Proof.Machine
end

