-- ==== Sys2Proof/Machine/TreeCodec.lean ====
section
/-! DEFINITION. TreeCodec: the commands SER and DES (43_tree_codec.md rules R170 to R179, 30_encoding.md rules R97 to
R99). -/

namespace Sys2Proof.Machine

/-- `Ser(i)` (R170): the bytes of the subtree at `i`, in the order they are appended. The first argument bounds the
nesting (R171). -/
def serBytes : Nat → Table Node 9 → NodeIdx → Except Fault (List Byte)
  | 0, _, _ => .error .traversalUnbounded
  | k + 1, nd, i =>
    match nodeAt nd i with
    | none => .error .badNodeIndex
    | some n =>
      if n.isLeaf then .ok [0x01, n.sym.setWidth 8]
      else
        match serBytes k nd n.left with
        | .error r => .error r
        | .ok bl =>
          match serBytes k nd n.right with
          | .error r => .error r
          | .ok br => .ok (0x00 :: bl ++ br)

/-- The body of SER (R170). -/
def bodySer (s : State) : Res Unit :=
  if s.tvalid = false then .raise .noTree s
  else
    match serBytes NNODE s.node s.root with
    | .ok bs => obufAppendAll bs s
    | .error r => .stuck r

/-- SER (R170). -/
def execSer (s : State) : Host.Outcome State Fault Refusal := runCommand bodySer s

/-- Take the next arena entry, in preorder, as a node without children under parent `p` (R175). -/
def allocNode (p : NodeIdx) (s : State) : State :=
  { s with
    ncount := s.ncount + 1
    node := nodeSet s.node (s.ncount.setWidth 9)
      { sym := NOT_A_LEAF, freq := 0, left := NULL, right := NULL, parent := p, visited := false } }

/-- Change the arena entry `i` by `f`. -/
def State.updateNode (i : NodeIdx) (f : Node → Node) (s : State) : State := { s with node := nodeUpdate s.node i f }

/-- `Parse(p)` (R175), with the checks in the order of R176. The first argument bounds the nesting: the 512th nested
node has no arena entry, so 512 is never exceeded. -/
def parse : Nat → NodeIdx → State → Res NodeIdx
  | 0, _, _ => .stuck .traversalUnbounded
  | k + 1, p, s =>
    (ibufNext .treeTrunc s).bind (fun flag s =>
      if flag ≠ 0x00 ∧ flag ≠ 0x01 then .raise .badFlag s
      else if s.ncount.toNat = NNODE then .raise .alloc s
      else
        let i : NodeIdx := s.ncount.setWidth 9
        let s := allocNode p s
        if flag = 0x01 then
          (ibufNext .treeTrunc s).bind (fun b s => .ok i (s.updateNode i (fun n => { n with sym := b.setWidth 9 })))
        else
          (parse k i s).bind (fun l s =>
            (parse k i (s.updateNode i (fun n => { n with left := l }))).bind (fun r s =>
              .ok i (s.updateNode i (fun n => { n with right := r })))))

/-- The old tree is gone (R174). -/
def State.dropTree (s : State) : State := { s with tvalid := false, ncount := 0, root := NULL }

/-- The body of DES (R174): a fault of `Parse` leaves no tree. -/
def bodyDes (s : State) : Res Unit :=
  (checkIn s).bind (fun _ s =>
    match parse 512 NULL s.dropTree with
    | .ok r s => .ok () { s with root := r, tvalid := true }
    | .raise f s => .raise f s.dropTree
    | .stuck r => .stuck r)

/-- DES (R174). -/
def execDes (s : State) : Host.Outcome State Fault Refusal := runCommand bodyDes s

end Sys2Proof.Machine
end

