-- ==== Sys2Proof/Machine/Composite.lean ====
section
/-! DEFINITION. The composite commands COMPRESS and DECOMPRESS: the bodies of the named commands, in order, as one
command (46_control_composite.md rules R235, R236, R239). -/

namespace Sys2Proof.Machine

/-- `IPOS <- 0; OLEN <- 0; NSIZE <- ILEN` (R235). -/
def State.startCompress (s : State) : State := { s with ipos := 0, olen := 0, nsize := s.ilen }

/-- The body of COMPRESS (R235). -/
def bodyCompress (s : State) : Res Unit :=
  (bodyHist s.startCompress).andThen (fun s =>
    (bodyBuild s).andThen (fun s =>
      (bodyGen s).andThen (fun s =>
        (bodyWrsize s).andThen (fun s =>
          (bodySer s).andThen bodyPack))))

/-- COMPRESS (R235). -/
def execCompress (s : State) : Host.Outcome State Fault Refusal := runCommand bodyCompress s

/-- `IPOS <- 0; OLEN <- 0` (R236). -/
def State.startDecompress (s : State) : State := { s with ipos := 0, olen := 0 }

/-- The body of DECOMPRESS (R236). -/
def bodyDecompress (s : State) : Res Unit :=
  (bodyRdsize s.startDecompress).andThen (fun s => (bodyDes s).andThen bodyUnpack)

/-- DECOMPRESS (R236). -/
def execDecompress (s : State) : Host.Outcome State Fault Refusal := runCommand bodyDecompress s

end Sys2Proof.Machine
end

