-- ==== Sys2Proof/Machine/Control.lean ====
section
/-! DEFINITION. The control commands NOP, ACK and ORST (46_control_composite.md rules R232 to R234). -/

namespace Sys2Proof.Machine

/-- The body of NOP is empty (R232). -/
def bodyNop (s : State) : Res Unit := .ok () s

/-- NOP (R232). -/
def execNop (s : State) : Host.Outcome State Fault Refusal := runCommand bodyNop s

/-- ACK (R233). -/
def execAck (s : State) : Host.Outcome State Fault Refusal := runAck s

/-- The body of ORST (R234). -/
def bodyOrst (s : State) : Res Unit := .ok () s.resetOlen

/-- ORST (R234). -/
def execOrst (s : State) : Host.Outcome State Fault Refusal := runCommand bodyOrst s

end Sys2Proof.Machine
end

