-- ==== Sys2Proof/Machine/Dispatch.lean ====
section
/-! DEFINITION. One meaning per command. -/

namespace Sys2Proof.Machine

def exec (i : Instr) (s : State) : Host.Outcome State Fault Refusal :=
  match i with
  | .nop => Sys2Proof.Machine.execNop s
  | .ack => Sys2Proof.Machine.execAck s
  | .orst => Sys2Proof.Machine.execOrst s
  | .hist => Sys2Proof.Machine.execHist s
  | .build => Sys2Proof.Machine.execBuild s
  | .gen => Sys2Proof.Machine.execGen s
  | .ser => Sys2Proof.Machine.execSer s
  | .des => Sys2Proof.Machine.execDes s
  | .pack => Sys2Proof.Machine.execPack s
  | .unpack => Sys2Proof.Machine.execUnpack s
  | .wrsize => Sys2Proof.Machine.execWrsize s
  | .rdsize => Sys2Proof.Machine.execRdsize s
  | .compress => Sys2Proof.Machine.execCompress s
  | .decompress => Sys2Proof.Machine.execDecompress s

end Sys2Proof.Machine
end

