-- ==== Sys2Proof/Machine/HostPort.lean ====
section
/-! DEFINITION. The host port (20_memory.md rules R61 to R66, R77), the windows' word formats (30_encoding.md rules
R103, R104), the reset input (70_reset_and_hazards.md rule R290), and how the next port operation is taken. -/

namespace Sys2Proof.Machine

/-- A register of the address map (R62). -/
inductive Reg where
  | cmd | status | ctrl | ilen | ipos | olen | nsize | root | ncount
  deriving DecidableEq, Repr

/-- What a port address names (R62): a register, a word of a window, a byte of a buffer, or nothing. -/
inductive Loc where
  | reg (r : Reg)
  | histWord (s : Byte)
  | codeLenWord (s : Byte)
  | nodeWord (i : NodeIdx) (k : Nat)
  | codeBitsWord (s : Byte) (w : Nat)
  | ibufByte (i : Nat)
  | obufByte (i : Nat)
  | unmapped
  deriving DecidableEq, Repr

/-- The register at a word offset of the register region, 4·k (R62). -/
def regAt : Nat → Option Reg
  | 0 => some .cmd
  | 1 => some .status
  | 2 => some .ctrl
  | 3 => some .ilen
  | 4 => some .ipos
  | 5 => some .olen
  | 6 => some .nsize
  | 7 => some .root
  | 8 => some .ncount
  | _ => none

/-- What a 32-bit access at `addr` names (R62); misaligned, unmapped and buffer addresses name nothing (R66). -/
def locate32 (addr : Word) : Loc :=
  let a := addr.toNat
  if a % 4 ≠ 0 then .unmapped
  else if a < 0x400 then
    match regAt (a / 4) with
    | some r => .reg r
    | none => .unmapped
  else if a < 0x800 then .histWord (BitVec.ofNat 8 ((a - 0x400) / 4))
  else if a < 0xC00 then .codeLenWord (BitVec.ofNat 8 ((a - 0x800) / 4))
  else if a < 0x2000 then .unmapped
  else if a < 0x2000 + 16 * NNODE then .nodeWord (BitVec.ofNat 9 ((a - 0x2000) / 16)) ((a - 0x2000) % 16 / 4)
  else if a < 0x4000 then .unmapped
  else if a < 0x4000 + 32 * NSYM then .codeBitsWord (BitVec.ofNat 8 ((a - 0x4000) / 32)) ((a - 0x4000) % 32 / 4)
  else .unmapped

/-- What an 8-bit access at `addr` names (R62); register and word-window addresses name nothing (R66). -/
def locate8 (p : Params) (addr : Word) : Loc :=
  let a := addr.toNat
  if 0x10000000 ≤ a ∧ a < 0x10000000 + p.ibufCap then .ibufByte (a - 0x10000000)
  else if 0x20000000 ≤ a ∧ a < 0x20000000 + p.obufCap then .obufByte (a - 0x20000000)
  else .unmapped

/-- Word `k` of the NODE window's image of an entry (R103). -/
def nodeImage (n : Node) : Nat → Word
  | 0 => 0#15 ++ BitVec.ofBool n.visited ++ 0#7 ++ n.sym
  | 1 => n.freq
  | 2 => 0#7 ++ n.right ++ 0#7 ++ n.left
  | 3 => 0#23 ++ n.parent
  | _ => 0

/-- The CODELEN window's word (R104). -/
def codeLenImage (c : Code) : Word := c.len.setWidth 32

/-- Word `w` of the CODEBITS window's image: bit `31 − j` holds code bit `b_{32w+j}` (R104). -/
def codeBitsImage (c : Code) (w : Nat) : Word := c.bits.extractLsb' (32 * (7 - w)) 32

/-- The value a read of a register returns; `CMD` stores nothing (R22 to R30). -/
def State.readReg (s : State) : Reg → Word
  | .cmd    => 0
  | .status => s.statusWord
  | .ctrl   => s.ctrlWord
  | .ilen   => s.ilen
  | .ipos   => s.ipos
  | .olen   => s.olen
  | .nsize  => s.nsize
  | .root   => s.root.setWidth 32
  | .ncount => s.ncount.setWidth 32

/-- A write of a register: `CTRL` keeps bit 0, read-only registers keep everything (R23 to R30, R47). A write of
`CMD` is a command and does not come here (`nextPortOp`). -/
def State.writeReg (v : Word) (s : State) : Reg → State
  | .ctrl   => { s with ie := v.getLsbD 0 }
  | .ilen   => { s with ilen := v }
  | .ipos   => { s with ipos := v }
  | .nsize  => { s with nsize := v }
  | .cmd | .status | .olen | .root | .ncount => s

/-- Return an unspecified word (R17): a fresh draw. -/
def State.replyFreeWord (s : State) : State := { s with reply := .word (Config.freeWord s.draws), draws := s.draws + 1 }

/-- Return an unspecified byte (R17): a fresh draw. -/
def State.replyFreeByte (s : State) : State := { s with reply := .byte (Config.freeByte s.draws), draws := s.draws + 1 }

/-- Return a word. -/
def State.replyWord (v : Word) (s : State) : State := { s with reply := .word v }

/-- Return a byte. -/
def State.replyByte (b : Byte) (s : State) : State := { s with reply := .byte b }

/-- A read of the NODE window: unspecified while no tree is held and at or above `NCOUNT` (R63). -/
def State.readNodeWord (s : State) (i : NodeIdx) (k : Nat) : State :=
  if s.tvalid = true ∧ i.toNat < s.ncount.toNat then
    match nodeAt s.node i with
    | some n => s.replyWord (nodeImage n k)
    | none => s.replyFreeWord
  else s.replyFreeWord

/-- The registers a host may still access while a command runs (R77). -/
def Reg.openWhileBusy (r : Reg) : Bool := r == .status || r == .ctrl

/-- `HostRead32` of a located address (R62, R63, R66, R77). -/
def State.read32At (s : State) (l : Loc) : State :=
  if s.busy then
    match l with
    | .reg r => if r.openWhileBusy then s.replyWord (s.readReg r) else s.replyFreeWord
    | _ => s.replyFreeWord
  else
    match l with
    | .reg r => s.replyWord (s.readReg r)
    | .histWord x => s.replyWord (s.hist.get x)
    | .codeLenWord x => s.replyWord (codeLenImage (s.code.get x))
    | .nodeWord i k => s.readNodeWord i k
    | .codeBitsWord x w => s.replyWord (codeBitsImage (s.code.get x) w)
    | .ibufByte _ | .obufByte _ | .unmapped => s.replyWord 0

/-- `HostWrite32` of a located address other than `CMD` (R62, R66, R77). -/
def State.write32At (v : Word) (s : State) (l : Loc) : State :=
  match l with
  | .reg r => if s.busy && !r.openWhileBusy then s else s.writeReg v r
  | .histWord _ | .codeLenWord _ | .nodeWord _ _ | .codeBitsWord _ _ | .ibufByte _ | .obufByte _ | .unmapped => s

/-- The byte at an index of `OBUF`: unspecified at or above `OLEN` (R65). -/
def State.readObufByte (s : State) (i : Nat) : State :=
  if i < s.olen.toNat then
    match s.obuf.read? i with
    | some b => s.replyByte b
    | none => s.replyFreeByte
  else s.replyFreeByte

/-- `HostRead8` of a located address (R64, R65, R66, R77). -/
def State.read8At (s : State) (l : Loc) : State :=
  if s.busy then s.replyFreeByte
  else
    match l with
    | .ibufByte i => s.replyByte (s.ibufByte i)
    | .obufByte i => s.readObufByte i
    | .reg _ | .histWord _ | .codeLenWord _ | .nodeWord _ _ | .codeBitsWord _ _ | .unmapped => s.replyByte 0

/-- `HostWrite8` of a located address: only `IBUF` takes a write (R40, R64, R66, R77). -/
def State.write8At (b : Byte) (s : State) (l : Loc) : State :=
  if s.busy then s
  else
    match l with
    | .ibufByte i => { s with ibuf := s.ibuf.write i b }
    | .reg _ | .histWord _ | .codeLenWord _ | .nodeWord _ _ | .codeBitsWord _ _ | .obufByte _ | .unmapped => s

/-- The reset input asserted and released (R290, R291): the reset state of the same engine, with fresh unspecified
content in `IBUF`; what the host goes on to do is outside the engine. -/
def hardReset (s : State) : State :=
  { State.reset with params := s.params, port := s.port, draws := s.draws, epoch := s.epoch + 1 }

/-- A port operation other than a `CMD` write. -/
def portAccess (op : PortOp) (s : State) : State :=
  match op with
  | .read32 a => s.read32At (locate32 a)
  | .write32 a v => s.write32At v (locate32 a)
  | .read8 a => s.read8At (locate8 s.params a)
  | .write8 a b => s.write8At b (locate8 s.params a)
  | .rst => hardReset s

/-- What the engine takes next: nothing, a command word (a 32-bit write of `CMD`, R22, R230), or another operation. -/
inductive Taken where
  | idle
  | command (w : Word)
  | access (op : PortOp)
  deriving DecidableEq, Repr

/-- Sort a port operation. -/
def classify (op : PortOp) : Taken :=
  match op with
  | .write32 a v => if locate32 a = .reg .cmd then .command v else .access op
  | .read32 _ | .read8 _ | .write8 _ _ | .rst => .access op

/-- Take the oldest port operation (R61: in the order issued); an engine with none pending waits (R266). -/
def nextPortOp (s : State) : Taken × State :=
  match s.port with
  | [] => (.idle, s)
  | op :: rest => (classify op, { s with port := rest, reply := .none })

/-- Put a port operation in front of those pending. -/
def State.issueFirst (op : PortOp) (s : State) : State := { s with port := op :: s.port }

/-- The port operation that submits a command word: `HostWrite32` at the offset of `CMD` (R62). -/
def commandOp (w : Word) : PortOp := .write32 0x00000000 w

end Sys2Proof.Machine
end

