-- ==== Sys2Proof/Machine/Step.lean ====
section
/-! DEFINITION. One step: the engine takes the oldest port operation; a `CMD` write runs its command to completion or
fault as one transition (00_scope.md rule R3, 46_control_composite.md rules R230, R231). -/

namespace Sys2Proof.Machine

/-- A `CMD` write (R230): a command of the opcode map runs, any other word is rejected. -/
def submit (w : Word) (s : State) : Host.Outcome State Fault Refusal :=
  match decode w with
  | .ok i => exec i s
  | .error _ => .next (rejectWord s)

def step (s : State) : Host.Outcome State Fault Refusal :=
  match nextPortOp s with
  | (.idle, s) => .next s
  | (.command w, s) => submit w s
  | (.access op, s) => .next (portAccess op s)

/-- `s` with the `CMD` write of a command word put in front of the pending port operations. -/
def State.withFetchWord (s : State) (nbits w : Nat) : State := s.issueFirst (commandOp (tableWord nbits w))

end Sys2Proof.Machine
end

