-- ==== Sys2Proof/Machine/Script.lean ====
section
/-! DEFINITION. The script syntax and its pseudo-operations as lists of port operations (30_encoding.md rules R106,
R107). -/

namespace Sys2Proof.Machine

/-- The offset of a register (R62). -/
def regOffset : Reg → Word
  | .cmd    => 0x00000000
  | .status => 0x00000004
  | .ctrl   => 0x00000008
  | .ilen   => 0x0000000C
  | .ipos   => 0x00000010
  | .olen   => 0x00000014
  | .nsize  => 0x00000018
  | .root   => 0x0000001C
  | .ncount => 0x00000020

/-- The port address of `IBUF[i]` (R62). -/
def ibufAddr (i : Nat) : Word := BitVec.ofNat 32 (0x10000000 + i)

/-- The port address of `OBUF[i]` (R62). -/
def obufAddr (i : Nat) : Word := BitVec.ofNat 32 (0x20000000 + i)

/-- `WR reg, value` (R106). -/
def scriptWR (r : Reg) (v : Word) : PortOp := .write32 (regOffset r) v

/-- `RD reg` (R106). -/
def scriptRD (r : Reg) : PortOp := .read32 (regOffset r)

/-- `WB i, byte` (R106). -/
def scriptWB (i : Nat) (b : Byte) : PortOp := .write8 (ibufAddr i) b

/-- `RB i` (R106). -/
def scriptRB (i : Nat) : PortOp := .read8 (obufAddr i)

/-- `CMD mnemonic` (R106). -/
def scriptCMD (i : Instr) : PortOp := commandOp (encode i)

/-- `RUN mnemonic`: `CMD mnemonic` then `WAIT`, which is one `RD STATUS`, since `BUSY` = 1 is never seen (R77, R107). -/
def scriptRUN (i : Instr) : List PortOp := [scriptCMD i, scriptRD .status]

/-- `WB` of consecutive bytes from index `i` on. -/
def scriptWBs : Nat → List Byte → List PortOp
  | _, [] => []
  | i, b :: bs => scriptWB i b :: scriptWBs (i + 1) bs

/-- `LOAD b_0 … b_{k−1}` (R107). -/
def scriptLOAD (bs : List Byte) : List PortOp :=
  scriptWBs 0 bs ++ [scriptWR .ilen (BitVec.ofNat 32 bs.length), scriptWR .ipos 0]

/-- `DUMP` where `RD OLEN` gives `n` (R107). -/
def scriptDUMP (n : Nat) : List PortOp := scriptRD .olen :: (List.range n).map scriptRB

end Sys2Proof.Machine
end

