-- ==== Sys2Proof/Safety.lean ====
section
/-! DEFINITION. The terms the claims use: trees as mathematical objects and what the arena must hold for one
(10_state.md rules R33 to R35), codes and bit sequences (30_encoding.md rules R97 to R102), the contract of the ordering
function (41_tree_builder.md rule R132), and the invariant that rules out every state no run reaches. -/

namespace Sys2Proof.Machine

/-! ### Trees -/

/-- A full binary tree over arena indices: each leaf with its symbol, each branch with two subtrees (R35). -/
inductive ITree where
  | leaf (i : NodeIdx) (sym : Byte)
  | branch (i : NodeIdx) (l r : ITree)
  deriving DecidableEq, Repr

/-- The arena index of the root. -/
def ITree.idx : ITree → NodeIdx
  | .leaf i _ => i
  | .branch i _ _ => i

/-- A tree whose root is a leaf (R155, R213). -/
def ITree.isLeaf : ITree → Bool
  | .leaf _ _ => true
  | .branch _ _ _ => false

/-- The arena indices in preorder. -/
def ITree.indices : ITree → List NodeIdx
  | .leaf i _ => [i]
  | .branch i l r => i :: (l.indices ++ r.indices)

/-- The number of nodes. -/
def ITree.size : ITree → Nat
  | .leaf _ _ => 1
  | .branch _ l r => 1 + l.size + r.size

/-- The number of leaves. -/
def ITree.leaves : ITree → Nat
  | .leaf _ _ => 1
  | .branch _ l r => l.leaves + r.leaves

/-- The length of the longest path from the root. -/
def ITree.depth : ITree → Nat
  | .leaf _ _ => 0
  | .branch _ l r => 1 + max l.depth r.depth

/-- Each leaf's symbol with the path to it, `false` (0) for a left step, `true` (1) for a right step, leaves in preorder
(R102, R152). -/
def ITree.paths : ITree → List (Byte × List Bool)
  | .leaf _ s => [(s, [])]
  | .branch _ l r =>
    l.paths.map (fun x => (x.1, false :: x.2)) ++ r.paths.map (fun x => (x.1, true :: x.2))

/-- The leaf symbols in preorder. -/
def ITree.symbols (t : ITree) : List Byte := t.paths.map (fun x => x.1)

/-- The serialized tree (R97, R98). -/
def ITree.bytes : ITree → List Byte
  | .leaf _ s => [0x01, s]
  | .branch _ l r => 0x00 :: (l.bytes ++ r.bytes)

/-- The same shape and symbols with the arena indices in preorder from `base` on (R175). -/
def ITree.renumber : Nat → ITree → ITree
  | base, .leaf _ s => .leaf (BitVec.ofNat 9 base) s
  | base, .branch _ l r =>
    .branch (BitVec.ofNat 9 base) (l.renumber (base + 1)) (r.renumber (base + 1 + l.size))

/-- The starts of the serialized tree that end just before a flag byte, in stream order (R175, R176). -/
def ITree.flagStarts : ITree → List (List Byte)
  | .leaf _ _ => [[]]
  | .branch _ l r =>
    [] :: (l.flagStarts.map (fun u => 0x00 :: u) ++ r.flagStarts.map (fun u => 0x00 :: (l.bytes ++ u)))

/-- Every byte value is the symbol of exactly one leaf (R35 (b)). -/
def ITree.coversAlphabet (t : ITree) : Prop := t.symbols.Perm ((List.range NSYM).map (BitVec.ofNat 8))

/-- The arena holds `t` under the parent `p`: fields `sym`, `left`, `right`, `parent` of each of its nodes (R33, R34). -/
def ITree.heldBy (nd : Table Node 9) : NodeIdx → ITree → Prop
  | p, .leaf i s =>
    i ≠ NULL ∧ (nd.get i).sym = s.setWidth 9 ∧ (nd.get i).left = NULL ∧ (nd.get i).right = NULL ∧
      (nd.get i).parent = p
  | p, .branch i l r =>
    i ≠ NULL ∧ (nd.get i).sym = NOT_A_LEAF ∧ (nd.get i).left = l.idx ∧ (nd.get i).right = r.idx ∧
      (nd.get i).parent = p ∧ l.heldBy nd i ∧ r.heldBy nd i

/-- The nodes of `t` occupy exactly the arena entries below `n`, each once (R30, R35). -/
def ITree.occupies (n : Nat) (t : ITree) : Prop := (t.indices.map BitVec.toNat).Perm (List.range n)

/-- The frequencies of BUILD: a leaf has its symbol's count, an internal node the sum of its children's (R131, R134). -/
def ITree.freqsFrom (nd : Table Node 9) (hist : Table Word 8) : ITree → Prop
  | .leaf i s => (nd.get i).freq = hist.get s
  | .branch i l r =>
    (nd.get i).freq = (nd.get l.idx).freq + (nd.get r.idx).freq ∧ l.freqsFrom nd hist ∧ r.freqsFrom nd hist

/-- Every branch has its more frequent child on the left, ties allowed (R135). -/
def ITree.leftHeavy (nd : Table Node 9) : ITree → Prop
  | .leaf _ _ => True
  | .branch _ l r =>
    (nd.get r.idx).freq.toNat ≤ (nd.get l.idx).freq.toNat ∧ l.leftHeavy nd ∧ r.leftHeavy nd

/-- The state holds the complete tree `t` (R34, R35, R41). -/
def State.holdsTree (s : State) (t : ITree) : Prop :=
  s.tvalid = true ∧ t.idx = s.root ∧ t.heldBy s.node NULL ∧ t.occupies s.ncount.toNat

/-! ### Histograms, codes and bits -/

/-- The sum of all 256 counts (R122). -/
def histSum (hist : Table Word 8) : Nat := ((List.range NSYM).map (fun b => (hist.get (BitVec.ofNat 8 b)).toNat)).sum

/-- The code table of a tree: each leaf's path recorded in preorder, a later leaf of the same symbol overwriting an
earlier one (R150, R156). -/
def codeTableOf (t : ITree) : Table Code 8 :=
  t.paths.foldl (fun c x => c.set x.1 (Code.ofPath x.2)) (Table.fill 8 Code.none)

/-- Unused positions of the 256-bit field are 0 (R37). -/
def Code.wf (c : Code) : Prop := ∀ j, c.len.toNat ≤ j → c.bits.getMsbD j = false

/-- The logical bitstream of a payload (R100). -/
def codeBits (code : Table Code 8) (payload : List Byte) : List Bool := payload.flatMap (fun x => (code.get x).toBits)

/-- Every byte of the payload has a code (R193). -/
def allCoded (code : Table Code 8) (payload : List Byte) : Prop := ∀ x ∈ payload, (code.get x).len ≠ 0

/-- Packed byte `k` of a logical bitstream: bits `L[8k] … L[8k+7]`, first bit in bit 7, zero padding (R100, R101). -/
def packedByte (bits : List Bool) (k : Nat) : Byte :=
  BitVec.ofNat 8 (bitsToNat ((List.range 8).map (fun m => bits.getD (8 * k + m) false)))

/-- The packed bitstream: `ceil(B/8)` bytes (R100, R101). -/
def packed (bits : List Bool) : List Byte := (List.range ((bits.length + 7) / 8)).map (packedByte bits)

/-- The bits of a byte stream, most significant first in each byte (R68). -/
def streamBits (bs : List Byte) : List Bool := bs.flatMap (fun b => (List.range 8).map b.getMsbD)

/-- The first `OLEN` bytes of `OBUF`, the defined output (R40); 0 stands where the model lists no byte. -/
def State.output (s : State) : List Byte := (List.range s.olen.toNat).map (fun i => (s.obuf.read? i).getD 0)

/-- The bytes `IBUF[0 .. ILEN−1]` (R235, R236). -/
def State.input (s : State) : List Byte := (List.range s.ilen.toNat).map s.ibufByte

/-- The engine can accept a command other than ACK (R230). -/
abbrev State.ready (s : State) : Prop := s.busy = false ∧ s.err = false

/-- The state of a fault `f` that leaves everything but `STATUS` as it was (R252 to R254). -/
def State.faulted (s : State) (f : FaultCode) : State := { s with done := false, err := true, fcode := f.code }

/-- The state of a fault `f` of a command that may have written to `OBUF`: `STATUS` says so, the bytes below `OLEN` and
everything else are as they were; what stands in `OBUF` at or above `OLEN` is left open (R40, R253, R254). -/
def faultsInto (s s' : State) (f : FaultCode) : Prop :=
  s' = { s.faulted f with obuf := s'.obuf } ∧ ∀ a, a < s.olen.toNat → s'.obuf.read? a = s.obuf.read? a

/-- From `s` to `s'` exactly the bytes `bs` have been appended to the output stream: they stand at `OLEN`, `OLEN` is
past them, every other byte of `OBUF` is as before (R27, R40, R74). -/
def appended (s s' : State) (bs : List Byte) : Prop :=
  s'.olen.toNat = s.olen.toNat + bs.length ∧
  (∀ k (h : k < bs.length), s'.obuf.read? (s.olen.toNat + k) = some bs[k]) ∧
  (∀ a, a < s.olen.toNat ∨ s.olen.toNat + bs.length ≤ a → s'.obuf.read? a = s.obuf.read? a)

/-! ### The ordering contract and the insertion formulation -/

/-- What any conforming ordering function does: a permutation, descending by frequency (R132). -/
def conformingOrder (order : List WsEntry → List WsEntry) : Prop :=
  ∀ ws, (order ws).Perm ws ∧ (order ws).Pairwise (fun x y => y.freq.toNat ≤ x.freq.toNat)

/-- Put `x` before the first entry of strictly smaller frequency, or last (R139). -/
def insertBeforeSmaller (x : WsEntry) : List WsEntry → List WsEntry
  | [] => [x]
  | y :: l => if y.freq.toNat < x.freq.toNat then x :: y :: l else y :: insertBeforeSmaller x l

/-- The loop of BUILD with one insertion per iteration in place of a full ordering, on a working set already ordered
(R139). -/
def insertionLoop (c : ChildOrder) : Nat → NodeIdx → List WsEntry → Table Node 9 → List WsEntry × Table Node 9
  | 0, _, ws, nd => (ws, nd)
  | k + 1, next, ws, nd =>
    match ws.reverse with
    | b :: a :: front =>
      insertionLoop c k (next + 1) (insertBeforeSmaller { idx := next, freq := a.freq + b.freq } front.reverse)
        (combine c a b next nd)
    | _ => (ws, nd)

/-! ### The invariant -/

/-- What holds of every state a run reaches from reset, whatever the host does. -/
structure Inv (s : State) : Prop where
  /-- The capacities are in their bounds (R11). -/
  params : s.params.wf = true
  /-- No command is seen running (R3, R77). -/
  idle : s.busy = false
  /-- At most one of `DONE` and `ERR` is 1 (R23). -/
  outcome : ¬ (s.done = true ∧ s.err = true)
  /-- `FCODE` is 0 while `ERR` = 0 (R23). -/
  noFault : s.err = false → s.fcode = 0
  /-- `FCODE` is a code of the table while `ERR` = 1 (R251). -/
  someFault : s.err = true → s.fcode ∈ faultCodes
  /-- Without a tree `ROOT` is `NULL` and `NCOUNT` is 0 (R29, R30, R41). -/
  noTree : s.tvalid = false → s.root = NULL ∧ s.ncount = 0
  /-- `TVALID` marks a complete tree (R34, R35, R41). -/
  tree : s.tvalid = true → ∃ t, s.holdsTree t
  /-- `0 ≤ OLEN ≤ OBUF_CAP` (R27). -/
  outputFits : s.olen.toNat ≤ s.params.obufCap
  /-- The counts sum to less than 2^32 (R122). -/
  counts : histSum s.hist < 2 ^ 32
  /-- Unused code bits are 0 (R37). -/
  codes : ∀ b, (s.code.get b).wf
  /-- The buffers are in canonical form and within their capacities (R39, R40). -/
  ibufWf : s.ibuf.wf
  obufWf : s.obuf.wf
  ibufBound : ∀ c ∈ s.ibuf, c.1 < s.params.ibufCap
  obufBound : ∀ c ∈ s.obuf, c.1 < s.params.obufCap
  /-- `OBUF[0..OLEN−1]` is defined (R40). -/
  outputDefined : ∀ i, i < s.olen.toNat → (s.obuf.read? i).isSome = true

end Sys2Proof.Machine
end

