-- ==== Sys2Proof/Certificates/Slice0/Obligations.lean ====
section
/-! DEFINITION. The statements for the provers, in the order of OBLIGATIONS.json. Each docstring names the rule of spec/
it formalises; a hypothesis on the capacities (`params.wf`) is rule R11. -/

open Sys2Proof Sys2Proof.Machine

/-! ### Encoding and the step -/

/-- R91: the fourteen words of the opcode map. -/
def Obligations.OpcodeMapWordsDecode : Prop :=
  decode 0x00000000 = .ok .nop ∧ decode 0x00000001 = .ok .ack ∧ decode 0x00000002 = .ok .orst ∧
  decode 0x00000010 = .ok .hist ∧ decode 0x00000011 = .ok .build ∧ decode 0x00000012 = .ok .gen ∧
  decode 0x00000013 = .ok .ser ∧ decode 0x00000014 = .ok .des ∧ decode 0x00000015 = .ok .pack ∧
  decode 0x00000016 = .ok .unpack ∧ decode 0x00000017 = .ok .wrsize ∧ decode 0x00000018 = .ok .rdsize ∧
  decode 0x00000020 = .ok .compress ∧ decode 0x00000021 = .ok .decompress

/-- R90: the decoder accepts exactly the encoder's words: opcode in bits 7:0, bits 31:8 zero; and a word is well-formed
exactly when it is a command. -/
def Obligations.DecodeInvertsEncodeOnEveryWord : Prop :=
  (∀ (w : Word) (i : Instr), decode w = .ok i ↔ w = encode i) ∧
  (∀ w : Word, CommandWord.wf w = true ↔ ∃ i, w = encode i)

/-- R92: an illegal word raises `F_ILLEGAL_CMD` when a command can be accepted, and changes no other state. -/
def Obligations.IllegalWordRaisesIllegalCmd : Prop :=
  ∀ (s : State) (w : Word) (rest : List PortOp), s.ready → s.port = commandOp w :: rest → (∀ i, w ≠ encode i) →
    step s = .next (State.faulted { s with port := rest, reply := .none } .illegalCmd)

/-- R22, R230: a write of a command's word to `CMD` runs that command on the state without that operation. -/
def Obligations.StepRunsTheDecodedCommand : Prop :=
  ∀ (s : State) (w : Word) (i : Instr) (rest : List PortOp), s.port = commandOp w :: rest → decode w = .ok i →
    step s = exec i { s with port := rest, reply := .none }

/-- R77, R230, R255: while `BUSY` is 1 every `CMD` write is ignored; while `ERR` is 1 every `CMD` write but ACK is
ignored, illegal words included. -/
def Obligations.CommandWritesIgnoredWhileBusyOrErr : Prop :=
  ∀ (s : State) (w : Word) (rest : List PortOp), s.port = commandOp w :: rest →
    (s.busy = true ∨ (s.err = true ∧ w ≠ encode .ack)) →
    step s = .next { s with port := rest, reply := .none }

/-! ### Control commands -/

/-- R232: NOP does nothing but set `DONE`. -/
def Obligations.NopOnlySetsDone : Prop := ∀ s : State, s.ready → exec .nop s = .next { s with done := true }

/-- R233: ACK clears `ERR`, `FCODE` and `DONE` and nothing else, whatever `ERR` was; it leaves `irq` at 0; and it is the
only command accepted while `ERR` is 1. -/
def Obligations.AckClearsTheOutcome : Prop :=
  (∀ s : State, s.busy = false →
    exec .ack s = .next { s with err := false, fcode := 0, done := false } ∧
    ∀ s', exec .ack s = .next s' → s'.irq = false) ∧
  (∀ (i : Instr) (s : State), s.busy = false → s.err = true → i ≠ .ack → exec i s = .next s)

/-- R234: ORST sets `OLEN` to 0 and erases no byte. -/
def Obligations.OrstEmptiesTheOutput : Prop :=
  ∀ s : State, s.ready → exec .orst s = .next { s with olen := 0, done := true }

/-! ### SymbolHistogram -/

/-- R120: HIST counts each byte value of the payload, changes no other state, and faults with `F_IRANGE` exactly when
the input registers are out of range. -/
def Obligations.HistCountsThePayload : Prop :=
  ∀ s : State, s.ready →
    (s.ilen.toNat ≤ s.params.ibufCap ∧ s.ipos.toNat ≤ s.ilen.toNat →
      exec .hist s = .next { s with
        done := true
        hist := Table.tabulate 8 (fun b => BitVec.ofNat 32 (s.payload.count b)) }) ∧
    (¬ (s.ilen.toNat ≤ s.params.ibufCap ∧ s.ipos.toNat ≤ s.ilen.toNat) → exec .hist s = .next (s.faulted .iRange))

/-- R122: after HIST the counts sum to `ILEN − IPOS`, so no slot and no sum of slots exceeds 2^32 − 1. -/
def Obligations.HistSumsToThePayloadLength : Prop :=
  ∀ s : State, s.ready → s.ilen.toNat ≤ s.params.ibufCap → s.ipos.toNat ≤ s.ilen.toNat →
    ∃ s', exec .hist s = .next s' ∧ histSum s'.hist = s.ilen.toNat - s.ipos.toNat ∧ histSum s'.hist ≤ 2 ^ 32 - 1

/-! ### TreeBuilder -/

/-- R130, R136: BUILD raises no fault, writes the arena from the histogram alone, sets `ROOT` to 510, `NCOUNT` to 511
and `TVALID`, and changes no other state. -/
def Obligations.BuildCompletesWithRoot510 : Prop :=
  ∀ s : State, s.ready →
    exec .build s = .next { s with
      done := true, tvalid := true, root := 510, ncount := 511
      node := (buildWith stableOrder .leftIsSecondToLast s.hist).2 }

/-- R137: for every ordering function allowed by rule R132 and either child order the result is a full binary tree
with 256 leaves, one per symbol, and 255 internal nodes. -/
def Obligations.BuildMakesAFullTreeForEveryOrder : Prop :=
  ∀ (order : List WsEntry → List WsEntry) (c : ChildOrder) (hist : Table Word 8), conformingOrder order →
    ∃ t : ITree, t.idx = rootOf (buildWith order c hist).1 ∧ t.heldBy (buildWith order c hist).2 NULL ∧
      t.occupies 511 ∧ t.leaves = 256 ∧ t.coversAlphabet

/-- R131, R134, R138: the leaf of symbol `s` is entry `s` with the symbol's count; the frequency of an internal node is
the sum of its children's; the root's is the sum of the counts, which does not wrap. -/
def Obligations.BuildFrequenciesAreSums : Prop :=
  ∀ (order : List WsEntry → List WsEntry) (c : ChildOrder) (hist : Table Word 8), conformingOrder order →
    histSum hist < 2 ^ 32 →
    ∀ t : ITree, t.idx = rootOf (buildWith order c hist).1 → t.heldBy (buildWith order c hist).2 NULL →
      t.freqsFrom (buildWith order c hist).2 hist ∧
      ((buildWith order c hist).2.get 510).freq.toNat = histSum hist ∧
      ∀ b : Byte, ((buildWith order c hist).2.get (b.setWidth 9)).sym = b.setWidth 9 ∧
        ((buildWith order c hist).2.get (b.setWidth 9)).freq = hist.get b

/-- R133: the ordering of this hardware is a stable descending sort by frequency: it conforms to R132 and keeps the
relative order among entries of equal frequency. -/
def Obligations.OrderIsTheStableDescendingSort : Prop :=
  conformingOrder stableOrder ∧
  ∀ (ws : List WsEntry) (f : Word),
    (stableOrder ws).filter (fun x => decide (x.freq = f)) = ws.filter (fun x => decide (x.freq = f))

/-- R135: the second-to-last node is the left child, so a left child's frequency is never below its sibling's. -/
def Obligations.BuildPutsTheHeavierChildLeft : Prop :=
  ∀ (hist : Table Word 8) (t : ITree),
    t.idx = rootOf (buildWith stableOrder .leftIsSecondToLast hist).1 →
    t.heldBy (buildWith stableOrder .leftIsSecondToLast hist).2 NULL →
    t.leftHeavy (buildWith stableOrder .leftIsSecondToLast hist).2

/-- R139: after the first ordering one insertion per iteration keeps, after every number `k` of iterations and from every
working set, the working set in the order the next full ordering would give it, and the same arena. -/
def Obligations.FullResortEqualsOneInsertion : Prop :=
  ∀ (c : ChildOrder) (k : Nat) (next : NodeIdx) (ws : List WsEntry) (nd : Table Node 9),
    stableOrder (buildLoop stableOrder c k next ws nd).1 = (insertionLoop c k next (stableOrder ws) nd).1 ∧
    (buildLoop stableOrder c k next ws nd).2 = (insertionLoop c k next (stableOrder ws) nd).2

/-! ### CodeGenerator -/

/-- R150, R152, R156: GEN on a tree with an internal root records each leaf's path as its symbol's code, the last leaf
in preorder winning, marks every node in use visited, and changes no other state. -/
def Obligations.GenRecordsThePathOfEveryLeaf : Prop :=
  ∀ (s : State) (t : ITree), s.ready → s.holdsTree t → t.isLeaf = false →
    exec .gen s = .next { s with
      done := true
      code := codeTableOf t
      node := s.node.mapEntries (fun i n => if i.toNat < s.ncount.toNat then { n with visited := true } else n) }

/-- R150, R155: GEN faults with `F_NO_TREE` when no tree is held and with `F_DEGENERATE` when the root is a leaf, and
writes nothing. -/
def Obligations.GenFaultsWithoutATree : Prop :=
  ∀ s : State, s.ready →
    (s.tvalid = false → exec .gen s = .next (s.faulted .noTree)) ∧
    (∀ t, s.holdsTree t → t.isLeaf = true → exec .gen s = .next (s.faulted .degenerate))

/-- R154, R38: on a tree with every symbol on one leaf, GEN gives every symbol a code of 1 to 255 bits, the path to its
leaf, no code is an initial part of another, and the Kraft sum is 1. -/
def Obligations.GenCodesArePrefixFreeAndComplete : Prop :=
  ∀ (s : State) (t : ITree), s.ready → s.holdsTree t → t.coversAlphabet →
    ∃ s', exec .gen s = .next s' ∧ s'.done = true ∧
      (∀ b : Byte, 1 ≤ (s'.code.get b).len.toNat ∧ (b, (s'.code.get b).toBits) ∈ t.paths) ∧
      (∀ a b : Byte, a ≠ b → ¬ (s'.code.get a).toBits <+: (s'.code.get b).toBits) ∧
      ((List.range NSYM).map (fun b => 2 ^ (255 - (s'.code.get (BitVec.ofNat 8 b)).len.toNat))).sum = 2 ^ 255

/-- R153: on a tree of `NCOUNT` nodes the traversal takes exactly `2 · (NCOUNT − 1) + 1` steps. -/
def Obligations.GenTakesTwoStepsPerEdge : Prop :=
  ∀ (s : State) (t : ITree), s.holdsTree t → t.isLeaf = false →
    (∃ u, genLoop (2 * (s.ncount.toNat - 1) + 1) (genStart s) = .ok u) ∧
    genLoop (2 * (s.ncount.toNat - 1)) (genStart s) = .error .traversalUnbounded

/-- R151: running GEN twice in a row gives the same state as running it once. -/
def Obligations.GenTwiceIsGenOnce : Prop :=
  ∀ (s s' : State), s.ready → Inv s → exec .gen s = .next s' → s'.err = false → exec .gen s' = .next s'

/-! ### TreeCodec -/

/-- R170: SER appends the preorder serialization of the tree, or faults with `F_NO_TREE` or `F_OBUF_FULL`, and changes
no other state. -/
def Obligations.SerAppendsTheSerializedTree : Prop :=
  ∀ s : State, s.ready → s.params.wf = true → s.olen.toNat ≤ s.params.obufCap →
    (s.tvalid = false → exec .ser s = .next (s.faulted .noTree)) ∧
    (∀ t, s.holdsTree t → s.olen.toNat + t.bytes.length ≤ s.params.obufCap →
      ∃ s', exec .ser s = .next s' ∧ appended s s' t.bytes ∧
        s' = { s with done := true, olen := s'.olen, obuf := s'.obuf }) ∧
    (∀ t, s.holdsTree t → s.params.obufCap < s.olen.toNat + t.bytes.length →
      ∃ s', exec .ser s = .next s' ∧ faultsInto s s' .obufFull)

/-- R98, R35: a tree with `k` internal nodes has `k + 1` leaves, `2k + 1` nodes, depth at most `k` and serializes to
`3k + 2` bytes; a tree the arena holds has `NCOUNT` nodes. -/
def Obligations.TreeArithmetic : Prop :=
  (∀ t : ITree, ∃ k, t.leaves = k + 1 ∧ t.size = 2 * k + 1 ∧ t.depth ≤ k ∧ t.bytes.length = 3 * k + 2) ∧
  (∀ (s : State) (t : ITree), s.holdsTree t → t.size = s.ncount.toNat ∧ t.leaves = (s.ncount.toNat + 1) / 2 ∧
    t.depth ≤ 255)

/-- R174, R175: DES of a stream that starts with a serialized tree of at most 511 nodes puts it into the arena in
preorder from entry 0, with `freq` and `visited` 0, moves `IPOS` past its last byte, and changes no other state. -/
def Obligations.DesReadsTheSerializedTree : Prop :=
  ∀ (s : State) (t : ITree) (rest : List Byte), s.ready →
    s.ilen.toNat ≤ s.params.ibufCap → s.ipos.toNat ≤ s.ilen.toNat → s.payload = t.bytes ++ rest → t.size ≤ NNODE →
    ∃ s', exec .des s = .next s' ∧
      s' = { s with
        done := true, tvalid := true, root := 0
        ncount := BitVec.ofNat 10 t.size
        ipos := s.ipos + BitVec.ofNat 32 t.bytes.length
        node := s'.node } ∧
      s'.holdsTree (t.renumber 0) ∧
      ∀ i : NodeIdx, i.toNat < t.size → (s'.node.get i).freq = 0 ∧ (s'.node.get i).visited = false

/-- R174, R176: DES out of range faults with `F_IRANGE` and leaves the old tree untouched; a stream that ends, has a bad
flag, or describes a 512th node faults at the first failing check in preorder and leaves no tree, with `IPOS` back. The
tree `t` is any tree the stream starts to describe; `u` is the stream up to its flag byte number `k`. -/
def Obligations.DesFaultsInPreorder : Prop :=
  ∀ s : State, s.ready →
    (¬ (s.ilen.toNat ≤ s.params.ibufCap ∧ s.ipos.toNat ≤ s.ilen.toNat) → exec .des s = .next (s.faulted .iRange)) ∧
    (s.ilen.toNat ≤ s.params.ibufCap → s.ipos.toNat ≤ s.ilen.toNat →
      ∀ (t : ITree) (k : Nat) (u : List Byte), t.flagStarts[k]? = some u →
        (∀ f : FaultCode,
          (f = .treeTrunc ∧ k ≤ NNODE ∧ s.payload = u) ∨
          (f = .treeTrunc ∧ k < NNODE ∧ s.payload = u ++ [0x01]) ∨
          (f = .badFlag ∧ k ≤ NNODE ∧ ∃ b v, s.payload = u ++ b :: v ∧ b ≠ 0x00 ∧ b ≠ 0x01) ∨
          (f = .alloc ∧ k = NNODE ∧ ∃ b v, s.payload = u ++ b :: v ∧ (b = 0x00 ∨ b = 0x01)) →
          ∃ s', exec .des s = .next s' ∧
            s' = { s.faulted f with tvalid := false, root := NULL, ncount := 0, node := s'.node }))

/-- R177: DES completes exactly on a stream that starts with a serialized tree of at most 511 nodes. -/
def Obligations.DesAcceptsExactlyTheGrammar : Prop :=
  ∀ s : State, s.ready → s.ilen.toNat ≤ s.params.ibufCap → s.ipos.toNat ≤ s.ilen.toNat →
    ((∃ s', exec .des s = .next s' ∧ s'.done = true) ↔
      ∃ (t : ITree) (rest : List Byte), t.size ≤ NNODE ∧ s.payload = t.bytes ++ rest)

/-- R179: SER, moving the bytes it appended to the input, DES: the tree read back is serialized by SER to the same bytes
again, and, where its root is internal, GEN gives the same code table on it as on the original tree. -/
def Obligations.TreeRoundTripKeepsTheCodes : Prop :=
  ∀ (s : State) (t : ITree), s.ready → s.params.wf = true → s.holdsTree t →
    s.olen.toNat + t.bytes.length ≤ s.params.obufCap →
    ∃ (s1 : State) (bs : List Byte), exec .ser s = .next s1 ∧ s1.done = true ∧ appended s s1 bs ∧
      ∀ (r : State) (rest : List Byte), r.ready → r.params.wf = true →
        r.ilen.toNat ≤ r.params.ibufCap → r.ipos.toNat ≤ r.ilen.toNat → r.payload = bs ++ rest →
        ∃ r1, exec .des r = .next r1 ∧ r1.done = true ∧
          (r.olen.toNat + bs.length ≤ r.params.obufCap →
            ∃ r2, exec .ser r1 = .next r2 ∧ r2.done = true ∧ appended r1 r2 bs) ∧
          (t.isLeaf = false →
            ∃ s3 r3, exec .gen s1 = .next s3 ∧ exec .gen r1 = .next r3 ∧ s3.done = true ∧ r3.done = true ∧
              r3.code = s3.code)

/-! ### BitPacker -/

/-- R190, R192, R194: PACK over a payload whose bytes all have codes appends the packed codes, `ceil(B/8)` bytes, where
they fit, and changes no other state; where they do not fit it faults with `F_OBUF_FULL` and changes nothing else. -/
def Obligations.PackAppendsThePackedCodes : Prop :=
  ∀ s : State, s.ready → s.params.wf = true → s.olen.toNat ≤ s.params.obufCap →
    s.ilen.toNat ≤ s.params.ibufCap → s.ipos.toNat ≤ s.ilen.toNat → allCoded s.code s.payload →
    (s.olen.toNat + (packed (codeBits s.code s.payload)).length ≤ s.params.obufCap →
      ∃ s', exec .pack s = .next s' ∧ appended s s' (packed (codeBits s.code s.payload)) ∧
        s' = { s with done := true, olen := s'.olen, obuf := s'.obuf }) ∧
    (s.params.obufCap < s.olen.toNat + (packed (codeBits s.code s.payload)).length →
      ∃ s', exec .pack s = .next s' ∧ faultsInto s s' .obufFull)

/-- R193, R257, R190: PACK faults with `F_IRANGE` out of range; at the first payload byte without a code it faults with
`F_NO_CODE`, unless the whole bytes of the codes before it already do not fit, which is `F_OBUF_FULL`; nothing else
is different afterwards. -/
def Obligations.PackFaultsInPayloadOrder : Prop :=
  ∀ s : State, s.ready → s.params.wf = true → s.olen.toNat ≤ s.params.obufCap →
    (¬ (s.ilen.toNat ≤ s.params.ibufCap ∧ s.ipos.toNat ≤ s.ilen.toNat) → exec .pack s = .next (s.faulted .iRange)) ∧
    (s.ilen.toNat ≤ s.params.ibufCap → s.ipos.toNat ≤ s.ilen.toNat →
      ∀ (xs ys : List Byte) (x : Byte), s.payload = xs ++ x :: ys → allCoded s.code xs → (s.code.get x).len = 0 →
        ∃ s', exec .pack s = .next s' ∧ faultsInto s s'
          (if s.olen.toNat + (codeBits s.code xs).length / 8 ≤ s.params.obufCap then .noCode else .obufFull))

/-- R195, R67: WRSIZE appends `NSIZE` least-significant byte first, or faults with `F_OBUF_FULL` if fewer than 4 bytes
of room remain, and changes no other state. -/
def Obligations.WrsizeAppendsLittleEndian : Prop :=
  ∀ s : State, s.ready → s.params.wf = true → s.olen.toNat ≤ s.params.obufCap →
    (s.olen.toNat + 4 ≤ s.params.obufCap →
      ∃ s', exec .wrsize s = .next s' ∧
        appended s s' [s.nsize.extractLsb' 0 8, s.nsize.extractLsb' 8 8, s.nsize.extractLsb' 16 8,
          s.nsize.extractLsb' 24 8] ∧
        s' = { s with done := true, olen := s'.olen, obuf := s'.obuf }) ∧
    (s.params.obufCap < s.olen.toNat + 4 → ∃ s', exec .wrsize s = .next s' ∧ faultsInto s s' .obufFull)

/-! ### Decoder -/

/-- R210 to R214: where the input bits start with the paths of `NSIZE` leaves, UNPACK appends those leaves' symbols,
moves `IPOS` past the last byte fetched, ignores whatever follows, and changes no other state; with `NSIZE` = 0 it
reads nothing. -/
def Obligations.UnpackDecodesNsizeSymbols : Prop :=
  ∀ (s : State) (t : ITree) (ks : List (Byte × List Bool)), s.ready → s.params.wf = true →
    s.holdsTree t → (t.isLeaf = false ∨ ks = []) →
    s.ilen.toNat ≤ s.params.ibufCap → s.ipos.toNat ≤ s.ilen.toNat →
    (∀ x ∈ ks, x ∈ t.paths) → ks.length = s.nsize.toNat →
    (ks.flatMap (fun x => x.2)) <+: streamBits s.payload →
    s.olen.toNat + ks.length ≤ s.params.obufCap →
    ∃ s', exec .unpack s = .next s' ∧ appended s s' (ks.map (fun x => x.1)) ∧
      s' = { s with
        done := true
        ipos := s.ipos + BitVec.ofNat 32 (((ks.flatMap (fun x => x.2)).length + 7) / 8)
        olen := s'.olen, obuf := s'.obuf }

/-- R216, R257, R213, R210: UNPACK faults with `F_NO_TREE` without a tree, then `F_IRANGE`, then `F_DEGENERATE` on a root
leaf with `NSIZE > 0`; with `F_BITS_EXHAUSTED` when the input ends before `NSIZE` symbols, in or between codes; with
`F_OBUF_FULL` when a symbol finds no room; nothing but `STATUS` changes. -/
def Obligations.UnpackFaultsInOrder : Prop :=
  ∀ s : State, s.ready → s.params.wf = true → s.olen.toNat ≤ s.params.obufCap →
    (s.tvalid = false → exec .unpack s = .next (s.faulted .noTree)) ∧
    (s.tvalid = true → ¬ (s.ilen.toNat ≤ s.params.ibufCap ∧ s.ipos.toNat ≤ s.ilen.toNat) →
      exec .unpack s = .next (s.faulted .iRange)) ∧
    (∀ t, s.holdsTree t → s.ilen.toNat ≤ s.params.ibufCap → s.ipos.toNat ≤ s.ilen.toNat →
      (t.isLeaf = true → 0 < s.nsize.toNat → exec .unpack s = .next (s.faulted .degenerate)) ∧
      (∀ ks : List (Byte × List Bool), t.isLeaf = false → (∀ x ∈ ks, x ∈ t.paths) →
        (∀ q y : List Bool, ∀ b : Byte, streamBits s.payload = ks.flatMap (fun x => x.2) ++ q → (b, q ++ y) ∈ t.paths →
          y ≠ [] → ks.length < s.nsize.toNat → s.olen.toNat + ks.length ≤ s.params.obufCap →
          ∃ s', exec .unpack s = .next s' ∧ faultsInto s s' .bitsExhausted) ∧
        (ks.flatMap (fun x => x.2) <+: streamBits s.payload → ks.length ≤ s.nsize.toNat →
          s.params.obufCap < s.olen.toNat + ks.length →
          ∃ s', exec .unpack s = .next s' ∧ faultsInto s s' .obufFull)))

/-- R215, R96: RDSIZE loads the four bytes at `IPOS`, least significant first, and moves `IPOS` past them, or faults with
`F_IRANGE` or `F_SHORT_READ`, and changes no other state. -/
def Obligations.RdsizeReadsLittleEndian : Prop :=
  ∀ s : State, s.ready →
    (¬ (s.ilen.toNat ≤ s.params.ibufCap ∧ s.ipos.toNat ≤ s.ilen.toNat) → exec .rdsize s = .next (s.faulted .iRange)) ∧
    (s.ilen.toNat ≤ s.params.ibufCap → s.ipos.toNat ≤ s.ilen.toNat →
      (s.ilen.toNat - s.ipos.toNat < 4 → exec .rdsize s = .next (s.faulted .shortRead)) ∧
      (4 ≤ s.ilen.toNat - s.ipos.toNat →
        ∃ n : Word, exec .rdsize s = .next { s with done := true, nsize := n, ipos := s.ipos + 4 } ∧
          n.toNat = (s.ibufByte s.ipos.toNat).toNat + 2 ^ 8 * (s.ibufByte (s.ipos.toNat + 1)).toNat
            + 2 ^ 16 * (s.ibufByte (s.ipos.toNat + 2)).toNat + 2 ^ 24 * (s.ibufByte (s.ipos.toNat + 3)).toNat))

/-! ### Composites -/

/-- R235, R95, R101: COMPRESS of `IBUF[0..ILEN−1]` completes with the artifact, size field, serialized tree of all 256
symbols, packed codes, `771 + ceil(B/8)` bytes, exactly when that fits. -/
def Obligations.CompressProducesTheArtifact : Prop :=
  ∀ s : State, s.ready → s.params.wf = true →
    (s.params.ibufCap < s.ilen.toNat → exec .compress s = .next (s.faulted .iRange)) ∧
    (s.ilen.toNat ≤ s.params.ibufCap →
      ∃ t : ITree, t.coversAlphabet ∧ t.leaves = 256 ∧
        ∃ s', exec .compress s = .next s' ∧ s'.holdsTree t ∧ s'.root = 510 ∧ s'.ncount = 511 ∧
          s'.code = codeTableOf t ∧
          s'.hist = Table.tabulate 8 (fun b => BitVec.ofNat 32 (s.input.count b)) ∧
          (771 + ((codeBits s'.code s.input).length + 7) / 8 ≤ s.params.obufCap →
            s'.output = sizeBytes s.ilen ++ t.bytes ++ packed (codeBits s'.code s.input) ∧
            s'.olen.toNat = 771 + ((codeBits s'.code s.input).length + 7) / 8 ∧
            s' = { s with
              done := true, tvalid := true, root := 510, ncount := 511, ipos := 0, nsize := s.ilen
              olen := s'.olen, obuf := s'.obuf, hist := s'.hist, node := s'.node, code := s'.code }) ∧
          (s.params.obufCap < 771 + ((codeBits s'.code s.input).length + 7) / 8 →
            s' = { s.faulted .obufFull with
              tvalid := true, root := 510, ncount := 511, hist := s'.hist, node := s'.node, code := s'.code
              obuf := s'.obuf } ∧
            ∀ a, a < s.olen.toNat → s'.obuf.read? a = s.obuf.read? a))

/-- R238, R11: the engine's central guarantee. COMPRESS completes where the output buffer has room for the longest
artifact, and whenever it completes, DECOMPRESS of its output on any engine with room completes with the payload, at
`IPOS = ILEN`. -/
def Obligations.CompressThenDecompressIsTheIdentity : Prop :=
  ∀ s : State, s.ready → s.params.wf = true → s.ilen.toNat ≤ s.params.ibufCap →
    ∃ s', exec .compress s = .next s' ∧
      (771 + (255 * s.ilen.toNat + 7) / 8 ≤ s.params.obufCap → s'.done = true) ∧
      (s'.done = true →
        ∀ r : State, r.ready → r.params.wf = true → r.ilen.toNat ≤ r.params.ibufCap →
          s.ilen.toNat ≤ r.params.obufCap → r.input = s'.output →
          ∃ r', exec .decompress r = .next r' ∧ r'.done = true ∧ r'.output = s.input ∧ r'.olen = s.ilen ∧
            r'.nsize = s.ilen ∧ r'.ipos = r.ilen)

/-- R238, R45: the artifact of any full tree over the alphabet decompresses to the payload it was packed from, so the
guarantee holds for every ordering function and child order on the compressing side; the bytes after the artifact are
ignored (R236). -/
def Obligations.AnyConformingArtifactDecompresses : Prop :=
  ∀ (t : ITree) (payload rest : List Byte) (r : State), t.coversAlphabet → r.ready → r.params.wf = true →
    r.ilen.toNat ≤ r.params.ibufCap → payload.length ≤ r.params.obufCap →
    r.input = sizeBytes (BitVec.ofNat 32 payload.length) ++ t.bytes ++ packed (codeBits (codeTableOf t) payload) ++ rest →
    ∃ r', exec .decompress r = .next r' ∧ r'.done = true ∧ r'.output = payload ∧ r'.olen.toNat = payload.length ∧
      r'.holdsTree (t.renumber 0) ∧ r'.hist = r.hist ∧ r'.code = r.code

/-- The outcome of one more command after a step. -/
def thenExec (o : Host.Outcome State Fault Refusal) (i : Instr) : Host.Outcome State Fault Refusal :=
  match o with
  | .next s => exec i s
  | .fault r => .fault r
  | .refused r => .refused r

/-- What a composite accepted in `s` leaves, `u`, when one of its parts, run as a separate command, ended in the fault
state `s'`: the same structures and the same `STATUS`; the stream registers and the output below `OLEN` as at the
composite's acceptance (R239). -/
def rolledBackTo (s s' u : State) : Prop :=
  u = { s' with ipos := s.ipos, olen := s.olen, nsize := s.nsize, obuf := u.obuf } ∧
  ∀ a, a < s.olen.toNat → u.obuf.read? a = s.obuf.read? a

/-- R235, R239: COMPRESS gives the state its parts give as separate commands when they complete, and ends with the first
fault's code otherwise, the registers back at the acceptance of the composite, the structures as the parts left them. -/
def Obligations.CompressEqualsItsParts : Prop :=
  ∀ s s' : State, s.ready →
    thenExec (thenExec (thenExec (thenExec (thenExec (exec .hist s.startCompress) .build) .gen) .wrsize) .ser) .pack
      = .next s' →
    (s'.err = false → exec .compress s = .next s') ∧
    (s'.err = true → ∃ u, exec .compress s = .next u ∧ rolledBackTo s s' u)

/-- R236, R239: DECOMPRESS gives the state its parts give as separate commands when they complete, and ends with the
first fault's code otherwise, the registers back at the acceptance of the composite, the structures as the parts left
them. -/
def Obligations.DecompressEqualsItsParts : Prop :=
  ∀ s s' : State, s.ready →
    thenExec (thenExec (exec .rdsize s.startDecompress) .des) .unpack = .next s' →
    (s'.err = false → exec .decompress s = .next s') ∧
    (s'.err = true → ∃ u, exec .decompress s = .next u ∧ rolledBackTo s s' u)

/-! ### Faults and whole-machine rules -/

/-- R252, R253, R254, R239: whichever command faults, `ILEN`, `IPOS`, `OLEN`, `NSIZE` and `OBUF[0..OLEN−1]` are as at its
acceptance, `BUSY` and `DONE` are 0, and `FCODE` is a code of rule R251 other than `F_ILLEGAL_CMD`'s; R251: each cause has
the code of the table. -/
def Obligations.FaultRollsTheRegistersBack : Prop :=
  (∀ (i : Instr) (s s' : State), s.ready → exec i s = .next s' → s'.err = true →
    s'.ilen = s.ilen ∧ s'.ipos = s.ipos ∧ s'.olen = s.olen ∧ s'.nsize = s.nsize ∧
    (∀ a, a < s.olen.toNat → s'.obuf.read? a = s.obuf.read? a) ∧
    s'.busy = false ∧ s'.done = false ∧
    s'.fcode ∈ [0x11#8, 0x21, 0x22, 0x23, 0x31, 0x32, 0x33, 0x42, 0x43, 0x44]) ∧
  FaultCode.alloc.code = 0x11 ∧ FaultCode.shortRead.code = 0x21 ∧ FaultCode.obufFull.code = 0x22 ∧
  FaultCode.iRange.code = 0x23 ∧ FaultCode.treeTrunc.code = 0x31 ∧ FaultCode.bitsExhausted.code = 0x32 ∧
  FaultCode.badFlag.code = 0x33 ∧ FaultCode.illegalCmd.code = 0x41 ∧ FaultCode.noTree.code = 0x42 ∧
  FaultCode.degenerate.code = 0x43 ∧ FaultCode.noCode.code = 0x44

/-- R231: a command that does not fault ends with `BUSY` = 0 and, unless it is ACK, `DONE` = 1. -/
def Obligations.CompletionSetsDone : Prop :=
  ∀ (i : Instr) (s s' : State), s.ready → exec i s = .next s' → s'.err = false →
    s'.busy = false ∧ s'.done = (if i = .ack then false else true)

/-- R255, R256, R291: only an ACK written to `CMD` and the reset input end a fault; every other step keeps `ERR`, `FCODE`
and `DONE`. -/
def Obligations.OnlyAckOrResetClearsErr : Prop :=
  ∀ s s' : State, step s = .next s' → s.err = true →
    (s'.err = true ∧ s'.fcode = s.fcode ∧ s'.done = s.done) ∨
    (∃ rest, s.port = commandOp (encode .ack) :: rest) ∨ (∃ rest, s.port = .rst :: rest)

/-- R25, R71, R73: no command changes `ILEN`, `CTRL`, `IBUF`, the capacities, or what the host has issued and been
answered. -/
def Obligations.NoCommandTouchesTheInputSide : Prop :=
  ∀ (i : Instr) (s s' : State), exec i s = .next s' →
    s'.ilen = s.ilen ∧ s'.ie = s.ie ∧ s'.ibuf = s.ibuf ∧ s'.params = s.params ∧ s'.port = s.port ∧
    s'.reply = s.reply ∧ s'.draws = s.draws ∧ s'.epoch = s.epoch

/-- R71: which memories a command may write: `HIST` only HIST and COMPRESS; `CODE` only GEN and COMPRESS; the tree and
`ROOT`, `NCOUNT`, `TVALID` only BUILD, DES and the composites; `NODE` these and GEN; `OBUF` only the appending
commands; `OLEN` these and ORST; `NSIZE` only RDSIZE and the composites; `IPOS` only RDSIZE, DES, UNPACK and the
composites. -/
def Obligations.CommandsWriteOnlyTheirDestinations : Prop :=
  ∀ (i : Instr) (s s' : State), exec i s = .next s' →
    (i ∉ [Instr.hist, .compress] → s'.hist = s.hist) ∧
    (i ∉ [Instr.gen, .compress] → s'.code = s.code) ∧
    (i ∉ [Instr.build, .des, .compress, .decompress] →
      s'.root = s.root ∧ s'.ncount = s.ncount ∧ s'.tvalid = s.tvalid) ∧
    (i ∉ [Instr.build, .des, .gen, .compress, .decompress] → s'.node = s.node) ∧
    (i ∉ [Instr.ser, .pack, .unpack, .wrsize, .compress, .decompress] → s'.obuf = s.obuf) ∧
    (i ∉ [Instr.orst, .ser, .pack, .unpack, .wrsize, .compress, .decompress] → s'.olen = s.olen) ∧
    (i ∉ [Instr.rdsize, .compress, .decompress] → s'.nsize = s.nsize) ∧
    (i ∉ [Instr.rdsize, .des, .unpack, .compress, .decompress] → s'.ipos = s.ipos)

/-- An outcome with a field of its next state changed. -/
def mapNext (f : State → State) (o : Host.Outcome State Fault Refusal) : Host.Outcome State Fault Refusal :=
  match o with
  | .next s => .next (f s)
  | .fault r => .fault r
  | .refused r => .refused r

/-- R25: bytes of `IBUF` at or above `ILEN` influence no command. -/
def Obligations.BytesBeyondIlenAreNeverRead : Prop :=
  ∀ (i : Instr) (s : State) (m : Memory),
    (∀ a, a < s.ilen.toNat → State.ibufByte { s with ibuf := m } a = s.ibufByte a) →
    exec i { s with ibuf := m } = mapNext (fun s' => { s' with ibuf := m }) (exec i s)

/-- R73: the engine never reads `OBUF`: whatever its content `m` instead, a command has the same outcome but for `OBUF`
itself, and there every byte afterwards is either the same in both or untouched in both. -/
def Obligations.OutputBytesAreNeverRead : Prop :=
  ∀ (i : Instr) (s : State) (m : Memory),
    ∃ m', exec i { s with obuf := m } = mapNext (fun s' => { s' with obuf := m' }) (exec i s) ∧
      ∀ s', exec i s = .next s' → ∀ a,
        m'.read? a = s'.obuf.read? a ∨ (m'.read? a = m.read? a ∧ s'.obuf.read? a = s.obuf.read? a)

/-- R44: HIST does not depend on the earlier histogram, BUILD not on the earlier tree, GEN not on the earlier code table
or `visited` marks. -/
def Obligations.ProducersForgetTheirOldDestination : Prop :=
  ∀ s : State, s.ready →
    (∀ h, s.inputInRange = true → exec .hist { s with hist := h } = exec .hist s) ∧
    (∀ nd r n v, exec .build { s with node := nd, root := r, ncount := n, tvalid := v } = exec .build s) ∧
    (∀ (g : NodeIdx → Bool) (c : Table Code 8) (t : ITree), s.holdsTree t → t.isLeaf = false →
      (∀ i : NodeIdx, s.ncount.toNat ≤ i.toNat → g i = (s.node.get i).visited) →
      exec .gen { s with code := c, node := s.node.mapEntries (fun i n => { n with visited := g i }) } = exec .gen s)

/-! ### The host port -/

/-- R22 to R30, R62, R72: a read of each register returns it, zero above its width, and changes nothing. -/
def Obligations.RegisterReadsReturnTheRegisters : Prop :=
  ∀ (s : State) (rest : List PortOp) (r : Reg), s.busy = false → s.port = scriptRD r :: rest →
    step s = .next { s with port := rest, reply := .word (match r with
      | .cmd => 0
      | .status => BitVec.ofNat 32 (s.busy.toNat + 2 * s.done.toNat + 4 * s.err.toNat + 8 * s.tvalid.toNat
          + 256 * s.fcode.toNat)
      | .ctrl => BitVec.ofNat 32 s.ie.toNat
      | .ilen => s.ilen
      | .ipos => s.ipos
      | .olen => s.olen
      | .nsize => s.nsize
      | .root => BitVec.ofNat 32 s.root.toNat
      | .ncount => BitVec.ofNat 32 s.ncount.toNat) }

/-- R24 to R30, R47: a write reaches `CTRL` (bit 0 only), `ILEN`, `IPOS` and `NSIZE`; a write of a read-only register
changes nothing. -/
def Obligations.RegisterWritesReachOnlyWritableRegisters : Prop :=
  ∀ (s : State) (rest : List PortOp) (v : Word), s.busy = false →
    (s.port = scriptWR .ctrl v :: rest → step s = .next { s with port := rest, reply := .none, ie := v.getLsbD 0 }) ∧
    (s.port = scriptWR .ilen v :: rest → step s = .next { s with port := rest, reply := .none, ilen := v }) ∧
    (s.port = scriptWR .ipos v :: rest → step s = .next { s with port := rest, reply := .none, ipos := v }) ∧
    (s.port = scriptWR .nsize v :: rest → step s = .next { s with port := rest, reply := .none, nsize := v }) ∧
    (∀ r ∈ [Reg.status, .olen, .root, .ncount], s.port = scriptWR r v :: rest →
      step s = .next { s with port := rest, reply := .none })

/-- R63, R103, R104: the windows' words. Code bit `b_{32w+j}` is bit `31 − j` of CODEBITS word `w`; a NODE word is the
entry's fields while a tree is held and the entry is in use, and a fresh unspecified word otherwise. -/
def Obligations.WindowReadsShowTheMemories : Prop :=
  ∀ (s : State) (rest : List PortOp), s.busy = false →
    (∀ b : Byte, s.port = .read32 (BitVec.ofNat 32 (0x400 + 4 * b.toNat)) :: rest →
      step s = .next { s with port := rest, reply := .word (s.hist.get b) }) ∧
    (∀ b : Byte, s.port = .read32 (BitVec.ofNat 32 (0x800 + 4 * b.toNat)) :: rest →
      step s = .next { s with port := rest, reply := .word ((s.code.get b).len.setWidth 32) }) ∧
    (∀ (b : Byte) (w : Nat), w < 8 → s.port = .read32 (BitVec.ofNat 32 (0x4000 + 32 * b.toNat + 4 * w)) :: rest →
      ∃ v : Word, step s = .next { s with port := rest, reply := .word v } ∧
        ∀ j, j < 32 → v.getLsbD (31 - j) = (s.code.get b).bits.getMsbD (32 * w + j)) ∧
    (∀ (i : NodeIdx) (k : Nat), i ≠ NULL → k < 4 →
      s.port = .read32 (BitVec.ofNat 32 (0x2000 + 16 * i.toNat + 4 * k)) :: rest →
      (s.tvalid = true ∧ i.toNat < s.ncount.toNat →
        step s = .next { s with port := rest, reply := .word (BitVec.ofNat 32 (match k with
          | 0 => (s.node.get i).sym.toNat + 2 ^ 16 * (s.node.get i).visited.toNat
          | 1 => (s.node.get i).freq.toNat
          | 2 => (s.node.get i).left.toNat + 2 ^ 16 * (s.node.get i).right.toNat
          | _ => (s.node.get i).parent.toNat)) }) ∧
      (¬ (s.tvalid = true ∧ i.toNat < s.ncount.toNat) →
        step s = .next { s with
          port := rest, reply := .word (Config.freeWord s.draws), draws := s.draws + 1 }))

/-- R64, R65: the buffer windows. A write sets exactly one byte of `IBUF`; a read returns the byte; `OBUF` is readable
below `OLEN`, unspecified from `OLEN` to its capacity, and not writable. -/
def Obligations.BufferWindowsMoveSingleBytes : Prop :=
  ∀ (s : State) (rest : List PortOp) (i : Nat), s.busy = false → s.params.wf = true →
    (∀ b : Byte, i < s.params.ibufCap → s.port = scriptWB i b :: rest →
      ∃ s', step s = .next s' ∧ s' = { s with port := rest, reply := .none, ibuf := s'.ibuf } ∧
        ∀ a, s'.ibufByte a = if a = i then b else s.ibufByte a) ∧
    (i < s.params.ibufCap → s.port = .read8 (ibufAddr i) :: rest →
      step s = .next { s with port := rest, reply := .byte (s.ibufByte i) }) ∧
    (∀ b : Byte, i < s.olen.toNat → s.olen.toNat ≤ s.params.obufCap → s.obuf.read? i = some b →
      s.port = scriptRB i :: rest → step s = .next { s with port := rest, reply := .byte b }) ∧
    (s.olen.toNat ≤ i → i < s.params.obufCap → s.port = scriptRB i :: rest →
      step s = .next { s with port := rest, reply := .byte (Config.freeByte s.draws), draws := s.draws + 1 }) ∧
    (∀ b : Byte, i < s.params.obufCap → s.port = .write8 (obufAddr i) b :: rest →
      step s = .next { s with port := rest, reply := .none })

/-- R66: misaligned, unmapped and wrong-width accesses: a read returns 0, a write changes nothing. -/
def Obligations.BadAccessesReadZeroAndWriteNothing : Prop :=
  ∀ (s : State) (rest : List PortOp) (a : Word) (v : Word) (b : Byte), s.busy = false → s.params.wf = true →
    (a.toNat % 4 ≠ 0 ∨ (0x24 ≤ a.toNat ∧ a.toNat < 0x400) ∨ (0xC00 ≤ a.toNat ∧ a.toNat < 0x2000) ∨
        (0x3FF0 ≤ a.toNat ∧ a.toNat < 0x4000) ∨ 0x6000 ≤ a.toNat →
      (s.port = .read32 a :: rest → step s = .next { s with port := rest, reply := .word 0 }) ∧
      (s.port = .write32 a v :: rest → step s = .next { s with port := rest, reply := .none })) ∧
    (¬ (0x10000000 ≤ a.toNat ∧ a.toNat < 0x10000000 + s.params.ibufCap) ∧
        ¬ (0x20000000 ≤ a.toNat ∧ a.toNat < 0x20000000 + s.params.obufCap) →
      (s.port = .read8 a :: rest → step s = .next { s with port := rest, reply := .byte 0 }) ∧
      (s.port = .write8 a b :: rest → step s = .next { s with port := rest, reply := .none }))

/-- R77: while `BUSY` is 1 only reads of `STATUS` and `CTRL` and writes of `CTRL` work; every other write is ignored and
every other read returns a fresh unspecified value. -/
def Obligations.BusyPortIsClosed : Prop :=
  ∀ (s : State) (rest : List PortOp), s.busy = true →
    (s.port = scriptRD .status :: rest → step s = .next { s with port := rest, reply := .word s.statusWord }) ∧
    (s.port = scriptRD .ctrl :: rest → step s = .next { s with port := rest, reply := .word s.ctrlWord }) ∧
    (∀ v : Word, s.port = scriptWR .ctrl v :: rest →
      step s = .next { s with port := rest, reply := .none, ie := v.getLsbD 0 }) ∧
    (∀ a : Word, a ≠ regOffset .status → a ≠ regOffset .ctrl → s.port = .read32 a :: rest →
      step s = .next { s with port := rest, reply := .word (Config.freeWord s.draws), draws := s.draws + 1 }) ∧
    (∀ a : Word, s.port = .read8 a :: rest →
      step s = .next { s with port := rest, reply := .byte (Config.freeByte s.draws), draws := s.draws + 1 }) ∧
    (∀ a v : Word, a ≠ regOffset .ctrl → s.port = .write32 a v :: rest →
      step s = .next { s with port := rest, reply := .none }) ∧
    (∀ (a : Word) (b : Byte), s.port = .write8 a b :: rest → step s = .next { s with port := rest, reply := .none })

/-- R47, R72: a read changes nothing but the port's own answer; a write other than of `CMD` changes nothing but the
location written: a 32-bit write at the offset of `CTRL`, `ILEN`, `IPOS` or `NSIZE` that register, at every other offset (the
read-only registers and the HIST, CODELEN, NODE and CODEBITS windows among them) nothing; an 8-bit write in the IBUF
window that byte, at every other address nothing. -/
def Obligations.PortAccessesHaveNoOtherEffect : Prop :=
  ∀ (s : State) (rest : List PortOp),
    (∀ a : Word, s.port = .read32 a :: rest ∨ s.port = .read8 a :: rest →
      ∃ s', step s = .next s' ∧ s' = { s with port := rest, reply := s'.reply, draws := s'.draws }) ∧
    (∀ a v : Word, s.port = .write32 a v :: rest →
      (a = 0x00000008 → ∃ x, step s = .next { s with port := rest, reply := .none, ie := x }) ∧
      (a = 0x0000000C → ∃ x, step s = .next { s with port := rest, reply := .none, ilen := x }) ∧
      (a = 0x00000010 → ∃ x, step s = .next { s with port := rest, reply := .none, ipos := x }) ∧
      (a = 0x00000018 → ∃ x, step s = .next { s with port := rest, reply := .none, nsize := x }) ∧
      (a ∉ [0x00000000#32, 0x00000008, 0x0000000C, 0x00000010, 0x00000018] →
        step s = .next { s with port := rest, reply := .none })) ∧
    (∀ (a : Word) (b : Byte), s.port = .write8 a b :: rest →
      (0x10000000 ≤ a.toNat ∧ a.toNat < 0x10000000 + s.params.ibufCap →
        ∃ s', step s = .next s' ∧ s' = { s with port := rest, reply := .none, ibuf := s'.ibuf } ∧
          ∀ k, a.toNat ≠ 0x10000000 + k → s'.ibuf.read? k = s.ibuf.read? k ∧ s'.ibufByte k = s.ibufByte k) ∧
      (¬ (0x10000000 ≤ a.toNat ∧ a.toNat < 0x10000000 + s.params.ibufCap) →
        step s = .next { s with port := rest, reply := .none }))

/-- R107: `LOAD` of bytes that fit leaves them in `IBUF` from index 0, `ILEN` at their number and `IPOS` at 0, other bytes
and every other register as they were. -/
def Obligations.LoadFillsTheInput : Prop :=
  ∀ (s : State) (bs : List Byte) (rest : List PortOp), s.busy = false → s.params.wf = true →
    bs.length ≤ s.params.ibufCap → s.port = scriptLOAD bs ++ rest →
    ∃ s', Host.Core.run Sys2Proof.core (scriptLOAD bs).length s = .next s' ∧
      s' = { s with port := rest, reply := .none, ilen := BitVec.ofNat 32 bs.length, ipos := 0, ibuf := s'.ibuf } ∧
      s'.payload = bs ∧ ∀ a, bs.length ≤ a → s'.ibufByte a = s.ibufByte a

/-- R48: `irq` is 1 exactly while `CTRL.IE` is 1 and `DONE` or `ERR` is 1. -/
def Obligations.IrqIsIeAndOutcome : Prop :=
  ∀ s : State, s.irq = true ↔ s.ie = true ∧ (s.done = true ∨ s.err = true)

/-! ### Reset and the invariant -/

/-- R46: the values the spec gives at reset. -/
def Obligations.ResetLeavesTheSpecsValues : Prop :=
  State.reset.statusWord = 0 ∧ State.reset.ctrlWord = 0 ∧ State.reset.ilen = 0 ∧ State.reset.ipos = 0 ∧
  State.reset.olen = 0 ∧ State.reset.nsize = 0 ∧ State.reset.root = 0x1FF ∧ State.reset.ncount = 0 ∧
  (∀ b, State.reset.hist.get b = 0) ∧
  (∀ b, (State.reset.code.get b).len = 0 ∧ (State.reset.code.get b).bits = 0) ∧ State.reset.irq = false

/-- R290, R291: the reset input gives the reset state from every state, `BUSY` included: every register, the histogram
and the code table at their reset values; the capacities stay. -/
def Obligations.ResetInputGivesTheResetState : Prop :=
  ∀ (s : State) (rest : List PortOp), s.port = .rst :: rest →
    ∃ s', step s = .next s' ∧ s'.params = s.params ∧ s'.port = rest ∧
      s'.statusWord = 0 ∧ s'.ctrlWord = 0 ∧ s'.ilen = 0 ∧ s'.ipos = 0 ∧ s'.olen = 0 ∧ s'.nsize = 0 ∧
      s'.root = 0x1FF ∧ s'.ncount = 0 ∧ s'.hist = State.reset.hist ∧ s'.code = State.reset.code ∧ s'.irq = false

/-- The invariant holds at reset. -/
def Obligations.InvariantHoldsAtReset : Prop := Inv State.reset

/-- R23, R27, R34, R35, R41, R122, R251: every step from every state that meets the invariant leaves it true: the outcome
flags exclude each other, `FCODE` is a code of the table, `TVALID` marks a complete full tree, `OLEN` stays within the
capacity, the counts do not overflow. -/
def Obligations.EveryStepKeepsTheInvariant : Prop := ∀ s s' : State, Inv s → step s = .next s' → Inv s'

/-- R231, R297: from every state that meets the invariant a step answers a next state: every command terminates and no
step stops the machine. -/
def Obligations.NoStepStopsTheMachine : Prop := ∀ s : State, Inv s → ∃ s', step s = .next s'
end

