-- ==== Sys2Proof/Laws/State.lean ====
section
/-! SUPPORT. One lemma per field per update of `State`: what each named update leaves in each field, and the derived
reads (`ibufByte`, `inputInRange`, `payload`, `input`) of the updates that do not touch what they read. -/

namespace Sys2Proof.Machine

/-! ### flagsAccepted: the flags at acceptance (R230) -/

@[simp] theorem State.flagsAccepted_params (s : State) : s.flagsAccepted.params = s.params := rfl
@[simp] theorem State.flagsAccepted_busy (s : State) : s.flagsAccepted.busy = true := rfl
@[simp] theorem State.flagsAccepted_done (s : State) : s.flagsAccepted.done = false := rfl
@[simp] theorem State.flagsAccepted_err (s : State) : s.flagsAccepted.err = s.err := rfl
@[simp] theorem State.flagsAccepted_tvalid (s : State) : s.flagsAccepted.tvalid = s.tvalid := rfl
@[simp] theorem State.flagsAccepted_fcode (s : State) : s.flagsAccepted.fcode = s.fcode := rfl
@[simp] theorem State.flagsAccepted_ie (s : State) : s.flagsAccepted.ie = s.ie := rfl
@[simp] theorem State.flagsAccepted_ilen (s : State) : s.flagsAccepted.ilen = s.ilen := rfl
@[simp] theorem State.flagsAccepted_ipos (s : State) : s.flagsAccepted.ipos = s.ipos := rfl
@[simp] theorem State.flagsAccepted_olen (s : State) : s.flagsAccepted.olen = s.olen := rfl
@[simp] theorem State.flagsAccepted_nsize (s : State) : s.flagsAccepted.nsize = s.nsize := rfl
@[simp] theorem State.flagsAccepted_root (s : State) : s.flagsAccepted.root = s.root := rfl
@[simp] theorem State.flagsAccepted_ncount (s : State) : s.flagsAccepted.ncount = s.ncount := rfl
@[simp] theorem State.flagsAccepted_hist (s : State) : s.flagsAccepted.hist = s.hist := rfl
@[simp] theorem State.flagsAccepted_node (s : State) : s.flagsAccepted.node = s.node := rfl
@[simp] theorem State.flagsAccepted_code (s : State) : s.flagsAccepted.code = s.code := rfl
@[simp] theorem State.flagsAccepted_ibuf (s : State) : s.flagsAccepted.ibuf = s.ibuf := rfl
@[simp] theorem State.flagsAccepted_obuf (s : State) : s.flagsAccepted.obuf = s.obuf := rfl
@[simp] theorem State.flagsAccepted_port (s : State) : s.flagsAccepted.port = s.port := rfl
@[simp] theorem State.flagsAccepted_reply (s : State) : s.flagsAccepted.reply = s.reply := rfl
@[simp] theorem State.flagsAccepted_draws (s : State) : s.flagsAccepted.draws = s.draws := rfl
@[simp] theorem State.flagsAccepted_epoch (s : State) : s.flagsAccepted.epoch = s.epoch := rfl
@[simp] theorem State.flagsAccepted_ibufByte (s : State) (k : Nat) : s.flagsAccepted.ibufByte k = s.ibufByte k := rfl
@[simp] theorem State.flagsAccepted_inputInRange (s : State) : s.flagsAccepted.inputInRange = s.inputInRange := rfl
@[simp] theorem State.flagsAccepted_payload (s : State) : s.flagsAccepted.payload = s.payload := rfl
@[simp] theorem State.flagsAccepted_input (s : State) : s.flagsAccepted.input = s.input := rfl

/-! ### flagsCompleted: the flags at completion (R231) -/

@[simp] theorem State.flagsCompleted_params (s : State) : s.flagsCompleted.params = s.params := rfl
@[simp] theorem State.flagsCompleted_busy (s : State) : s.flagsCompleted.busy = false := rfl
@[simp] theorem State.flagsCompleted_done (s : State) : s.flagsCompleted.done = true := rfl
@[simp] theorem State.flagsCompleted_err (s : State) : s.flagsCompleted.err = s.err := rfl
@[simp] theorem State.flagsCompleted_tvalid (s : State) : s.flagsCompleted.tvalid = s.tvalid := rfl
@[simp] theorem State.flagsCompleted_fcode (s : State) : s.flagsCompleted.fcode = s.fcode := rfl
@[simp] theorem State.flagsCompleted_ie (s : State) : s.flagsCompleted.ie = s.ie := rfl
@[simp] theorem State.flagsCompleted_ilen (s : State) : s.flagsCompleted.ilen = s.ilen := rfl
@[simp] theorem State.flagsCompleted_ipos (s : State) : s.flagsCompleted.ipos = s.ipos := rfl
@[simp] theorem State.flagsCompleted_olen (s : State) : s.flagsCompleted.olen = s.olen := rfl
@[simp] theorem State.flagsCompleted_nsize (s : State) : s.flagsCompleted.nsize = s.nsize := rfl
@[simp] theorem State.flagsCompleted_root (s : State) : s.flagsCompleted.root = s.root := rfl
@[simp] theorem State.flagsCompleted_ncount (s : State) : s.flagsCompleted.ncount = s.ncount := rfl
@[simp] theorem State.flagsCompleted_hist (s : State) : s.flagsCompleted.hist = s.hist := rfl
@[simp] theorem State.flagsCompleted_node (s : State) : s.flagsCompleted.node = s.node := rfl
@[simp] theorem State.flagsCompleted_code (s : State) : s.flagsCompleted.code = s.code := rfl
@[simp] theorem State.flagsCompleted_ibuf (s : State) : s.flagsCompleted.ibuf = s.ibuf := rfl
@[simp] theorem State.flagsCompleted_obuf (s : State) : s.flagsCompleted.obuf = s.obuf := rfl
@[simp] theorem State.flagsCompleted_port (s : State) : s.flagsCompleted.port = s.port := rfl
@[simp] theorem State.flagsCompleted_reply (s : State) : s.flagsCompleted.reply = s.reply := rfl
@[simp] theorem State.flagsCompleted_draws (s : State) : s.flagsCompleted.draws = s.draws := rfl
@[simp] theorem State.flagsCompleted_epoch (s : State) : s.flagsCompleted.epoch = s.epoch := rfl
@[simp] theorem State.flagsCompleted_ibufByte (s : State) (k : Nat) :
    s.flagsCompleted.ibufByte k = s.ibufByte k := rfl
@[simp] theorem State.flagsCompleted_inputInRange (s : State) : s.flagsCompleted.inputInRange = s.inputInRange := rfl
@[simp] theorem State.flagsCompleted_payload (s : State) : s.flagsCompleted.payload = s.payload := rfl
@[simp] theorem State.flagsCompleted_input (s : State) : s.flagsCompleted.input = s.input := rfl

/-! ### flagsFaulted: the flags after a fault (R252) -/

@[simp] theorem State.flagsFaulted_params (f : FaultCode) (s : State) :
    (State.flagsFaulted f s).params = s.params := rfl
@[simp] theorem State.flagsFaulted_busy (f : FaultCode) (s : State) : (State.flagsFaulted f s).busy = false := rfl
@[simp] theorem State.flagsFaulted_done (f : FaultCode) (s : State) : (State.flagsFaulted f s).done = false := rfl
@[simp] theorem State.flagsFaulted_err (f : FaultCode) (s : State) : (State.flagsFaulted f s).err = true := rfl
@[simp] theorem State.flagsFaulted_tvalid (f : FaultCode) (s : State) :
    (State.flagsFaulted f s).tvalid = s.tvalid := rfl
@[simp] theorem State.flagsFaulted_fcode (f : FaultCode) (s : State) : (State.flagsFaulted f s).fcode = f.code := rfl
@[simp] theorem State.flagsFaulted_ie (f : FaultCode) (s : State) : (State.flagsFaulted f s).ie = s.ie := rfl
@[simp] theorem State.flagsFaulted_ilen (f : FaultCode) (s : State) : (State.flagsFaulted f s).ilen = s.ilen := rfl
@[simp] theorem State.flagsFaulted_ipos (f : FaultCode) (s : State) : (State.flagsFaulted f s).ipos = s.ipos := rfl
@[simp] theorem State.flagsFaulted_olen (f : FaultCode) (s : State) : (State.flagsFaulted f s).olen = s.olen := rfl
@[simp] theorem State.flagsFaulted_nsize (f : FaultCode) (s : State) : (State.flagsFaulted f s).nsize = s.nsize := rfl
@[simp] theorem State.flagsFaulted_root (f : FaultCode) (s : State) : (State.flagsFaulted f s).root = s.root := rfl
@[simp] theorem State.flagsFaulted_ncount (f : FaultCode) (s : State) :
    (State.flagsFaulted f s).ncount = s.ncount := rfl
@[simp] theorem State.flagsFaulted_hist (f : FaultCode) (s : State) : (State.flagsFaulted f s).hist = s.hist := rfl
@[simp] theorem State.flagsFaulted_node (f : FaultCode) (s : State) : (State.flagsFaulted f s).node = s.node := rfl
@[simp] theorem State.flagsFaulted_code (f : FaultCode) (s : State) : (State.flagsFaulted f s).code = s.code := rfl
@[simp] theorem State.flagsFaulted_ibuf (f : FaultCode) (s : State) : (State.flagsFaulted f s).ibuf = s.ibuf := rfl
@[simp] theorem State.flagsFaulted_obuf (f : FaultCode) (s : State) : (State.flagsFaulted f s).obuf = s.obuf := rfl
@[simp] theorem State.flagsFaulted_port (f : FaultCode) (s : State) : (State.flagsFaulted f s).port = s.port := rfl
@[simp] theorem State.flagsFaulted_reply (f : FaultCode) (s : State) : (State.flagsFaulted f s).reply = s.reply := rfl
@[simp] theorem State.flagsFaulted_draws (f : FaultCode) (s : State) : (State.flagsFaulted f s).draws = s.draws := rfl
@[simp] theorem State.flagsFaulted_epoch (f : FaultCode) (s : State) : (State.flagsFaulted f s).epoch = s.epoch := rfl
@[simp] theorem State.flagsFaulted_ibufByte (f : FaultCode) (s : State) (k : Nat) :
    (State.flagsFaulted f s).ibufByte k = s.ibufByte k := rfl
@[simp] theorem State.flagsFaulted_inputInRange (f : FaultCode) (s : State) :
    (State.flagsFaulted f s).inputInRange = s.inputInRange := rfl
@[simp] theorem State.flagsFaulted_payload (f : FaultCode) (s : State) :
    (State.flagsFaulted f s).payload = s.payload := rfl
@[simp] theorem State.flagsFaulted_input (f : FaultCode) (s : State) : (State.flagsFaulted f s).input = s.input := rfl

/-! ### flagsAcknowledged: the flags after ACK (R233) -/

@[simp] theorem State.flagsAcknowledged_params (s : State) : s.flagsAcknowledged.params = s.params := rfl
@[simp] theorem State.flagsAcknowledged_busy (s : State) : s.flagsAcknowledged.busy = false := rfl
@[simp] theorem State.flagsAcknowledged_done (s : State) : s.flagsAcknowledged.done = false := rfl
@[simp] theorem State.flagsAcknowledged_err (s : State) : s.flagsAcknowledged.err = false := rfl
@[simp] theorem State.flagsAcknowledged_tvalid (s : State) : s.flagsAcknowledged.tvalid = s.tvalid := rfl
@[simp] theorem State.flagsAcknowledged_fcode (s : State) : s.flagsAcknowledged.fcode = 0 := rfl
@[simp] theorem State.flagsAcknowledged_ie (s : State) : s.flagsAcknowledged.ie = s.ie := rfl
@[simp] theorem State.flagsAcknowledged_ilen (s : State) : s.flagsAcknowledged.ilen = s.ilen := rfl
@[simp] theorem State.flagsAcknowledged_ipos (s : State) : s.flagsAcknowledged.ipos = s.ipos := rfl
@[simp] theorem State.flagsAcknowledged_olen (s : State) : s.flagsAcknowledged.olen = s.olen := rfl
@[simp] theorem State.flagsAcknowledged_nsize (s : State) : s.flagsAcknowledged.nsize = s.nsize := rfl
@[simp] theorem State.flagsAcknowledged_root (s : State) : s.flagsAcknowledged.root = s.root := rfl
@[simp] theorem State.flagsAcknowledged_ncount (s : State) : s.flagsAcknowledged.ncount = s.ncount := rfl
@[simp] theorem State.flagsAcknowledged_hist (s : State) : s.flagsAcknowledged.hist = s.hist := rfl
@[simp] theorem State.flagsAcknowledged_node (s : State) : s.flagsAcknowledged.node = s.node := rfl
@[simp] theorem State.flagsAcknowledged_code (s : State) : s.flagsAcknowledged.code = s.code := rfl
@[simp] theorem State.flagsAcknowledged_ibuf (s : State) : s.flagsAcknowledged.ibuf = s.ibuf := rfl
@[simp] theorem State.flagsAcknowledged_obuf (s : State) : s.flagsAcknowledged.obuf = s.obuf := rfl
@[simp] theorem State.flagsAcknowledged_port (s : State) : s.flagsAcknowledged.port = s.port := rfl
@[simp] theorem State.flagsAcknowledged_reply (s : State) : s.flagsAcknowledged.reply = s.reply := rfl
@[simp] theorem State.flagsAcknowledged_draws (s : State) : s.flagsAcknowledged.draws = s.draws := rfl
@[simp] theorem State.flagsAcknowledged_epoch (s : State) : s.flagsAcknowledged.epoch = s.epoch := rfl
@[simp] theorem State.flagsAcknowledged_ibufByte (s : State) (k : Nat) :
    s.flagsAcknowledged.ibufByte k = s.ibufByte k := rfl
@[simp] theorem State.flagsAcknowledged_inputInRange (s : State) :
    s.flagsAcknowledged.inputInRange = s.inputInRange := rfl
@[simp] theorem State.flagsAcknowledged_payload (s : State) : s.flagsAcknowledged.payload = s.payload := rfl
@[simp] theorem State.flagsAcknowledged_input (s : State) : s.flagsAcknowledged.input = s.input := rfl

/-! ### takeFault: taking a fault (R252 to R254) -/

@[simp] theorem State.takeFault_params (s0 : State) (f : FaultCode) (s : State) :
    (takeFault s0 f s).params = s.params := rfl
@[simp] theorem State.takeFault_busy (s0 : State) (f : FaultCode) (s : State) : (takeFault s0 f s).busy = false := rfl
@[simp] theorem State.takeFault_done (s0 : State) (f : FaultCode) (s : State) : (takeFault s0 f s).done = false := rfl
@[simp] theorem State.takeFault_err (s0 : State) (f : FaultCode) (s : State) : (takeFault s0 f s).err = true := rfl
@[simp] theorem State.takeFault_tvalid (s0 : State) (f : FaultCode) (s : State) :
    (takeFault s0 f s).tvalid = s.tvalid := rfl
@[simp] theorem State.takeFault_fcode (s0 : State) (f : FaultCode) (s : State) :
    (takeFault s0 f s).fcode = f.code := rfl
@[simp] theorem State.takeFault_ie (s0 : State) (f : FaultCode) (s : State) : (takeFault s0 f s).ie = s.ie := rfl
@[simp] theorem State.takeFault_ilen (s0 : State) (f : FaultCode) (s : State) :
    (takeFault s0 f s).ilen = s0.ilen := rfl
@[simp] theorem State.takeFault_ipos (s0 : State) (f : FaultCode) (s : State) :
    (takeFault s0 f s).ipos = s0.ipos := rfl
@[simp] theorem State.takeFault_olen (s0 : State) (f : FaultCode) (s : State) :
    (takeFault s0 f s).olen = s0.olen := rfl
@[simp] theorem State.takeFault_nsize (s0 : State) (f : FaultCode) (s : State) :
    (takeFault s0 f s).nsize = s0.nsize := rfl
@[simp] theorem State.takeFault_root (s0 : State) (f : FaultCode) (s : State) :
    (takeFault s0 f s).root = s.root := rfl
@[simp] theorem State.takeFault_ncount (s0 : State) (f : FaultCode) (s : State) :
    (takeFault s0 f s).ncount = s.ncount := rfl
@[simp] theorem State.takeFault_hist (s0 : State) (f : FaultCode) (s : State) :
    (takeFault s0 f s).hist = s.hist := rfl
@[simp] theorem State.takeFault_node (s0 : State) (f : FaultCode) (s : State) :
    (takeFault s0 f s).node = s.node := rfl
@[simp] theorem State.takeFault_code (s0 : State) (f : FaultCode) (s : State) :
    (takeFault s0 f s).code = s.code := rfl
@[simp] theorem State.takeFault_ibuf (s0 : State) (f : FaultCode) (s : State) :
    (takeFault s0 f s).ibuf = s.ibuf := rfl
@[simp] theorem State.takeFault_obuf (s0 : State) (f : FaultCode) (s : State) :
    (takeFault s0 f s).obuf = s0.obuf := rfl
@[simp] theorem State.takeFault_port (s0 : State) (f : FaultCode) (s : State) :
    (takeFault s0 f s).port = s.port := rfl
@[simp] theorem State.takeFault_reply (s0 : State) (f : FaultCode) (s : State) :
    (takeFault s0 f s).reply = s.reply := rfl
@[simp] theorem State.takeFault_draws (s0 : State) (f : FaultCode) (s : State) :
    (takeFault s0 f s).draws = s.draws := rfl
@[simp] theorem State.takeFault_epoch (s0 : State) (f : FaultCode) (s : State) :
    (takeFault s0 f s).epoch = s.epoch := rfl
@[simp] theorem State.takeFault_ibufByte (s0 : State) (f : FaultCode) (s : State) (k : Nat) :
    (takeFault s0 f s).ibufByte k = s.ibufByte k := rfl

/-! ### faulted: a fault that leaves everything but `STATUS` -/

@[simp] theorem State.faulted_params (f : FaultCode) (s : State) : (s.faulted f).params = s.params := rfl
@[simp] theorem State.faulted_busy (f : FaultCode) (s : State) : (s.faulted f).busy = s.busy := rfl
@[simp] theorem State.faulted_done (f : FaultCode) (s : State) : (s.faulted f).done = false := rfl
@[simp] theorem State.faulted_err (f : FaultCode) (s : State) : (s.faulted f).err = true := rfl
@[simp] theorem State.faulted_tvalid (f : FaultCode) (s : State) : (s.faulted f).tvalid = s.tvalid := rfl
@[simp] theorem State.faulted_fcode (f : FaultCode) (s : State) : (s.faulted f).fcode = f.code := rfl
@[simp] theorem State.faulted_ie (f : FaultCode) (s : State) : (s.faulted f).ie = s.ie := rfl
@[simp] theorem State.faulted_ilen (f : FaultCode) (s : State) : (s.faulted f).ilen = s.ilen := rfl
@[simp] theorem State.faulted_ipos (f : FaultCode) (s : State) : (s.faulted f).ipos = s.ipos := rfl
@[simp] theorem State.faulted_olen (f : FaultCode) (s : State) : (s.faulted f).olen = s.olen := rfl
@[simp] theorem State.faulted_nsize (f : FaultCode) (s : State) : (s.faulted f).nsize = s.nsize := rfl
@[simp] theorem State.faulted_root (f : FaultCode) (s : State) : (s.faulted f).root = s.root := rfl
@[simp] theorem State.faulted_ncount (f : FaultCode) (s : State) : (s.faulted f).ncount = s.ncount := rfl
@[simp] theorem State.faulted_hist (f : FaultCode) (s : State) : (s.faulted f).hist = s.hist := rfl
@[simp] theorem State.faulted_node (f : FaultCode) (s : State) : (s.faulted f).node = s.node := rfl
@[simp] theorem State.faulted_code (f : FaultCode) (s : State) : (s.faulted f).code = s.code := rfl
@[simp] theorem State.faulted_ibuf (f : FaultCode) (s : State) : (s.faulted f).ibuf = s.ibuf := rfl
@[simp] theorem State.faulted_obuf (f : FaultCode) (s : State) : (s.faulted f).obuf = s.obuf := rfl
@[simp] theorem State.faulted_port (f : FaultCode) (s : State) : (s.faulted f).port = s.port := rfl
@[simp] theorem State.faulted_reply (f : FaultCode) (s : State) : (s.faulted f).reply = s.reply := rfl
@[simp] theorem State.faulted_draws (f : FaultCode) (s : State) : (s.faulted f).draws = s.draws := rfl
@[simp] theorem State.faulted_epoch (f : FaultCode) (s : State) : (s.faulted f).epoch = s.epoch := rfl
@[simp] theorem State.faulted_ibufByte (f : FaultCode) (s : State) (k : Nat) :
    (s.faulted f).ibufByte k = s.ibufByte k := rfl
@[simp] theorem State.faulted_inputInRange (f : FaultCode) (s : State) :
    (s.faulted f).inputInRange = s.inputInRange := rfl
@[simp] theorem State.faulted_payload (f : FaultCode) (s : State) : (s.faulted f).payload = s.payload := rfl
@[simp] theorem State.faulted_input (f : FaultCode) (s : State) : (s.faulted f).input = s.input := rfl

/-! ### resetOlen: the output stream emptied (R234) -/

@[simp] theorem State.resetOlen_params (s : State) : s.resetOlen.params = s.params := rfl
@[simp] theorem State.resetOlen_busy (s : State) : s.resetOlen.busy = s.busy := rfl
@[simp] theorem State.resetOlen_done (s : State) : s.resetOlen.done = s.done := rfl
@[simp] theorem State.resetOlen_err (s : State) : s.resetOlen.err = s.err := rfl
@[simp] theorem State.resetOlen_tvalid (s : State) : s.resetOlen.tvalid = s.tvalid := rfl
@[simp] theorem State.resetOlen_fcode (s : State) : s.resetOlen.fcode = s.fcode := rfl
@[simp] theorem State.resetOlen_ie (s : State) : s.resetOlen.ie = s.ie := rfl
@[simp] theorem State.resetOlen_ilen (s : State) : s.resetOlen.ilen = s.ilen := rfl
@[simp] theorem State.resetOlen_ipos (s : State) : s.resetOlen.ipos = s.ipos := rfl
@[simp] theorem State.resetOlen_olen (s : State) : s.resetOlen.olen = 0 := rfl
@[simp] theorem State.resetOlen_nsize (s : State) : s.resetOlen.nsize = s.nsize := rfl
@[simp] theorem State.resetOlen_root (s : State) : s.resetOlen.root = s.root := rfl
@[simp] theorem State.resetOlen_ncount (s : State) : s.resetOlen.ncount = s.ncount := rfl
@[simp] theorem State.resetOlen_hist (s : State) : s.resetOlen.hist = s.hist := rfl
@[simp] theorem State.resetOlen_node (s : State) : s.resetOlen.node = s.node := rfl
@[simp] theorem State.resetOlen_code (s : State) : s.resetOlen.code = s.code := rfl
@[simp] theorem State.resetOlen_ibuf (s : State) : s.resetOlen.ibuf = s.ibuf := rfl
@[simp] theorem State.resetOlen_obuf (s : State) : s.resetOlen.obuf = s.obuf := rfl
@[simp] theorem State.resetOlen_port (s : State) : s.resetOlen.port = s.port := rfl
@[simp] theorem State.resetOlen_reply (s : State) : s.resetOlen.reply = s.reply := rfl
@[simp] theorem State.resetOlen_draws (s : State) : s.resetOlen.draws = s.draws := rfl
@[simp] theorem State.resetOlen_epoch (s : State) : s.resetOlen.epoch = s.epoch := rfl
@[simp] theorem State.resetOlen_ibufByte (s : State) (k : Nat) : s.resetOlen.ibufByte k = s.ibufByte k := rfl
@[simp] theorem State.resetOlen_inputInRange (s : State) : s.resetOlen.inputInRange = s.inputInRange := rfl
@[simp] theorem State.resetOlen_payload (s : State) : s.resetOlen.payload = s.payload := rfl
@[simp] theorem State.resetOlen_input (s : State) : s.resetOlen.input = s.input := rfl

/-! ### allocNode: a new arena entry (R175) -/

@[simp] theorem State.allocNode_params (p : NodeIdx) (s : State) : (allocNode p s).params = s.params := rfl
@[simp] theorem State.allocNode_busy (p : NodeIdx) (s : State) : (allocNode p s).busy = s.busy := rfl
@[simp] theorem State.allocNode_done (p : NodeIdx) (s : State) : (allocNode p s).done = s.done := rfl
@[simp] theorem State.allocNode_err (p : NodeIdx) (s : State) : (allocNode p s).err = s.err := rfl
@[simp] theorem State.allocNode_tvalid (p : NodeIdx) (s : State) : (allocNode p s).tvalid = s.tvalid := rfl
@[simp] theorem State.allocNode_fcode (p : NodeIdx) (s : State) : (allocNode p s).fcode = s.fcode := rfl
@[simp] theorem State.allocNode_ie (p : NodeIdx) (s : State) : (allocNode p s).ie = s.ie := rfl
@[simp] theorem State.allocNode_ilen (p : NodeIdx) (s : State) : (allocNode p s).ilen = s.ilen := rfl
@[simp] theorem State.allocNode_ipos (p : NodeIdx) (s : State) : (allocNode p s).ipos = s.ipos := rfl
@[simp] theorem State.allocNode_olen (p : NodeIdx) (s : State) : (allocNode p s).olen = s.olen := rfl
@[simp] theorem State.allocNode_nsize (p : NodeIdx) (s : State) : (allocNode p s).nsize = s.nsize := rfl
@[simp] theorem State.allocNode_root (p : NodeIdx) (s : State) : (allocNode p s).root = s.root := rfl
@[simp] theorem State.allocNode_ncount (p : NodeIdx) (s : State) : (allocNode p s).ncount = s.ncount + 1 := rfl
@[simp] theorem State.allocNode_hist (p : NodeIdx) (s : State) : (allocNode p s).hist = s.hist := rfl
@[simp] theorem State.allocNode_node (p : NodeIdx) (s : State) :
    (allocNode p s).node = nodeSet s.node (s.ncount.setWidth 9)
      { sym := NOT_A_LEAF, freq := 0, left := NULL, right := NULL, parent := p, visited := false } := rfl
@[simp] theorem State.allocNode_code (p : NodeIdx) (s : State) : (allocNode p s).code = s.code := rfl
@[simp] theorem State.allocNode_ibuf (p : NodeIdx) (s : State) : (allocNode p s).ibuf = s.ibuf := rfl
@[simp] theorem State.allocNode_obuf (p : NodeIdx) (s : State) : (allocNode p s).obuf = s.obuf := rfl
@[simp] theorem State.allocNode_port (p : NodeIdx) (s : State) : (allocNode p s).port = s.port := rfl
@[simp] theorem State.allocNode_reply (p : NodeIdx) (s : State) : (allocNode p s).reply = s.reply := rfl
@[simp] theorem State.allocNode_draws (p : NodeIdx) (s : State) : (allocNode p s).draws = s.draws := rfl
@[simp] theorem State.allocNode_epoch (p : NodeIdx) (s : State) : (allocNode p s).epoch = s.epoch := rfl
@[simp] theorem State.allocNode_ibufByte (p : NodeIdx) (s : State) (k : Nat) :
    (allocNode p s).ibufByte k = s.ibufByte k := rfl
@[simp] theorem State.allocNode_inputInRange (p : NodeIdx) (s : State) :
    (allocNode p s).inputInRange = s.inputInRange := rfl
@[simp] theorem State.allocNode_payload (p : NodeIdx) (s : State) : (allocNode p s).payload = s.payload := rfl
@[simp] theorem State.allocNode_input (p : NodeIdx) (s : State) : (allocNode p s).input = s.input := rfl

/-! ### updateNode: one arena entry changed -/

@[simp] theorem State.updateNode_params (i : NodeIdx) (f : Node → Node) (s : State) :
    (s.updateNode i f).params = s.params := rfl
@[simp] theorem State.updateNode_busy (i : NodeIdx) (f : Node → Node) (s : State) :
    (s.updateNode i f).busy = s.busy := rfl
@[simp] theorem State.updateNode_done (i : NodeIdx) (f : Node → Node) (s : State) :
    (s.updateNode i f).done = s.done := rfl
@[simp] theorem State.updateNode_err (i : NodeIdx) (f : Node → Node) (s : State) :
    (s.updateNode i f).err = s.err := rfl
@[simp] theorem State.updateNode_tvalid (i : NodeIdx) (f : Node → Node) (s : State) :
    (s.updateNode i f).tvalid = s.tvalid := rfl
@[simp] theorem State.updateNode_fcode (i : NodeIdx) (f : Node → Node) (s : State) :
    (s.updateNode i f).fcode = s.fcode := rfl
@[simp] theorem State.updateNode_ie (i : NodeIdx) (f : Node → Node) (s : State) : (s.updateNode i f).ie = s.ie := rfl
@[simp] theorem State.updateNode_ilen (i : NodeIdx) (f : Node → Node) (s : State) :
    (s.updateNode i f).ilen = s.ilen := rfl
@[simp] theorem State.updateNode_ipos (i : NodeIdx) (f : Node → Node) (s : State) :
    (s.updateNode i f).ipos = s.ipos := rfl
@[simp] theorem State.updateNode_olen (i : NodeIdx) (f : Node → Node) (s : State) :
    (s.updateNode i f).olen = s.olen := rfl
@[simp] theorem State.updateNode_nsize (i : NodeIdx) (f : Node → Node) (s : State) :
    (s.updateNode i f).nsize = s.nsize := rfl
@[simp] theorem State.updateNode_root (i : NodeIdx) (f : Node → Node) (s : State) :
    (s.updateNode i f).root = s.root := rfl
@[simp] theorem State.updateNode_ncount (i : NodeIdx) (f : Node → Node) (s : State) :
    (s.updateNode i f).ncount = s.ncount := rfl
@[simp] theorem State.updateNode_hist (i : NodeIdx) (f : Node → Node) (s : State) :
    (s.updateNode i f).hist = s.hist := rfl
@[simp] theorem State.updateNode_node (i : NodeIdx) (f : Node → Node) (s : State) :
    (s.updateNode i f).node = nodeUpdate s.node i f := rfl
@[simp] theorem State.updateNode_code (i : NodeIdx) (f : Node → Node) (s : State) :
    (s.updateNode i f).code = s.code := rfl
@[simp] theorem State.updateNode_ibuf (i : NodeIdx) (f : Node → Node) (s : State) :
    (s.updateNode i f).ibuf = s.ibuf := rfl
@[simp] theorem State.updateNode_obuf (i : NodeIdx) (f : Node → Node) (s : State) :
    (s.updateNode i f).obuf = s.obuf := rfl
@[simp] theorem State.updateNode_port (i : NodeIdx) (f : Node → Node) (s : State) :
    (s.updateNode i f).port = s.port := rfl
@[simp] theorem State.updateNode_reply (i : NodeIdx) (f : Node → Node) (s : State) :
    (s.updateNode i f).reply = s.reply := rfl
@[simp] theorem State.updateNode_draws (i : NodeIdx) (f : Node → Node) (s : State) :
    (s.updateNode i f).draws = s.draws := rfl
@[simp] theorem State.updateNode_epoch (i : NodeIdx) (f : Node → Node) (s : State) :
    (s.updateNode i f).epoch = s.epoch := rfl
@[simp] theorem State.updateNode_ibufByte (i : NodeIdx) (f : Node → Node) (s : State) (k : Nat) :
    (s.updateNode i f).ibufByte k = s.ibufByte k := rfl
@[simp] theorem State.updateNode_inputInRange (i : NodeIdx) (f : Node → Node) (s : State) :
    (s.updateNode i f).inputInRange = s.inputInRange := rfl
@[simp] theorem State.updateNode_payload (i : NodeIdx) (f : Node → Node) (s : State) :
    (s.updateNode i f).payload = s.payload := rfl
@[simp] theorem State.updateNode_input (i : NodeIdx) (f : Node → Node) (s : State) :
    (s.updateNode i f).input = s.input := rfl

/-! ### dropTree: the tree dropped (R174) -/

@[simp] theorem State.dropTree_params (s : State) : s.dropTree.params = s.params := rfl
@[simp] theorem State.dropTree_busy (s : State) : s.dropTree.busy = s.busy := rfl
@[simp] theorem State.dropTree_done (s : State) : s.dropTree.done = s.done := rfl
@[simp] theorem State.dropTree_err (s : State) : s.dropTree.err = s.err := rfl
@[simp] theorem State.dropTree_tvalid (s : State) : s.dropTree.tvalid = false := rfl
@[simp] theorem State.dropTree_fcode (s : State) : s.dropTree.fcode = s.fcode := rfl
@[simp] theorem State.dropTree_ie (s : State) : s.dropTree.ie = s.ie := rfl
@[simp] theorem State.dropTree_ilen (s : State) : s.dropTree.ilen = s.ilen := rfl
@[simp] theorem State.dropTree_ipos (s : State) : s.dropTree.ipos = s.ipos := rfl
@[simp] theorem State.dropTree_olen (s : State) : s.dropTree.olen = s.olen := rfl
@[simp] theorem State.dropTree_nsize (s : State) : s.dropTree.nsize = s.nsize := rfl
@[simp] theorem State.dropTree_root (s : State) : s.dropTree.root = NULL := rfl
@[simp] theorem State.dropTree_ncount (s : State) : s.dropTree.ncount = 0 := rfl
@[simp] theorem State.dropTree_hist (s : State) : s.dropTree.hist = s.hist := rfl
@[simp] theorem State.dropTree_node (s : State) : s.dropTree.node = s.node := rfl
@[simp] theorem State.dropTree_code (s : State) : s.dropTree.code = s.code := rfl
@[simp] theorem State.dropTree_ibuf (s : State) : s.dropTree.ibuf = s.ibuf := rfl
@[simp] theorem State.dropTree_obuf (s : State) : s.dropTree.obuf = s.obuf := rfl
@[simp] theorem State.dropTree_port (s : State) : s.dropTree.port = s.port := rfl
@[simp] theorem State.dropTree_reply (s : State) : s.dropTree.reply = s.reply := rfl
@[simp] theorem State.dropTree_draws (s : State) : s.dropTree.draws = s.draws := rfl
@[simp] theorem State.dropTree_epoch (s : State) : s.dropTree.epoch = s.epoch := rfl
@[simp] theorem State.dropTree_ibufByte (s : State) (k : Nat) : s.dropTree.ibufByte k = s.ibufByte k := rfl
@[simp] theorem State.dropTree_inputInRange (s : State) : s.dropTree.inputInRange = s.inputInRange := rfl
@[simp] theorem State.dropTree_payload (s : State) : s.dropTree.payload = s.payload := rfl
@[simp] theorem State.dropTree_input (s : State) : s.dropTree.input = s.input := rfl

/-! ### startCompress: the start of COMPRESS (R235) -/

@[simp] theorem State.startCompress_params (s : State) : s.startCompress.params = s.params := rfl
@[simp] theorem State.startCompress_busy (s : State) : s.startCompress.busy = s.busy := rfl
@[simp] theorem State.startCompress_done (s : State) : s.startCompress.done = s.done := rfl
@[simp] theorem State.startCompress_err (s : State) : s.startCompress.err = s.err := rfl
@[simp] theorem State.startCompress_tvalid (s : State) : s.startCompress.tvalid = s.tvalid := rfl
@[simp] theorem State.startCompress_fcode (s : State) : s.startCompress.fcode = s.fcode := rfl
@[simp] theorem State.startCompress_ie (s : State) : s.startCompress.ie = s.ie := rfl
@[simp] theorem State.startCompress_ilen (s : State) : s.startCompress.ilen = s.ilen := rfl
@[simp] theorem State.startCompress_ipos (s : State) : s.startCompress.ipos = 0 := rfl
@[simp] theorem State.startCompress_olen (s : State) : s.startCompress.olen = 0 := rfl
@[simp] theorem State.startCompress_nsize (s : State) : s.startCompress.nsize = s.ilen := rfl
@[simp] theorem State.startCompress_root (s : State) : s.startCompress.root = s.root := rfl
@[simp] theorem State.startCompress_ncount (s : State) : s.startCompress.ncount = s.ncount := rfl
@[simp] theorem State.startCompress_hist (s : State) : s.startCompress.hist = s.hist := rfl
@[simp] theorem State.startCompress_node (s : State) : s.startCompress.node = s.node := rfl
@[simp] theorem State.startCompress_code (s : State) : s.startCompress.code = s.code := rfl
@[simp] theorem State.startCompress_ibuf (s : State) : s.startCompress.ibuf = s.ibuf := rfl
@[simp] theorem State.startCompress_obuf (s : State) : s.startCompress.obuf = s.obuf := rfl
@[simp] theorem State.startCompress_port (s : State) : s.startCompress.port = s.port := rfl
@[simp] theorem State.startCompress_reply (s : State) : s.startCompress.reply = s.reply := rfl
@[simp] theorem State.startCompress_draws (s : State) : s.startCompress.draws = s.draws := rfl
@[simp] theorem State.startCompress_epoch (s : State) : s.startCompress.epoch = s.epoch := rfl
@[simp] theorem State.startCompress_ibufByte (s : State) (k : Nat) : s.startCompress.ibufByte k = s.ibufByte k := rfl
@[simp] theorem State.startCompress_input (s : State) : s.startCompress.input = s.input := rfl

/-! ### startDecompress: the start of DECOMPRESS (R236) -/

@[simp] theorem State.startDecompress_params (s : State) : s.startDecompress.params = s.params := rfl
@[simp] theorem State.startDecompress_busy (s : State) : s.startDecompress.busy = s.busy := rfl
@[simp] theorem State.startDecompress_done (s : State) : s.startDecompress.done = s.done := rfl
@[simp] theorem State.startDecompress_err (s : State) : s.startDecompress.err = s.err := rfl
@[simp] theorem State.startDecompress_tvalid (s : State) : s.startDecompress.tvalid = s.tvalid := rfl
@[simp] theorem State.startDecompress_fcode (s : State) : s.startDecompress.fcode = s.fcode := rfl
@[simp] theorem State.startDecompress_ie (s : State) : s.startDecompress.ie = s.ie := rfl
@[simp] theorem State.startDecompress_ilen (s : State) : s.startDecompress.ilen = s.ilen := rfl
@[simp] theorem State.startDecompress_ipos (s : State) : s.startDecompress.ipos = 0 := rfl
@[simp] theorem State.startDecompress_olen (s : State) : s.startDecompress.olen = 0 := rfl
@[simp] theorem State.startDecompress_nsize (s : State) : s.startDecompress.nsize = s.nsize := rfl
@[simp] theorem State.startDecompress_root (s : State) : s.startDecompress.root = s.root := rfl
@[simp] theorem State.startDecompress_ncount (s : State) : s.startDecompress.ncount = s.ncount := rfl
@[simp] theorem State.startDecompress_hist (s : State) : s.startDecompress.hist = s.hist := rfl
@[simp] theorem State.startDecompress_node (s : State) : s.startDecompress.node = s.node := rfl
@[simp] theorem State.startDecompress_code (s : State) : s.startDecompress.code = s.code := rfl
@[simp] theorem State.startDecompress_ibuf (s : State) : s.startDecompress.ibuf = s.ibuf := rfl
@[simp] theorem State.startDecompress_obuf (s : State) : s.startDecompress.obuf = s.obuf := rfl
@[simp] theorem State.startDecompress_port (s : State) : s.startDecompress.port = s.port := rfl
@[simp] theorem State.startDecompress_reply (s : State) : s.startDecompress.reply = s.reply := rfl
@[simp] theorem State.startDecompress_draws (s : State) : s.startDecompress.draws = s.draws := rfl
@[simp] theorem State.startDecompress_epoch (s : State) : s.startDecompress.epoch = s.epoch := rfl
@[simp] theorem State.startDecompress_ibufByte (s : State) (k : Nat) :
    s.startDecompress.ibufByte k = s.ibufByte k := rfl
@[simp] theorem State.startDecompress_input (s : State) : s.startDecompress.input = s.input := rfl

/-! ### replyWord: a word returned -/

@[simp] theorem State.replyWord_params (v : Word) (s : State) : (State.replyWord v s).params = s.params := rfl
@[simp] theorem State.replyWord_busy (v : Word) (s : State) : (State.replyWord v s).busy = s.busy := rfl
@[simp] theorem State.replyWord_done (v : Word) (s : State) : (State.replyWord v s).done = s.done := rfl
@[simp] theorem State.replyWord_err (v : Word) (s : State) : (State.replyWord v s).err = s.err := rfl
@[simp] theorem State.replyWord_tvalid (v : Word) (s : State) : (State.replyWord v s).tvalid = s.tvalid := rfl
@[simp] theorem State.replyWord_fcode (v : Word) (s : State) : (State.replyWord v s).fcode = s.fcode := rfl
@[simp] theorem State.replyWord_ie (v : Word) (s : State) : (State.replyWord v s).ie = s.ie := rfl
@[simp] theorem State.replyWord_ilen (v : Word) (s : State) : (State.replyWord v s).ilen = s.ilen := rfl
@[simp] theorem State.replyWord_ipos (v : Word) (s : State) : (State.replyWord v s).ipos = s.ipos := rfl
@[simp] theorem State.replyWord_olen (v : Word) (s : State) : (State.replyWord v s).olen = s.olen := rfl
@[simp] theorem State.replyWord_nsize (v : Word) (s : State) : (State.replyWord v s).nsize = s.nsize := rfl
@[simp] theorem State.replyWord_root (v : Word) (s : State) : (State.replyWord v s).root = s.root := rfl
@[simp] theorem State.replyWord_ncount (v : Word) (s : State) : (State.replyWord v s).ncount = s.ncount := rfl
@[simp] theorem State.replyWord_hist (v : Word) (s : State) : (State.replyWord v s).hist = s.hist := rfl
@[simp] theorem State.replyWord_node (v : Word) (s : State) : (State.replyWord v s).node = s.node := rfl
@[simp] theorem State.replyWord_code (v : Word) (s : State) : (State.replyWord v s).code = s.code := rfl
@[simp] theorem State.replyWord_ibuf (v : Word) (s : State) : (State.replyWord v s).ibuf = s.ibuf := rfl
@[simp] theorem State.replyWord_obuf (v : Word) (s : State) : (State.replyWord v s).obuf = s.obuf := rfl
@[simp] theorem State.replyWord_port (v : Word) (s : State) : (State.replyWord v s).port = s.port := rfl
@[simp] theorem State.replyWord_reply (v : Word) (s : State) : (State.replyWord v s).reply = .word v := rfl
@[simp] theorem State.replyWord_draws (v : Word) (s : State) : (State.replyWord v s).draws = s.draws := rfl
@[simp] theorem State.replyWord_epoch (v : Word) (s : State) : (State.replyWord v s).epoch = s.epoch := rfl
@[simp] theorem State.replyWord_ibufByte (v : Word) (s : State) (k : Nat) :
    (State.replyWord v s).ibufByte k = s.ibufByte k := rfl
@[simp] theorem State.replyWord_inputInRange (v : Word) (s : State) :
    (State.replyWord v s).inputInRange = s.inputInRange := rfl
@[simp] theorem State.replyWord_payload (v : Word) (s : State) : (State.replyWord v s).payload = s.payload := rfl
@[simp] theorem State.replyWord_input (v : Word) (s : State) : (State.replyWord v s).input = s.input := rfl

/-! ### replyByte: a byte returned -/

@[simp] theorem State.replyByte_params (b : Byte) (s : State) : (State.replyByte b s).params = s.params := rfl
@[simp] theorem State.replyByte_busy (b : Byte) (s : State) : (State.replyByte b s).busy = s.busy := rfl
@[simp] theorem State.replyByte_done (b : Byte) (s : State) : (State.replyByte b s).done = s.done := rfl
@[simp] theorem State.replyByte_err (b : Byte) (s : State) : (State.replyByte b s).err = s.err := rfl
@[simp] theorem State.replyByte_tvalid (b : Byte) (s : State) : (State.replyByte b s).tvalid = s.tvalid := rfl
@[simp] theorem State.replyByte_fcode (b : Byte) (s : State) : (State.replyByte b s).fcode = s.fcode := rfl
@[simp] theorem State.replyByte_ie (b : Byte) (s : State) : (State.replyByte b s).ie = s.ie := rfl
@[simp] theorem State.replyByte_ilen (b : Byte) (s : State) : (State.replyByte b s).ilen = s.ilen := rfl
@[simp] theorem State.replyByte_ipos (b : Byte) (s : State) : (State.replyByte b s).ipos = s.ipos := rfl
@[simp] theorem State.replyByte_olen (b : Byte) (s : State) : (State.replyByte b s).olen = s.olen := rfl
@[simp] theorem State.replyByte_nsize (b : Byte) (s : State) : (State.replyByte b s).nsize = s.nsize := rfl
@[simp] theorem State.replyByte_root (b : Byte) (s : State) : (State.replyByte b s).root = s.root := rfl
@[simp] theorem State.replyByte_ncount (b : Byte) (s : State) : (State.replyByte b s).ncount = s.ncount := rfl
@[simp] theorem State.replyByte_hist (b : Byte) (s : State) : (State.replyByte b s).hist = s.hist := rfl
@[simp] theorem State.replyByte_node (b : Byte) (s : State) : (State.replyByte b s).node = s.node := rfl
@[simp] theorem State.replyByte_code (b : Byte) (s : State) : (State.replyByte b s).code = s.code := rfl
@[simp] theorem State.replyByte_ibuf (b : Byte) (s : State) : (State.replyByte b s).ibuf = s.ibuf := rfl
@[simp] theorem State.replyByte_obuf (b : Byte) (s : State) : (State.replyByte b s).obuf = s.obuf := rfl
@[simp] theorem State.replyByte_port (b : Byte) (s : State) : (State.replyByte b s).port = s.port := rfl
@[simp] theorem State.replyByte_reply (b : Byte) (s : State) : (State.replyByte b s).reply = .byte b := rfl
@[simp] theorem State.replyByte_draws (b : Byte) (s : State) : (State.replyByte b s).draws = s.draws := rfl
@[simp] theorem State.replyByte_epoch (b : Byte) (s : State) : (State.replyByte b s).epoch = s.epoch := rfl
@[simp] theorem State.replyByte_ibufByte (b : Byte) (s : State) (k : Nat) :
    (State.replyByte b s).ibufByte k = s.ibufByte k := rfl
@[simp] theorem State.replyByte_inputInRange (b : Byte) (s : State) :
    (State.replyByte b s).inputInRange = s.inputInRange := rfl
@[simp] theorem State.replyByte_payload (b : Byte) (s : State) : (State.replyByte b s).payload = s.payload := rfl
@[simp] theorem State.replyByte_input (b : Byte) (s : State) : (State.replyByte b s).input = s.input := rfl

/-! ### replyFreeWord: an unspecified word returned (R17) -/

@[simp] theorem State.replyFreeWord_params (s : State) : s.replyFreeWord.params = s.params := rfl
@[simp] theorem State.replyFreeWord_busy (s : State) : s.replyFreeWord.busy = s.busy := rfl
@[simp] theorem State.replyFreeWord_done (s : State) : s.replyFreeWord.done = s.done := rfl
@[simp] theorem State.replyFreeWord_err (s : State) : s.replyFreeWord.err = s.err := rfl
@[simp] theorem State.replyFreeWord_tvalid (s : State) : s.replyFreeWord.tvalid = s.tvalid := rfl
@[simp] theorem State.replyFreeWord_fcode (s : State) : s.replyFreeWord.fcode = s.fcode := rfl
@[simp] theorem State.replyFreeWord_ie (s : State) : s.replyFreeWord.ie = s.ie := rfl
@[simp] theorem State.replyFreeWord_ilen (s : State) : s.replyFreeWord.ilen = s.ilen := rfl
@[simp] theorem State.replyFreeWord_ipos (s : State) : s.replyFreeWord.ipos = s.ipos := rfl
@[simp] theorem State.replyFreeWord_olen (s : State) : s.replyFreeWord.olen = s.olen := rfl
@[simp] theorem State.replyFreeWord_nsize (s : State) : s.replyFreeWord.nsize = s.nsize := rfl
@[simp] theorem State.replyFreeWord_root (s : State) : s.replyFreeWord.root = s.root := rfl
@[simp] theorem State.replyFreeWord_ncount (s : State) : s.replyFreeWord.ncount = s.ncount := rfl
@[simp] theorem State.replyFreeWord_hist (s : State) : s.replyFreeWord.hist = s.hist := rfl
@[simp] theorem State.replyFreeWord_node (s : State) : s.replyFreeWord.node = s.node := rfl
@[simp] theorem State.replyFreeWord_code (s : State) : s.replyFreeWord.code = s.code := rfl
@[simp] theorem State.replyFreeWord_ibuf (s : State) : s.replyFreeWord.ibuf = s.ibuf := rfl
@[simp] theorem State.replyFreeWord_obuf (s : State) : s.replyFreeWord.obuf = s.obuf := rfl
@[simp] theorem State.replyFreeWord_port (s : State) : s.replyFreeWord.port = s.port := rfl
@[simp] theorem State.replyFreeWord_reply (s : State) : s.replyFreeWord.reply = .word (Config.freeWord s.draws) := rfl
@[simp] theorem State.replyFreeWord_draws (s : State) : s.replyFreeWord.draws = s.draws + 1 := rfl
@[simp] theorem State.replyFreeWord_epoch (s : State) : s.replyFreeWord.epoch = s.epoch := rfl
@[simp] theorem State.replyFreeWord_ibufByte (s : State) (k : Nat) : s.replyFreeWord.ibufByte k = s.ibufByte k := rfl
@[simp] theorem State.replyFreeWord_inputInRange (s : State) : s.replyFreeWord.inputInRange = s.inputInRange := rfl
@[simp] theorem State.replyFreeWord_payload (s : State) : s.replyFreeWord.payload = s.payload := rfl
@[simp] theorem State.replyFreeWord_input (s : State) : s.replyFreeWord.input = s.input := rfl

/-! ### replyFreeByte: an unspecified byte returned (R17) -/

@[simp] theorem State.replyFreeByte_params (s : State) : s.replyFreeByte.params = s.params := rfl
@[simp] theorem State.replyFreeByte_busy (s : State) : s.replyFreeByte.busy = s.busy := rfl
@[simp] theorem State.replyFreeByte_done (s : State) : s.replyFreeByte.done = s.done := rfl
@[simp] theorem State.replyFreeByte_err (s : State) : s.replyFreeByte.err = s.err := rfl
@[simp] theorem State.replyFreeByte_tvalid (s : State) : s.replyFreeByte.tvalid = s.tvalid := rfl
@[simp] theorem State.replyFreeByte_fcode (s : State) : s.replyFreeByte.fcode = s.fcode := rfl
@[simp] theorem State.replyFreeByte_ie (s : State) : s.replyFreeByte.ie = s.ie := rfl
@[simp] theorem State.replyFreeByte_ilen (s : State) : s.replyFreeByte.ilen = s.ilen := rfl
@[simp] theorem State.replyFreeByte_ipos (s : State) : s.replyFreeByte.ipos = s.ipos := rfl
@[simp] theorem State.replyFreeByte_olen (s : State) : s.replyFreeByte.olen = s.olen := rfl
@[simp] theorem State.replyFreeByte_nsize (s : State) : s.replyFreeByte.nsize = s.nsize := rfl
@[simp] theorem State.replyFreeByte_root (s : State) : s.replyFreeByte.root = s.root := rfl
@[simp] theorem State.replyFreeByte_ncount (s : State) : s.replyFreeByte.ncount = s.ncount := rfl
@[simp] theorem State.replyFreeByte_hist (s : State) : s.replyFreeByte.hist = s.hist := rfl
@[simp] theorem State.replyFreeByte_node (s : State) : s.replyFreeByte.node = s.node := rfl
@[simp] theorem State.replyFreeByte_code (s : State) : s.replyFreeByte.code = s.code := rfl
@[simp] theorem State.replyFreeByte_ibuf (s : State) : s.replyFreeByte.ibuf = s.ibuf := rfl
@[simp] theorem State.replyFreeByte_obuf (s : State) : s.replyFreeByte.obuf = s.obuf := rfl
@[simp] theorem State.replyFreeByte_port (s : State) : s.replyFreeByte.port = s.port := rfl
@[simp] theorem State.replyFreeByte_reply (s : State) : s.replyFreeByte.reply = .byte (Config.freeByte s.draws) := rfl
@[simp] theorem State.replyFreeByte_draws (s : State) : s.replyFreeByte.draws = s.draws + 1 := rfl
@[simp] theorem State.replyFreeByte_epoch (s : State) : s.replyFreeByte.epoch = s.epoch := rfl
@[simp] theorem State.replyFreeByte_ibufByte (s : State) (k : Nat) : s.replyFreeByte.ibufByte k = s.ibufByte k := rfl
@[simp] theorem State.replyFreeByte_inputInRange (s : State) : s.replyFreeByte.inputInRange = s.inputInRange := rfl
@[simp] theorem State.replyFreeByte_payload (s : State) : s.replyFreeByte.payload = s.payload := rfl
@[simp] theorem State.replyFreeByte_input (s : State) : s.replyFreeByte.input = s.input := rfl

/-! ### issueFirst: a port operation put in front -/

@[simp] theorem State.issueFirst_params (op : PortOp) (s : State) : (s.issueFirst op).params = s.params := rfl
@[simp] theorem State.issueFirst_busy (op : PortOp) (s : State) : (s.issueFirst op).busy = s.busy := rfl
@[simp] theorem State.issueFirst_done (op : PortOp) (s : State) : (s.issueFirst op).done = s.done := rfl
@[simp] theorem State.issueFirst_err (op : PortOp) (s : State) : (s.issueFirst op).err = s.err := rfl
@[simp] theorem State.issueFirst_tvalid (op : PortOp) (s : State) : (s.issueFirst op).tvalid = s.tvalid := rfl
@[simp] theorem State.issueFirst_fcode (op : PortOp) (s : State) : (s.issueFirst op).fcode = s.fcode := rfl
@[simp] theorem State.issueFirst_ie (op : PortOp) (s : State) : (s.issueFirst op).ie = s.ie := rfl
@[simp] theorem State.issueFirst_ilen (op : PortOp) (s : State) : (s.issueFirst op).ilen = s.ilen := rfl
@[simp] theorem State.issueFirst_ipos (op : PortOp) (s : State) : (s.issueFirst op).ipos = s.ipos := rfl
@[simp] theorem State.issueFirst_olen (op : PortOp) (s : State) : (s.issueFirst op).olen = s.olen := rfl
@[simp] theorem State.issueFirst_nsize (op : PortOp) (s : State) : (s.issueFirst op).nsize = s.nsize := rfl
@[simp] theorem State.issueFirst_root (op : PortOp) (s : State) : (s.issueFirst op).root = s.root := rfl
@[simp] theorem State.issueFirst_ncount (op : PortOp) (s : State) : (s.issueFirst op).ncount = s.ncount := rfl
@[simp] theorem State.issueFirst_hist (op : PortOp) (s : State) : (s.issueFirst op).hist = s.hist := rfl
@[simp] theorem State.issueFirst_node (op : PortOp) (s : State) : (s.issueFirst op).node = s.node := rfl
@[simp] theorem State.issueFirst_code (op : PortOp) (s : State) : (s.issueFirst op).code = s.code := rfl
@[simp] theorem State.issueFirst_ibuf (op : PortOp) (s : State) : (s.issueFirst op).ibuf = s.ibuf := rfl
@[simp] theorem State.issueFirst_obuf (op : PortOp) (s : State) : (s.issueFirst op).obuf = s.obuf := rfl
@[simp] theorem State.issueFirst_port (op : PortOp) (s : State) : (s.issueFirst op).port = op :: s.port := rfl
@[simp] theorem State.issueFirst_reply (op : PortOp) (s : State) : (s.issueFirst op).reply = s.reply := rfl
@[simp] theorem State.issueFirst_draws (op : PortOp) (s : State) : (s.issueFirst op).draws = s.draws := rfl
@[simp] theorem State.issueFirst_epoch (op : PortOp) (s : State) : (s.issueFirst op).epoch = s.epoch := rfl
@[simp] theorem State.issueFirst_ibufByte (op : PortOp) (s : State) (k : Nat) :
    (s.issueFirst op).ibufByte k = s.ibufByte k := rfl
@[simp] theorem State.issueFirst_inputInRange (op : PortOp) (s : State) :
    (s.issueFirst op).inputInRange = s.inputInRange := rfl
@[simp] theorem State.issueFirst_payload (op : PortOp) (s : State) : (s.issueFirst op).payload = s.payload := rfl
@[simp] theorem State.issueFirst_input (op : PortOp) (s : State) : (s.issueFirst op).input = s.input := rfl

/-! ### hardReset: the reset input (R290) -/

@[simp] theorem State.hardReset_params (s : State) : (hardReset s).params = s.params := rfl
@[simp] theorem State.hardReset_busy (s : State) : (hardReset s).busy = false := rfl
@[simp] theorem State.hardReset_done (s : State) : (hardReset s).done = false := rfl
@[simp] theorem State.hardReset_err (s : State) : (hardReset s).err = false := rfl
@[simp] theorem State.hardReset_tvalid (s : State) : (hardReset s).tvalid = false := rfl
@[simp] theorem State.hardReset_fcode (s : State) : (hardReset s).fcode = 0 := rfl
@[simp] theorem State.hardReset_ie (s : State) : (hardReset s).ie = false := rfl
@[simp] theorem State.hardReset_ilen (s : State) : (hardReset s).ilen = 0 := rfl
@[simp] theorem State.hardReset_ipos (s : State) : (hardReset s).ipos = 0 := rfl
@[simp] theorem State.hardReset_olen (s : State) : (hardReset s).olen = 0 := rfl
@[simp] theorem State.hardReset_nsize (s : State) : (hardReset s).nsize = 0 := rfl
@[simp] theorem State.hardReset_root (s : State) : (hardReset s).root = NULL := rfl
@[simp] theorem State.hardReset_ncount (s : State) : (hardReset s).ncount = 0 := rfl
@[simp] theorem State.hardReset_hist (s : State) : (hardReset s).hist = Table.fill 8 0 := rfl
@[simp] theorem State.hardReset_node (s : State) : (hardReset s).node = Table.fill 9 Node.blank := rfl
@[simp] theorem State.hardReset_code (s : State) : (hardReset s).code = Table.fill 8 Code.none := rfl
@[simp] theorem State.hardReset_ibuf (s : State) : (hardReset s).ibuf = [] := rfl
@[simp] theorem State.hardReset_obuf (s : State) : (hardReset s).obuf = [] := rfl
@[simp] theorem State.hardReset_port (s : State) : (hardReset s).port = s.port := rfl
@[simp] theorem State.hardReset_reply (s : State) : (hardReset s).reply = .none := rfl
@[simp] theorem State.hardReset_draws (s : State) : (hardReset s).draws = s.draws := rfl
@[simp] theorem State.hardReset_epoch (s : State) : (hardReset s).epoch = s.epoch + 1 := rfl

end Sys2Proof.Machine
end

