-- ==== Sys2Proof/Laws/Table.lean ====
section
/-! SUPPORT. The laws of `Table`: what a read gives after each way to make or change a table, and extensionality. -/

namespace Sys2Proof.Machine

/-- Splitting an address: its top bit chooses the half, the rest is the address within it. -/
theorem testBit_eq_div (d i : Nat) (h : i < 2 ^ (d + 1)) : i.testBit d = decide (2 ^ d ≤ i) := by
  rw [Nat.testBit_eq_decide_div_mod_eq]
  have hp : 0 < 2 ^ d := Nat.two_pow_pos d
  rw [Nat.pow_succ] at h
  by_cases hle : 2 ^ d ≤ i
  · have h1 : i / 2 ^ d = 1 := by
      rw [Nat.div_eq_iff hp]
      omega
    simp [h1, hle]
  · rw [Nat.div_eq_of_lt (by omega)]
    simp [hle]

theorem Table.getNat_mod {α : Type} {d : Nat} (t : Table α d) (i : Nat) : t.getNat (i % 2 ^ d) = t.getNat i := by
  induction t generalizing i with
  | entry a => rfl
  | @halves d lo hi ihl ihh =>
    have hb : (i % 2 ^ (d + 1)).testBit d = i.testBit d := by simp [Nat.testBit_mod_two_pow]
    have hm : i % 2 ^ (d + 1) % 2 ^ d = i % 2 ^ d := Nat.mod_mod_of_dvd _ (pow_dvd_pow 2 (Nat.le_succ d))
    simp only [Table.getNat, hb]
    rw [← ihl (i % 2 ^ (d + 1)), ← ihh (i % 2 ^ (d + 1)), hm, ihl, ihh]

/-- The low `d + 1` bits of an address: bit `d` and the low `d`. -/
theorem mod_two_pow_succ (i d : Nat) : i % 2 ^ (d + 1) = i % 2 ^ d + bif i.testBit d then 2 ^ d else 0 := by
  rw [Nat.mod_pow_succ, Nat.testBit_eq_decide_div_mod_eq]
  rcases Nat.mod_two_eq_zero_or_one (i / 2 ^ d) with h | h <;> simp [h]

/-- Two addresses name the same entry of a table with `d + 1` address bits exactly when their top bits and the rest
agree. -/
theorem mod_two_pow_succ_eq_iff (d i j : Nat) :
    i % 2 ^ (d + 1) = j % 2 ^ (d + 1) ↔ i.testBit d = j.testBit d ∧ i % 2 ^ d = j % 2 ^ d := by
  rw [mod_two_pow_succ i, mod_two_pow_succ j]
  have hi : i % 2 ^ d < 2 ^ d := Nat.mod_lt _ (Nat.two_pow_pos d)
  have hj : j % 2 ^ d < 2 ^ d := Nat.mod_lt _ (Nat.two_pow_pos d)
  cases i.testBit d <;> cases j.testBit d <;> simp <;> omega

theorem Table.getNat_updateNat {α : Type} {d : Nat} (t : Table α d) (f : α → α) (i j : Nat) :
    (t.updateNat f i).getNat j = if i % 2 ^ d = j % 2 ^ d then f (t.getNat j) else t.getNat j := by
  induction t with
  | entry a => simp [Table.updateNat, Table.getNat, Nat.mod_one]
  | @halves d lo hi ihl ihh =>
    have hij := mod_two_pow_succ_eq_iff d i j
    cases hi' : i.testBit d <;> cases hj' : j.testBit d <;>
      simp [Table.updateNat, Table.getNat, hij, hi', hj', ihl, ihh]

theorem Table.getNat_tabulateFrom {α : Type} (f : Nat → α) (d base i : Nat) :
    (Table.tabulateFrom f d base).getNat i = f (base + i % 2 ^ d) := by
  induction d generalizing base with
  | zero => simp [Table.tabulateFrom, Table.getNat, Nat.mod_one]
  | succ d ih =>
    have h := mod_two_pow_succ i d
    cases hb : i.testBit d <;> simp [Table.tabulateFrom, Table.getNat, hb, ih, h, Nat.add_assoc, Nat.add_comm]

theorem Table.getNat_mapFrom {α : Type} (f : Nat → α → α) {d : Nat} (t : Table α d) (base i : Nat) :
    (t.mapFrom f base).getNat i = f (base + i % 2 ^ d) (t.getNat i) := by
  induction t generalizing base with
  | entry a => simp [Table.mapFrom, Table.getNat, Nat.mod_one]
  | @halves d lo hi ihl ihh =>
    have h := mod_two_pow_succ i d
    cases hb : i.testBit d <;> simp [Table.mapFrom, Table.getNat, hb, ihl, ihh, h, Nat.add_assoc, Nat.add_comm]

/-- A read after a change of one entry. -/
theorem Table.get_update {α : Type} {d : Nat} (t : Table α d) (i j : BitVec d) (f : α → α) :
    (t.update i f).get j = if i = j then f (t.get j) else t.get j := by
  simp only [Table.update, Table.get, Table.getNat_updateNat, Nat.mod_eq_of_lt i.isLt, Nat.mod_eq_of_lt j.isLt,
    BitVec.toNat_eq]

/-- A read after a write of one entry. -/
theorem Table.get_set {α : Type} {d : Nat} (t : Table α d) (i j : BitVec d) (x : α) :
    (t.set i x).get j = if i = j then x else t.get j := Table.get_update t i j _

@[simp] theorem Table.get_set_self {α : Type} {d : Nat} (t : Table α d) (i : BitVec d) (x : α) :
    (t.set i x).get i = x := by simp [Table.get_set]

@[simp] theorem Table.get_tabulate {α : Type} (d : Nat) (f : BitVec d → α) (i : BitVec d) :
    (Table.tabulate d f).get i = f i := by
  simp [Table.tabulate, Table.get, Table.getNat_tabulateFrom, Nat.mod_eq_of_lt i.isLt]

@[simp] theorem Table.get_mapEntries {α : Type} {d : Nat} (t : Table α d) (f : BitVec d → α → α) (i : BitVec d) :
    (t.mapEntries f).get i = f i (t.get i) := by
  simp [Table.mapEntries, Table.get, Table.getNat_mapFrom, Nat.mod_eq_of_lt i.isLt]

theorem Table.getNat_fill {α : Type} (d : Nat) (a : α) (i : Nat) : (Table.fill d a).getNat i = a := by
  induction d with
  | zero => rfl
  | succ d ih => cases h : i.testBit d <;> simp [Table.fill, Table.getNat, h, ih]

@[simp] theorem Table.get_fill {α : Type} (d : Nat) (a : α) (i : BitVec d) : (Table.fill d a).get i = a :=
  Table.getNat_fill d a i.toNat

/-- A read in one of the halves of a table. -/
theorem Table.get_halves {α : Type} {d : Nat} (lo hi : Table α d) (i : BitVec (d + 1)) :
    (Table.halves lo hi).get i = if i.toNat < 2 ^ d then lo.get (i.setWidth d) else hi.get (i.setWidth d) := by
  have hb := testBit_eq_div d i.toNat i.isLt
  simp only [Table.get, Table.getNat, BitVec.toNat_setWidth, Table.getNat_mod, hb]
  by_cases h : 2 ^ d ≤ i.toNat
  · simp [h]
  · simp [h, Nat.not_le.mp h]

theorem Table.eq_of_getNat {α : Type} {d : Nat} (t u : Table α d) (h : ∀ i, i < 2 ^ d → t.getNat i = u.getNat i) :
    t = u := by
  induction t with
  | entry a =>
    cases u with
    | entry b => exact congrArg _ (h 0 (by simp))
  | @halves d lo hi ihl ihh =>
    cases u with
    | halves lo' hi' =>
      have hp : (2 : Nat) ^ (d + 1) = 2 ^ d + 2 ^ d := by rw [Nat.pow_succ]; omega
      have hl : lo = lo' := ihl lo' (fun i hi => by
        have := h i (by omega)
        simpa [Table.getNat, Nat.testBit_lt_two_pow hi] using this)
      have hh : hi = hi' := ihh hi' (fun i hi => by
        have := h (2 ^ d + i) (by omega)
        rw [← Table.getNat_mod, ← Table.getNat_mod (t := hi')]
        have hb : (2 ^ d + i).testBit d = true := by
          rw [testBit_eq_div d _ (by omega)]
          simp
        simp only [Table.getNat, hb, cond_true] at this
        rw [← Table.getNat_mod, ← Table.getNat_mod (t := hi')] at this
        simpa [Nat.add_mod_left] using this)
      rw [hl, hh]

/-- Tables with equal entries are equal. -/
theorem Table.ext_get {α : Type} {d : Nat} (t u : Table α d) (h : ∀ i : BitVec d, t.get i = u.get i) : t = u :=
  Table.eq_of_getNat t u (fun i hi => by
    have := h (BitVec.ofNat d i)
    simpa [Table.get, Nat.mod_eq_of_lt hi] using this)

end Sys2Proof.Machine
end

