-- ==== Sys2Proof/Laws/Arena.lean ====
section
/-! SUPPORT. The laws of arena access, of the code table's entries and of the ordering function's insertion: what each
read gives after each write. -/

namespace Sys2Proof.Machine

/-! ### The arena -/

@[simp] theorem nodeAt_null (nd : Table Node 9) : nodeAt nd NULL = none := rfl

theorem nodeAt_of_ne (nd : Table Node 9) (i : NodeIdx) (h : i ≠ NULL) : nodeAt nd i = some (nd.get i) := if_neg h

theorem nodeAt_eq_some (nd : Table Node 9) (i : NodeIdx) (n : Node) :
    nodeAt nd i = some n ↔ i ≠ NULL ∧ nd.get i = n := by
  unfold nodeAt
  split <;> simp_all

theorem nodeAt_eq_none (nd : Table Node 9) (i : NodeIdx) : nodeAt nd i = none ↔ i = NULL := by
  unfold nodeAt
  split <;> simp_all

/-- A write of one entry, read anywhere; a write at `NULL` changes nothing. -/
theorem get_nodeSet (nd : Table Node 9) (i j : NodeIdx) (x : Node) :
    (nodeSet nd i x).get j = if i = j ∧ i ≠ NULL then x else nd.get j := by
  unfold nodeSet
  by_cases h : i = NULL <;> simp [h, Table.get_set]

/-- A change of one entry, read anywhere; a change at `NULL` changes nothing. -/
theorem get_nodeUpdate (nd : Table Node 9) (i j : NodeIdx) (f : Node → Node) :
    (nodeUpdate nd i f).get j = if i = j ∧ i ≠ NULL then f (nd.get j) else nd.get j := by
  unfold nodeUpdate
  by_cases h : i = NULL <;> simp [h, Table.get_update]

theorem get_markVisited (nd : Table Node 9) (i j : NodeIdx) :
    (markVisited nd i).get j = if i = j ∧ i ≠ NULL then { nd.get j with visited := true } else nd.get j :=
  get_nodeUpdate nd i j _

theorem get_clearVisited (n : Nat) (nd : Table Node 9) (i : NodeIdx) :
    (clearVisited n nd).get i = if i.toNat < n then { nd.get i with visited := false } else nd.get i :=
  Table.get_mapEntries nd _ i

theorem isLeafAt_of_ne (nd : Table Node 9) (i : NodeIdx) (h : i ≠ NULL) : isLeafAt nd i = (nd.get i).isLeaf := by
  rw [isLeafAt, nodeAt_of_ne nd i h]

/-- A symbol's nine-bit `sym` value is no sentinel and gives the symbol back. -/
theorem sym_ne_notALeaf (s : Byte) : s.setWidth 9 ≠ NOT_A_LEAF := fun h => by
  have := congrArg BitVec.toNat h
  have hs := s.isLt
  simp at this
  omega

@[simp] theorem Node.isLeaf_leaf (s : Byte) (f : Word) : (Node.leaf s f).isLeaf = true := by
  simpa [Node.isLeaf, Node.leaf] using sym_ne_notALeaf s

@[simp] theorem Node.isLeaf_internal (f : Word) (l r : NodeIdx) : (Node.internal f l r).isLeaf = false := by
  simp [Node.isLeaf, Node.internal]

@[simp] theorem setWidth_setWidth_sym (s : Byte) : (s.setWidth 9).setWidth 8 = s := by
  ext i h
  simp

/-! ### Codes -/

theorem bitsToNat_append (p q : List Bool) : bitsToNat (p ++ q) = bitsToNat p * 2 ^ q.length + bitsToNat q := by
  have key : ∀ (q : List Bool) (n : Nat),
      q.foldl (fun n b => 2 * n + b.toNat) n = n * 2 ^ q.length + q.foldl (fun n b => 2 * n + b.toNat) 0 := by
    intro q
    induction q with
    | nil => intro n; simp
    | cons b q ih =>
      intro n
      simp only [List.foldl_cons, List.length_cons, Nat.mul_zero, Nat.zero_add]
      rw [ih (2 * n + b.toNat), ih b.toNat]
      rw [pow_succ]
      ring
  unfold bitsToNat
  rw [List.foldl_append, key]

@[simp] theorem bitsToNat_nil : bitsToNat [] = 0 := rfl

theorem bitsToNat_cons (b : Bool) (p : List Bool) : bitsToNat (b :: p) = b.toNat * 2 ^ p.length + bitsToNat p := by
  have := bitsToNat_append [b] p
  simpa [bitsToNat] using this

theorem bitsToNat_lt (p : List Bool) : bitsToNat p < 2 ^ p.length := by
  induction p with
  | nil => simp
  | cons b p ih =>
    rw [bitsToNat_cons, List.length_cons, pow_succ]
    cases b <;> simp <;> omega

/-- Bit `j` of a path is bit `length − 1 − j` of the number it spells. -/
theorem testBit_bitsToNat (p : List Bool) (j : Nat) (h : j < p.length) :
    (bitsToNat p).testBit (p.length - 1 - j) = p[j] := by
  induction p generalizing j with
  | nil => simp at h
  | cons b p ih =>
    have hlt := bitsToNat_lt p
    rw [bitsToNat_cons]
    cases j with
    | zero =>
      have hk : (b :: p).length - 1 - 0 = p.length := by simp
      rw [hk]
      cases b
      · simpa using Nat.testBit_lt_two_pow hlt
      · simp only [Bool.toNat_true, one_mul, List.getElem_cons_zero]
        rw [Nat.testBit_two_pow_add_eq, Nat.testBit_lt_two_pow hlt]
        rfl
    | succ j =>
      have hj : j < p.length := by simpa using h
      have hk : (b :: p).length - 1 - (j + 1) = p.length - 1 - j := by simp; omega
      rw [hk, List.getElem_cons_succ, ← ih j hj]
      cases b
      · simp
      · simp only [Bool.toNat_true, one_mul]
        exact Nat.testBit_two_pow_add_gt (by omega) _

/-- A recorded path of at most 255 bits reads back as itself (R37, R38, R104). -/
theorem Code.toBits_ofPath (p : List Bool) (h : p.length ≤ 255) : (Code.ofPath p).toBits = p := by
  have hlen : (Code.ofPath p).len.toNat = p.length := by
    simp [Code.ofPath]
    omega
  refine List.ext_getElem (by simp [Code.toBits, hlen]) (fun j h1 h2 => ?_)
  have hval : bitsToNat p * 2 ^ (256 - p.length) < 2 ^ 256 := by
    calc bitsToNat p * 2 ^ (256 - p.length) < 2 ^ p.length * 2 ^ (256 - p.length) :=
          Nat.mul_lt_mul_of_pos_right (bitsToNat_lt p) (Nat.two_pow_pos _)
      _ = 2 ^ 256 := by rw [← pow_add]; congr 1; omega
  simp only [Code.toBits, List.getElem_map, List.getElem_range, Code.ofPath, BitVec.getMsbD]
  rw [← testBit_bitsToNat p j h2]
  simp only [BitVec.getLsbD_ofNat, Nat.testBit_mul_two_pow, show j < 256 by omega, show 256 - 1 - j < 256 by omega,
    show 256 - p.length ≤ 256 - 1 - j by omega, decide_true, Bool.true_and]
  congr 1
  omega

/-- The unused positions of a recorded path are 0 (R37). -/
theorem Code.wf_ofPath (p : List Bool) (h : p.length ≤ 255) : (Code.ofPath p).wf := by
  intro j hj
  have hlen : (Code.ofPath p).len.toNat = p.length := by
    simp [Code.ofPath]
    omega
  rw [hlen] at hj
  simp only [Code.ofPath, BitVec.getMsbD, BitVec.getLsbD_ofNat, Nat.testBit_mul_two_pow]
  by_cases h1 : j < 256
  · simp [show ¬ 256 - p.length ≤ 256 - 1 - j by omega]
  · simp [h1]

@[simp] theorem Code.toBits_none : Code.none.toBits = [] := rfl

theorem Code.wf_none : Code.none.wf := by
  intro j _
  simp [Code.none, BitVec.getMsbD]

/-! ### The ordering function -/

theorem insertByFreq_cons (x y : WsEntry) (l : List WsEntry) :
    insertByFreq x (y :: l) =
      if y.freq.toNat ≤ x.freq.toNat then x :: y :: l else y :: insertByFreq x l := by
  rw [insertByFreq]
  by_cases h : y.freq.toNat ≤ x.freq.toNat
  · simp [h, Nat.ble_eq.mpr h]
  · simp [h, Bool.eq_false_iff.mpr (fun hb => h (Nat.ble_eq.mp hb))]

theorem insertByFreq_perm (x : WsEntry) (l : List WsEntry) : (insertByFreq x l).Perm (x :: l) := by
  induction l with
  | nil => exact List.Perm.refl _
  | cons y l ih =>
    rw [insertByFreq_cons]
    split
    · exact List.Perm.refl _
    · exact (ih.cons y).trans (List.Perm.swap x y l)

theorem insertByFreq_pairwise (x : WsEntry) (l : List WsEntry)
    (h : l.Pairwise (fun a b => b.freq.toNat ≤ a.freq.toNat)) :
    (insertByFreq x l).Pairwise (fun a b => b.freq.toNat ≤ a.freq.toNat) := by
  induction l with
  | nil => simp [insertByFreq]
  | cons y l ih =>
    obtain ⟨hy, hl⟩ := List.pairwise_cons.mp h
    rw [insertByFreq_cons]
    split
    · rename_i hle
      refine List.pairwise_cons.mpr ⟨fun z hz => ?_, h⟩
      rcases List.mem_cons.mp hz with rfl | hz
      · exact hle
      · exact (hy z hz).trans hle
    · rename_i hlt
      refine List.pairwise_cons.mpr ⟨fun z hz => ?_, ih hl⟩
      rcases List.mem_cons.mp ((insertByFreq_perm x l).mem_iff.mp hz) with rfl | hz
      · omega
      · exact hy z hz

@[simp] theorem stableOrder_cons (x : WsEntry) (l : List WsEntry) :
    stableOrder (x :: l) = insertByFreq x (stableOrder l) := rfl

@[simp] theorem stableOrder_nil : stableOrder [] = [] := rfl

/-- The ordering of this hardware is one the contract allows (R132). -/
theorem stableOrder_conforming : conformingOrder stableOrder := by
  intro ws
  induction ws with
  | nil => exact ⟨List.Perm.refl _, List.Pairwise.nil⟩
  | cons x ws ih =>
    exact ⟨(insertByFreq_perm x _).trans (ih.1.cons x), insertByFreq_pairwise x _ ih.2⟩

/-! ### The histogram -/

theorem get_histBump (h : Table Word 8) (b c : Byte) :
    (histBump h b).get c = if b = c then h.get c + 1 else h.get c := Table.get_update h b c _

/-- One more byte at the end of the payload is one more increment. -/
theorem histogramOf_append (xs : List Byte) (b : Byte) : histogramOf (xs ++ [b]) = histBump (histogramOf xs) b := by
  simp [histogramOf]

end Sys2Proof.Machine
end

