-- ==== Sys2Proof/Laws/Command.lean ====
section
/-! SUPPORT. The life of a command and the step, said once: what sequencing gives, what `runCommand`, `runAck`, `exec`
and `step` answer, and what every command's body leaves alone. -/

namespace Sys2Proof.Machine

/-! ### Sequencing -/

@[simp] theorem Res.bind_ok {α β : Type} (a : α) (s : State) (k : α → State → Res β) : (Res.ok a s).bind k = k a s := rfl
@[simp] theorem Res.bind_raise {α β : Type} (f : FaultCode) (s : State) (k : α → State → Res β) :
    (Res.raise f s : Res α).bind k = .raise f s := rfl
@[simp] theorem Res.bind_stuck {α β : Type} (r : Fault) (k : α → State → Res β) :
    (Res.stuck r : Res α).bind k = .stuck r := rfl
@[simp] theorem Res.andThen_ok (u : Unit) (s : State) (k : State → Res Unit) : (Res.ok u s).andThen k = k s := rfl
@[simp] theorem Res.andThen_raise (f : FaultCode) (s : State) (k : State → Res Unit) :
    (Res.raise f s : Res Unit).andThen k = .raise f s := rfl
@[simp] theorem Res.andThen_stuck (r : Fault) (k : State → Res Unit) :
    (Res.stuck r : Res Unit).andThen k = .stuck r := rfl

theorem Res.bind_eq_ok {α β : Type} (r : Res α) (k : α → State → Res β) (b : β) (s' : State) (h : r.bind k = .ok b s') :
    ∃ a s, r = .ok a s ∧ k a s = .ok b s' := by
  cases r with
  | ok a s => exact ⟨a, s, rfl, h⟩
  | raise f s => cases h
  | stuck e => cases h

theorem Res.bind_eq_raise {α β : Type} (r : Res α) (k : α → State → Res β) (f : FaultCode) (s' : State)
    (h : r.bind k = .raise f s') : r = .raise f s' ∨ ∃ a s, r = .ok a s ∧ k a s = .raise f s' := by
  cases r with
  | ok a s => exact .inr ⟨a, s, rfl, h⟩
  | raise g s => exact .inl (by cases h; rfl)
  | stuck e => cases h

theorem Res.andThen_eq_ok (r : Res Unit) (k : State → Res Unit) (s' : State) (h : r.andThen k = .ok () s') :
    ∃ s, r = .ok () s ∧ k s = .ok () s' := by
  obtain ⟨⟨⟩, s, h1, h2⟩ := Res.bind_eq_ok _ _ _ _ h
  exact ⟨s, h1, h2⟩

/-! ### Running a command -/

/-- The outcome of an accepted command, from what its body gives (R230, R231, R252). -/
def settle (s0 : State) (r : Res Unit) : Host.Outcome State Fault Refusal :=
  match r with
  | .ok _ s => .next s.flagsCompleted
  | .raise f s => .next (takeFault s0 f s)
  | .stuck e => .fault e

theorem runCommand_ready (body : State → Res Unit) (s : State) (h : s.ready) :
    runCommand body s = settle s (body s.flagsAccepted) := by
  rw [runCommand, h.1, h.2]
  rfl

theorem runCommand_ignored (body : State → Res Unit) (s : State) (h : s.busy = true ∨ s.err = true) :
    runCommand body s = .next s := by
  unfold runCommand
  split
  · rfl
  · split
    · rfl
    · simp_all

theorem runCommand_completes (body : State → Res Unit) (s s1 : State) (h : s.ready)
    (hb : body s.flagsAccepted = .ok () s1) : runCommand body s = .next s1.flagsCompleted := by
  rw [runCommand_ready body s h, hb]
  rfl

theorem runCommand_faults (body : State → Res Unit) (s s1 : State) (f : FaultCode) (h : s.ready)
    (hb : body s.flagsAccepted = .raise f s1) : runCommand body s = .next (takeFault s f s1) := by
  rw [runCommand_ready body s h, hb]
  rfl

/-- Everything a command other than ACK can answer a next state from. -/
theorem runCommand_cases (body : State → Res Unit) (s s' : State) (h : runCommand body s = .next s') :
    ((s.busy = true ∨ s.err = true) ∧ s' = s) ∨
    (s.ready ∧ ∃ s1, body s.flagsAccepted = .ok () s1 ∧ s' = s1.flagsCompleted) ∨
    (s.ready ∧ ∃ f s1, body s.flagsAccepted = .raise f s1 ∧ s' = takeFault s f s1) := by
  by_cases hi : s.busy = true ∨ s.err = true
  · rw [runCommand_ignored body s hi] at h
    exact .inl ⟨hi, (Host.Outcome.next.inj h).symm⟩
  · have hr : s.ready := by
      unfold State.ready
      cases hb : s.busy <;> cases he : s.err <;> simp_all
    rw [runCommand_ready body s hr] at h
    cases hb : body s.flagsAccepted with
    | ok u s1 =>
      rw [hb] at h
      exact .inr (.inl ⟨hr, s1, rfl, (Host.Outcome.next.inj h).symm⟩)
    | raise f s1 =>
      rw [hb] at h
      exact .inr (.inr ⟨hr, f, s1, rfl, (Host.Outcome.next.inj h).symm⟩)
    | stuck e =>
      rw [hb] at h
      cases h

theorem runAck_eq (s : State) (h : s.busy = false) : runAck s = .next s.flagsAcknowledged := by
  rw [runAck, h]
  rfl

theorem runAck_ignored (s : State) (h : s.busy = true) : runAck s = .next s := by
  rw [runAck, h]
  rfl

/-- The refusal of an illegal word: `F_ILLEGAL_CMD` when a command can be accepted, nothing otherwise (R230). -/
theorem rejectWord_ready (s : State) (h : s.ready) : rejectWord s = s.faulted .illegalCmd := by
  unfold rejectWord State.faulted
  simp [h.1, h.2]

theorem rejectWord_ignored (s : State) (h : s.busy = true ∨ s.err = true) : rejectWord s = s := by
  unfold rejectWord
  rcases h with h | h <;> simp [h]

/-- The body each command runs; ACK has none of its own (`runAck`). -/
def bodyOf : Instr → State → Res Unit
  | .nop | .ack => bodyNop
  | .orst => bodyOrst
  | .hist => bodyHist
  | .build => bodyBuild
  | .gen => bodyGen
  | .ser => bodySer
  | .des => bodyDes
  | .pack => bodyPack
  | .unpack => bodyUnpack
  | .wrsize => bodyWrsize
  | .rdsize => bodyRdsize
  | .compress => bodyCompress
  | .decompress => bodyDecompress

@[simp] theorem exec_ack (s : State) : exec .ack s = runAck s := rfl

/-- Every command but ACK is its body inside the same protocol. -/
theorem exec_eq_runCommand (i : Instr) (h : i ≠ .ack) (s : State) : exec i s = runCommand (bodyOf i) s := by
  cases i <;> first | rfl | exact absurd rfl h

/-- What BUILD's body gives; cite it rather than unfolding the 255 iterations. -/
theorem bodyBuild_eq (s : State) : bodyBuild s = .ok () { s with
    node := (buildWith stableOrder .leftIsSecondToLast s.hist).2
    root := rootOf (buildWith stableOrder .leftIsSecondToLast s.hist).1
    ncount := 511, tvalid := true } := rfl

/-- The states between the parts of a COMPRESS that completes. -/
theorem bodyCompress_eq_ok (s u : State) (h : bodyCompress s = .ok () u) :
    ∃ s1 s2 s3 s4 s5, bodyHist s.startCompress = .ok () s1 ∧ bodyBuild s1 = .ok () s2 ∧ bodyGen s2 = .ok () s3 ∧
      bodyWrsize s3 = .ok () s4 ∧ bodySer s4 = .ok () s5 ∧ bodyPack s5 = .ok () u := by
  unfold bodyCompress at h
  generalize bodyBuild = build at h ⊢
  obtain ⟨s1, h1, h⟩ := Res.andThen_eq_ok _ _ _ h
  obtain ⟨s2, h2, h⟩ := Res.andThen_eq_ok _ _ _ h
  obtain ⟨s3, h3, h⟩ := Res.andThen_eq_ok _ _ _ h
  obtain ⟨s4, h4, h⟩ := Res.andThen_eq_ok _ _ _ h
  obtain ⟨s5, h5, h6⟩ := Res.andThen_eq_ok _ _ _ h
  exact ⟨s1, s2, s3, s4, s5, h1, h2, h3, h4, h5, h6⟩

/-- The states between the parts of a DECOMPRESS that completes. -/
theorem bodyDecompress_eq_ok (s u : State) (h : bodyDecompress s = .ok () u) :
    ∃ s1 s2, bodyRdsize s.startDecompress = .ok () s1 ∧ bodyDes s1 = .ok () s2 ∧ bodyUnpack s2 = .ok () u := by
  unfold bodyDecompress at h
  obtain ⟨s1, h1, h⟩ := Res.andThen_eq_ok _ _ _ h
  obtain ⟨s2, h2, h3⟩ := Res.andThen_eq_ok _ _ _ h
  exact ⟨s1, s2, h1, h2, h3⟩

/-! ### The step -/

/-- The state an operation runs in: that operation taken, the last answer gone. -/
abbrev taken (rest : List PortOp) (s : State) : State := { s with port := rest, reply := .none }

theorem step_idle (s : State) (h : s.port = []) : step s = .next s := by
  simp [step, nextPortOp, h]

theorem classify_commandOp (w : Word) : classify (commandOp w) = .command w := rfl

theorem step_command (s : State) (w : Word) (rest : List PortOp) (h : s.port = commandOp w :: rest) :
    step s = submit w (taken rest s) := by
  simp [step, nextPortOp, h, classify_commandOp]

/-- A port operation that is no write of `CMD` is a port access. -/
theorem step_access (s : State) (op : PortOp) (rest : List PortOp) (h : s.port = op :: rest)
    (hc : classify op = .access op) : step s = .next (portAccess op (taken rest s)) := by
  simp [step, nextPortOp, h, hc]

/-- Every port operation is one or the other. -/
theorem classify_cases (op : PortOp) : classify op = .access op ∨ ∃ w, classify op = .command w := by
  cases op with
  | write32 a v =>
    by_cases h : locate32 a = .reg .cmd
    · exact .inr ⟨v, by simp [classify, h]⟩
    · exact .inl (by simp [classify, h])
  | _ => exact .inl rfl

/-- Everything a step can be. -/
theorem step_cases (s : State) :
    (s.port = [] ∧ step s = .next s) ∨
    (∃ op w rest, s.port = op :: rest ∧ classify op = .command w ∧ step s = submit w (taken rest s)) ∨
    (∃ op rest, s.port = op :: rest ∧ classify op = .access op ∧ step s = .next (portAccess op (taken rest s))) := by
  cases hp : s.port with
  | nil => exact .inl ⟨rfl, step_idle s hp⟩
  | cons op rest =>
    rcases classify_cases op with h | ⟨w, h⟩
    · exact .inr (.inr ⟨op, rest, rfl, h, step_access s op rest hp h⟩)
    · exact .inr (.inl ⟨op, w, rest, rfl, h, by simp [step, nextPortOp, hp, h]⟩)

/-- Everything a submitted word can do. -/
theorem submit_cases (w : Word) (s : State) :
    (∃ i, decode w = .ok i ∧ submit w s = exec i s) ∨
    ((∃ e, decode w = .error e) ∧ submit w s = .next (rejectWord s)) := by
  cases h : decode w with
  | ok i => exact .inl ⟨i, rfl, by simp [submit, h]⟩
  | error e => exact .inr ⟨⟨e, rfl⟩, by simp [submit, h]⟩

/-- What a step runs after `withFetchWord`: the submitted word, on the state with the last answer gone. -/
theorem step_withFetchWord (s : State) (nbits w : Nat) :
    step (s.withFetchWord nbits w) = submit (tableWord nbits w) { s with reply := .none } :=
  step_command _ _ s.port rfl

/-! ### What no body touches -/

/-- Both states agree on what no command's body writes. -/
structure SameHostSide (s s' : State) : Prop where
  params : s'.params = s.params
  busy : s'.busy = s.busy
  done : s'.done = s.done
  err : s'.err = s.err
  fcode : s'.fcode = s.fcode
  ie : s'.ie = s.ie
  ilen : s'.ilen = s.ilen
  ibuf : s'.ibuf = s.ibuf
  port : s'.port = s.port
  reply : s'.reply = s.reply
  draws : s'.draws = s.draws
  epoch : s'.epoch = s.epoch

theorem SameHostSide.refl (s : State) : SameHostSide s s := ⟨rfl, rfl, rfl, rfl, rfl, rfl, rfl, rfl, rfl, rfl, rfl, rfl⟩

theorem SameHostSide.trans {s t u : State} (h : SameHostSide s t) (k : SameHostSide t u) : SameHostSide s u :=
  ⟨k.params.trans h.params, k.busy.trans h.busy, k.done.trans h.done, k.err.trans h.err, k.fcode.trans h.fcode,
    k.ie.trans h.ie, k.ilen.trans h.ilen, k.ibuf.trans h.ibuf, k.port.trans h.port, k.reply.trans h.reply,
    k.draws.trans h.draws, k.epoch.trans h.epoch⟩

/-- Whatever a body ends in, the host side is as it was. -/
def Res.keepsHostSide {α : Type} (s : State) : Res α → Prop
  | .ok _ s' => SameHostSide s s'
  | .raise _ s' => SameHostSide s s'
  | .stuck _ => True

theorem Res.keepsHostSide_bind {α β : Type} {s : State} {r : Res α} {k : α → State → Res β}
    (h : r.keepsHostSide s) (hk : ∀ a t, SameHostSide s t → (k a t).keepsHostSide s) : (r.bind k).keepsHostSide s := by
  cases r with
  | ok a t => exact hk a t h
  | raise f t => exact h
  | stuck e => trivial

theorem Res.keepsHostSide_trans {α : Type} {s t : State} {r : Res α} (h : SameHostSide s t) (hr : r.keepsHostSide t) :
    r.keepsHostSide s := by
  cases r with
  | ok a u => exact h.trans hr
  | raise f u => exact h.trans hr
  | stuck e => trivial

theorem checkIn_keeps (s : State) : (checkIn s).keepsHostSide s := by
  unfold checkIn
  split <;> exact SameHostSide.refl s

theorem ibufNext_keeps (f : FaultCode) (s : State) : (ibufNext f s).keepsHostSide s := by
  unfold ibufNext
  split <;> exact ⟨rfl, rfl, rfl, rfl, rfl, rfl, rfl, rfl, rfl, rfl, rfl, rfl⟩

theorem obufAppend_keeps (b : Byte) (s : State) : (obufAppend b s).keepsHostSide s := by
  unfold obufAppend
  split <;> exact ⟨rfl, rfl, rfl, rfl, rfl, rfl, rfl, rfl, rfl, rfl, rfl, rfl⟩

theorem obufAppendAll_keeps (bs : List Byte) (s : State) : (obufAppendAll bs s).keepsHostSide s := by
  unfold obufAppendAll
  split <;> exact ⟨rfl, rfl, rfl, rfl, rfl, rfl, rfl, rfl, rfl, rfl, rfl, rfl⟩

theorem bodyNop_keeps (s : State) : (bodyNop s).keepsHostSide s := SameHostSide.refl s

theorem bodyOrst_keeps (s : State) : (bodyOrst s).keepsHostSide s :=
  ⟨rfl, rfl, rfl, rfl, rfl, rfl, rfl, rfl, rfl, rfl, rfl, rfl⟩

theorem bodyHist_keeps (s : State) : (bodyHist s).keepsHostSide s :=
  Res.keepsHostSide_bind (checkIn_keeps s) (fun _ _ h => h.trans ⟨rfl, rfl, rfl, rfl, rfl, rfl, rfl, rfl, rfl, rfl, rfl, rfl⟩)

theorem bodyBuild_keeps (s : State) : (bodyBuild s).keepsHostSide s :=
  ⟨rfl, rfl, rfl, rfl, rfl, rfl, rfl, rfl, rfl, rfl, rfl, rfl⟩

theorem bodyGen_keeps (s : State) : (bodyGen s).keepsHostSide s := by
  unfold bodyGen
  split
  · exact SameHostSide.refl s
  · split
    · exact SameHostSide.refl s
    · split
      · exact ⟨rfl, rfl, rfl, rfl, rfl, rfl, rfl, rfl, rfl, rfl, rfl, rfl⟩
      · trivial

theorem bodySer_keeps (s : State) : (bodySer s).keepsHostSide s := by
  unfold bodySer
  split
  · exact SameHostSide.refl s
  · split
    · exact obufAppendAll_keeps _ s
    · trivial

theorem allocNode_sameHostSide (p : NodeIdx) (s : State) : SameHostSide s (allocNode p s) :=
  ⟨rfl, rfl, rfl, rfl, rfl, rfl, rfl, rfl, rfl, rfl, rfl, rfl⟩

theorem updateNode_sameHostSide (i : NodeIdx) (f : Node → Node) (s : State) : SameHostSide s (s.updateNode i f) :=
  ⟨rfl, rfl, rfl, rfl, rfl, rfl, rfl, rfl, rfl, rfl, rfl, rfl⟩

theorem dropTree_sameHostSide (s : State) : SameHostSide s s.dropTree :=
  ⟨rfl, rfl, rfl, rfl, rfl, rfl, rfl, rfl, rfl, rfl, rfl, rfl⟩

theorem parse_keeps (k : Nat) (p : NodeIdx) (s : State) : (parse k p s).keepsHostSide s := by
  induction k generalizing p s with
  | zero => trivial
  | succ k ih =>
    refine Res.keepsHostSide_bind (ibufNext_keeps _ s) (fun flag t ht => ?_)
    dsimp only
    split
    · exact ht
    · split
      · exact ht
      · have ha := ht.trans (allocNode_sameHostSide p t)
        split
        · refine Res.keepsHostSide_bind (Res.keepsHostSide_trans ha (ibufNext_keeps _ _)) (fun b u hu => ?_)
          exact hu.trans (updateNode_sameHostSide _ _ u)
        · refine Res.keepsHostSide_bind (Res.keepsHostSide_trans ha (ih _ _)) (fun l u hu => ?_)
          refine Res.keepsHostSide_bind
            (Res.keepsHostSide_trans (hu.trans (updateNode_sameHostSide _ _ u)) (ih _ _)) (fun r v hv => ?_)
          exact hv.trans (updateNode_sameHostSide _ _ v)

theorem bodyDes_keeps (s : State) : (bodyDes s).keepsHostSide s := by
  refine Res.keepsHostSide_bind (checkIn_keeps s) (fun _ t ht => ?_)
  have hp := Res.keepsHostSide_trans (ht.trans (dropTree_sameHostSide t)) (parse_keeps 512 NULL t.dropTree)
  split
  · rename_i r u heq
    rw [heq] at hp
    exact hp.trans ⟨rfl, rfl, rfl, rfl, rfl, rfl, rfl, rfl, rfl, rfl, rfl, rfl⟩
  · rename_i f u heq
    rw [heq] at hp
    exact hp.trans (dropTree_sameHostSide u)
  · trivial

theorem packBits_keeps (bs : List Bool) (p : PackAcc) (s : State) : (packBits bs p s).keepsHostSide s := by
  induction bs generalizing p s with
  | nil => exact SameHostSide.refl s
  | cons b bs ih =>
    unfold packBits
    split
    · exact Res.keepsHostSide_bind (obufAppend_keeps _ s) (fun _ t ht => Res.keepsHostSide_trans ht (ih _ t))
    · exact ih _ s

theorem packSymbols_keeps (xs : List Byte) (p : PackAcc) (s : State) : (packSymbols xs p s).keepsHostSide s := by
  induction xs generalizing p s with
  | nil => exact SameHostSide.refl s
  | cons x xs ih =>
    unfold packSymbols
    split
    · exact SameHostSide.refl s
    · exact Res.keepsHostSide_bind (packBits_keeps _ p s) (fun q t ht => Res.keepsHostSide_trans ht (ih q t))

theorem flushBits_keeps (p : PackAcc) (s : State) : (flushBits p s).keepsHostSide s := by
  unfold flushBits
  split
  · exact obufAppend_keeps _ s
  · exact SameHostSide.refl s

theorem bodyPack_keeps (s : State) : (bodyPack s).keepsHostSide s :=
  Res.keepsHostSide_bind (checkIn_keeps s) (fun _ t ht =>
    Res.keepsHostSide_bind (Res.keepsHostSide_trans ht (packSymbols_keeps _ _ t)) (fun p u hu =>
      Res.keepsHostSide_trans hu (flushBits_keeps p u)))

theorem bodyWrsize_keeps (s : State) : (bodyWrsize s).keepsHostSide s := obufAppendAll_keeps _ s

theorem fetchBits_keeps (w : Walk) (s : State) : (fetchBits w s).keepsHostSide s := by
  unfold fetchBits
  split
  · exact Res.keepsHostSide_bind (ibufNext_keeps _ s) (fun _ _ h => h)
  · exact SameHostSide.refl s

theorem consumeBit_keeps (w : Walk) (s : State) : (consumeBit w s).keepsHostSide s := by
  unfold consumeBit
  split
  · trivial
  · dsimp only
    split
    · trivial
    · split
      · exact Res.keepsHostSide_bind (obufAppend_keeps _ s) (fun _ _ h => h)
      · exact SameHostSide.refl s

theorem unpackLoop_keeps (k : Nat) (w : Walk) (s : State) : (unpackLoop k w s).keepsHostSide s := by
  induction k generalizing w s with
  | zero => trivial
  | succ k ih =>
    unfold unpackLoop
    split
    · refine Res.keepsHostSide_bind (fetchBits_keeps w s) (fun w t ht => ?_)
      exact Res.keepsHostSide_bind (Res.keepsHostSide_trans ht (consumeBit_keeps w t)) (fun w u hu =>
        Res.keepsHostSide_trans hu (ih w u))
    · exact SameHostSide.refl s

theorem bodyUnpack_keeps (s : State) : (bodyUnpack s).keepsHostSide s := by
  unfold bodyUnpack
  split
  · exact SameHostSide.refl s
  · refine Res.keepsHostSide_bind (checkIn_keeps s) (fun _ t ht => ?_)
    split
    · exact ht
    · exact Res.keepsHostSide_trans ht (unpackLoop_keeps _ _ t)

theorem bodyRdsize_keeps (s : State) : (bodyRdsize s).keepsHostSide s := by
  refine Res.keepsHostSide_bind (checkIn_keeps s) (fun _ t ht => ?_)
  dsimp only
  split
  · exact ht
  · exact ht.trans ⟨rfl, rfl, rfl, rfl, rfl, rfl, rfl, rfl, rfl, rfl, rfl, rfl⟩

/-- One body after another keeps what both keep. -/
theorem Res.keepsHostSide_andThen {s : State} {r : Res Unit} {k : State → Res Unit} (h : r.keepsHostSide s)
    (hk : ∀ t, (k t).keepsHostSide t) : (r.andThen k).keepsHostSide s :=
  Res.keepsHostSide_bind h (fun _ t ht => Res.keepsHostSide_trans ht (hk t))

theorem bodyCompress_keeps (s : State) : (bodyCompress s).keepsHostSide s := by
  have h0 : SameHostSide s s.startCompress := ⟨rfl, rfl, rfl, rfl, rfl, rfl, rfl, rfl, rfl, rfl, rfl, rfl⟩
  unfold bodyCompress
  refine Res.keepsHostSide_andThen (Res.keepsHostSide_trans h0 (bodyHist_keeps _)) (fun t => ?_)
  have hb := bodyBuild_keeps t
  generalize bodyBuild t = r at hb ⊢
  refine Res.keepsHostSide_andThen hb (fun t => ?_)
  refine Res.keepsHostSide_andThen (bodyGen_keeps t) (fun t => ?_)
  refine Res.keepsHostSide_andThen (bodyWrsize_keeps t) (fun t => ?_)
  exact Res.keepsHostSide_andThen (bodySer_keeps t) bodyPack_keeps

theorem bodyDecompress_keeps (s : State) : (bodyDecompress s).keepsHostSide s := by
  have h0 : SameHostSide s s.startDecompress := ⟨rfl, rfl, rfl, rfl, rfl, rfl, rfl, rfl, rfl, rfl, rfl, rfl⟩
  exact Res.keepsHostSide_andThen (Res.keepsHostSide_trans h0 (bodyRdsize_keeps _)) (fun t =>
    Res.keepsHostSide_andThen (bodyDes_keeps t) bodyUnpack_keeps)

/-- No command's body touches the host's side of the state. -/
theorem bodyOf_keeps (i : Instr) (s : State) : (bodyOf i s).keepsHostSide s := by
  cases i
  · exact bodyNop_keeps s
  · exact bodyNop_keeps s
  · exact bodyOrst_keeps s
  · exact bodyHist_keeps s
  · exact bodyBuild_keeps s
  · exact bodyGen_keeps s
  · exact bodySer_keeps s
  · exact bodyDes_keeps s
  · exact bodyPack_keeps s
  · exact bodyUnpack_keeps s
  · exact bodyWrsize_keeps s
  · exact bodyRdsize_keeps s
  · exact bodyCompress_keeps s
  · exact bodyDecompress_keeps s

/-- What a body that completes leaves on the host's side. -/
theorem bodyOf_ok (i : Instr) (s s' : State) (h : bodyOf i s = .ok () s') : SameHostSide s s' := by
  have := bodyOf_keeps i s
  rwa [h] at this

/-- What a body that raises a fault leaves on the host's side. -/
theorem bodyOf_raise (i : Instr) (s s' : State) (f : FaultCode) (h : bodyOf i s = .raise f s') : SameHostSide s s' := by
  have := bodyOf_keeps i s
  rwa [h] at this

/-- A command issued right after another has completed runs its body in the state that one's body left: completion and
the next acceptance undo each other. -/
theorem exec_flagsCompleted (i : Instr) (hi : i ≠ .ack) (s s' : State) (hb : s.busy = true) (hd : s.done = false)
    (he : s.err = false) (h : bodyOf i s = .ok () s') : exec i s.flagsCompleted = .next s'.flagsCompleted := by
  have hs : s.flagsCompleted.flagsAccepted = s := by
    cases s
    simp only at hb hd
    subst hb hd
    rfl
  rw [exec_eq_runCommand i hi]
  exact runCommand_completes _ _ _ ⟨rfl, he⟩ (by rw [hs, h])

end Sys2Proof.Machine
end

