-- ==== Sys2Proof/Laws/Memory.lean ====
section
/-! SUPPORT. The laws of a byte buffer: a read after a write, what a write leaves alone, that every operation keeps the
canonical form, and that equal contents in canonical form are equal data. -/

namespace Sys2Proof.Machine

@[simp] theorem Memory.read?_nil (i : Nat) : Memory.read? [] i = none := rfl

/-- A read after a write of one byte. -/
theorem Memory.read?_write (m : Memory) (i j : Nat) (v : Byte) :
    (m.write i v).read? j = if i = j then some v else m.read? j := by
  induction m with
  | nil => simp [Memory.write, Memory.read?]
  | cons c m ih =>
    obtain ⟨a, b⟩ := c
    by_cases h1 : a < i
    · rw [Memory.write, if_pos h1]
      by_cases h2 : a = j
      · simp [Memory.read?, h2, show i ≠ j by omega]
      · simp [Memory.read?, h2, ih]
    · by_cases h2 : a = i
      · subst h2
        by_cases h3 : a = j <;> simp [Memory.write, Memory.read?, h3]
      · rw [Memory.write, if_neg h1, if_neg h2]
        by_cases h3 : i = j <;> simp [Memory.read?, h3]

/-- A written index holds what was written. -/
theorem Memory.mem_write (m : Memory) (i : Nat) (v : Byte) (c : Host.Cell) (h : c ∈ m.write i v) :
    c = (i, v) ∨ c ∈ m := by
  induction m with
  | nil => simpa [Memory.write] using h
  | cons x m ih =>
    obtain ⟨a, b⟩ := x
    unfold Memory.write at h
    split at h
    · rcases List.mem_cons.mp h with h | h
      · exact .inr (h ▸ List.mem_cons_self)
      · exact (ih h).imp_right (List.mem_cons_of_mem _)
    · split at h
      · exact (List.mem_cons.mp h).imp_right (List.mem_cons_of_mem _)
      · exact List.mem_cons.mp h

/-- A write keeps the canonical form. -/
theorem Memory.write_wf (m : Memory) (i : Nat) (v : Byte) (h : m.wf) : (m.write i v).wf := by
  induction m with
  | nil => simp [Memory.write, Memory.wf]
  | cons c m ih =>
    obtain ⟨a, b⟩ := c
    obtain ⟨hc, hm⟩ := List.pairwise_cons.mp h
    unfold Memory.write
    split
    · rename_i hlt
      refine List.pairwise_cons.mpr ⟨fun y hy => ?_, ih hm⟩
      rcases Memory.mem_write m i v y hy with rfl | hy
      · exact hlt
      · exact hc y hy
    · split
      · rename_i hlt heq
        subst heq
        exact List.pairwise_cons.mpr ⟨hc, hm⟩
      · rename_i hlt hne
        have hia : i < a := by omega
        refine List.pairwise_cons.mpr ⟨fun y hy => ?_, h⟩
        rcases List.mem_cons.mp hy with rfl | hy
        · exact hia
        · exact hia.trans (hc y hy)

theorem Memory.read?_append (m n : Memory) (j : Nat) : (Memory.read? (m ++ n) j) = (m.read? j).or (n.read? j) := by
  induction m with
  | nil => rfl
  | cons c m ih =>
    obtain ⟨a, b⟩ := c
    by_cases h : a = j <;> simp [Memory.read?, h, ih]

theorem Memory.read?_filter (m : Memory) (p : Nat → Bool) (j : Nat) :
    Memory.read? (m.filter (fun c => p c.1)) j = bif p j then m.read? j else none := by
  induction m with
  | nil => cases h : p j <;> simp [Memory.read?]
  | cons c m ih =>
    obtain ⟨a, b⟩ := c
    cases ha : p a
    · rw [List.filter_cons_of_neg (by simp [ha]), ih]
      by_cases haj : a = j
      · subst haj
        simp [ha]
      · simp [Memory.read?, haj]
    · rw [List.filter_cons_of_pos (by simp [ha])]
      by_cases haj : a = j
      · subst haj
        simp [Memory.read?, ha]
      · simp [Memory.read?, haj, ih]

theorem read?_cellsFrom (a : Nat) (bs : List Byte) (j : Nat) :
    Memory.read? (cellsFrom a bs) j = if a ≤ j then bs[j - a]? else none := by
  induction bs generalizing a with
  | nil => simp [cellsFrom]
  | cons b bs ih =>
    by_cases h : a = j
    · subst h
      simp [cellsFrom, Memory.read?]
    · by_cases h2 : a ≤ j
      · have h3 : j - a = (j - (a + 1)) + 1 := by omega
        simp [cellsFrom, Memory.read?, h, ih, h2, show a + 1 ≤ j by omega, h3]
      · simp [cellsFrom, Memory.read?, h, ih, h2, show ¬ a + 1 ≤ j by omega]

/-- A read after a write of consecutive bytes. -/
theorem Memory.read?_writeAll (m : Memory) (a : Nat) (bs : List Byte) (j : Nat) :
    (m.writeAll a bs).read? j = if a ≤ j ∧ j < a + bs.length then bs[j - a]? else m.read? j := by
  have h1 := Memory.read?_filter m (fun x => decide (x < a)) j
  have h2 := Memory.read?_filter m (fun x => decide (a + bs.length ≤ x)) j
  rw [Memory.writeAll, Memory.read?_append, Memory.read?_append, h1, h2, read?_cellsFrom]
  by_cases h3 : j < a
  · simp [h3, show ¬ a ≤ j by omega, show ¬ a + bs.length ≤ j by omega]
  · by_cases h4 : j < a + bs.length
    · have h5 : (bs[j - a]?).isSome := by simp; omega
      obtain ⟨b, hb⟩ := Option.isSome_iff_exists.mp h5
      simp [h3, show a ≤ j by omega, h4, hb]
    · have h7 : bs[j - a]? = none := by simp; omega
      simp [h3, h7, show a ≤ j by omega, show a + bs.length ≤ j by omega, h4]

theorem mem_cellsFrom (a : Nat) (bs : List Byte) (c : Host.Cell) (h : c ∈ cellsFrom a bs) :
    a ≤ c.1 ∧ c.1 < a + bs.length := by
  induction bs generalizing a with
  | nil => simp [cellsFrom] at h
  | cons b bs ih =>
    rcases List.mem_cons.mp h with rfl | h
    · simp
    · have := ih (a + 1) h
      simp only [List.length_cons]
      omega

theorem cellsFrom_wf (a : Nat) (bs : List Byte) : Memory.wf (cellsFrom a bs) := by
  induction bs generalizing a with
  | nil => simp [cellsFrom, Memory.wf]
  | cons b bs ih =>
    refine List.pairwise_cons.mpr ⟨fun y hy => ?_, ih (a + 1)⟩
    have := mem_cellsFrom (a + 1) bs y hy
    show a < y.1
    omega

/-- A write of consecutive bytes keeps the canonical form. -/
theorem Memory.writeAll_wf (m : Memory) (a : Nat) (bs : List Byte) (h : m.wf) : (m.writeAll a bs).wf := by
  refine List.pairwise_append.mpr ⟨List.pairwise_append.mpr ⟨h.filter _, cellsFrom_wf a bs, ?_⟩, h.filter _, ?_⟩
  · intro x hx y hy
    have hx := (List.mem_filter.mp hx).2
    have hy := mem_cellsFrom a bs y hy
    simp only [decide_eq_true_eq] at hx
    omega
  · intro x hx y hy
    have hy := (List.mem_filter.mp hy).2
    simp only [decide_eq_true_eq] at hy
    rcases List.mem_append.mp hx with hx | hx
    · have hx := (List.mem_filter.mp hx).2
      simp only [decide_eq_true_eq] at hx
      omega
    · have hx := mem_cellsFrom a bs x hx
      omega

theorem Memory.mem_writeAll (m : Memory) (a : Nat) (bs : List Byte) (c : Host.Cell) (h : c ∈ m.writeAll a bs) :
    (a ≤ c.1 ∧ c.1 < a + bs.length) ∨ c ∈ m := by
  rcases List.mem_append.mp h with h | h
  · rcases List.mem_append.mp h with h | h
    · exact .inr (List.mem_filter.mp h).1
    · exact .inl (mem_cellsFrom a bs c h)
  · exact .inr (List.mem_filter.mp h).1

theorem Memory.read?_eq_none (m : Memory) (i : Nat) (h : ∀ c ∈ m, c.1 ≠ i) : m.read? i = none := by
  induction m with
  | nil => rfl
  | cons c m ih =>
    obtain ⟨a, b⟩ := c
    have ha : a ≠ i := h (a, b) List.mem_cons_self
    simp [Memory.read?, ha, ih (fun c hc => h c (List.mem_cons_of_mem _ hc))]

theorem Memory.mem_of_read? (m : Memory) (i : Nat) (b : Byte) (h : m.read? i = some b) : (i, b) ∈ m := by
  induction m with
  | nil => simp at h
  | cons c m ih =>
    obtain ⟨a, v⟩ := c
    by_cases ha : a = i
    · subst ha
      have hv : v = b := by simpa [Memory.read?] using h
      exact hv ▸ List.mem_cons_self
    · exact List.mem_cons_of_mem _ (ih (by simpa [Memory.read?, ha] using h))

/-- In canonical form every listed byte is the one read at its index. -/
theorem Memory.read?_of_mem (m : Memory) (hm : m.wf) (i : Nat) (b : Byte) (h : (i, b) ∈ m) : m.read? i = some b := by
  induction m with
  | nil => simp at h
  | cons c m ih =>
    obtain ⟨a, v⟩ := c
    obtain ⟨hc, hm⟩ := List.pairwise_cons.mp hm
    rcases List.mem_cons.mp h with h | h
    · obtain ⟨rfl, rfl⟩ := Prod.mk.inj h
      simp [Memory.read?]
    · have : a < i := hc (i, b) h
      simp [Memory.read?, show a ≠ i by omega, ih hm h]

/-- Equal contents in canonical form are equal data. -/
theorem Memory.ext_read? (m n : Memory) (hm : m.wf) (hn : n.wf) (h : ∀ i, m.read? i = n.read? i) : m = n := by
  have mem_iff : ∀ c : Host.Cell, c ∈ m ↔ c ∈ n := by
    intro c
    obtain ⟨i, b⟩ := c
    constructor
    · intro hc
      exact n.mem_of_read? i b (h i ▸ m.read?_of_mem hm i b hc)
    · intro hc
      exact m.mem_of_read? i b ((h i).symm ▸ n.read?_of_mem hn i b hc)
  have nodup : ∀ l : Memory, l.wf → l.Nodup := fun l hl => hl.imp (fun hxy he => by rw [he] at hxy; omega)
  have hp : m.Perm n := (List.perm_ext_iff_of_nodup (nodup m hm) (nodup n hn)).mpr mem_iff
  exact hp.eq_of_pairwise (fun a b _ _ h1 h2 => by omega) hm hn

/-- Writing consecutive bytes at once is writing them one by one. -/
theorem Memory.writeAll_eq_turns (m : Memory) (a : Nat) (b : Byte) (bs : List Byte) (hm : m.wf) :
    m.writeAll a (b :: bs) = (m.write a b).writeAll (a + 1) bs := by
  refine Memory.ext_read? _ _ (Memory.writeAll_wf m a _ hm)
    (Memory.writeAll_wf _ _ _ (Memory.write_wf m a b hm)) (fun j => ?_)
  rw [Memory.read?_writeAll, Memory.read?_writeAll, Memory.read?_write]
  by_cases h1 : a = j
  · subst h1
    simp
  · by_cases h2 : a + 1 ≤ j ∧ j < a + 1 + bs.length
    · have h3 : j - a = (j - (a + 1)) + 1 := by omega
      simp [h2, h3, show a ≤ j by omega, show j < a + (bs.length + 1) by omega]
    · have h4 : ¬ (a ≤ j ∧ j < a + (b :: bs).length) := by simp only [List.length_cons]; omega
      simp only [h2, h4, h1, if_false]

/-- The buffers of the reset state are in canonical form. -/
theorem State.reset_buffers_wf : State.reset.ibuf.wf ∧ State.reset.obuf.wf := ⟨List.Pairwise.nil, List.Pairwise.nil⟩

@[simp] theorem Memory.writeAll_nil (m : Memory) (a : Nat) (hm : m.wf) : m.writeAll a [] = m :=
  Memory.ext_read? _ _ (Memory.writeAll_wf m a _ hm) hm (fun j => by
    rw [Memory.read?_writeAll]
    simp only [List.length_nil, Nat.add_zero]
    rw [if_neg (by omega)])

end Sys2Proof.Machine
end

