-- ==== Sys2Proof/Laws/Streams.lean ====
section
/-! SUPPORT. The laws of the two byte streams: what `checkIn`, `ibufNext`, `obufAppend` and `obufAppendAll` can do, the
payload's bytes, and that `obufAppendAll` is `ObufAppend` of each byte in turn. -/

namespace Sys2Proof.Machine

/-! ### The input stream -/

theorem State.inputInRange_iff (s : State) :
    s.inputInRange = true ↔ s.ilen.toNat ≤ s.params.ibufCap ∧ s.ipos.toNat ≤ s.ilen.toNat := by
  simp [State.inputInRange]

theorem checkIn_ok (s : State) (h1 : s.ilen.toNat ≤ s.params.ibufCap) (h2 : s.ipos.toNat ≤ s.ilen.toNat) :
    checkIn s = .ok () s := if_pos (s.inputInRange_iff.mpr ⟨h1, h2⟩)

theorem checkIn_raise (s : State) (h : ¬ (s.ilen.toNat ≤ s.params.ibufCap ∧ s.ipos.toNat ≤ s.ilen.toNat)) :
    checkIn s = .raise .iRange s := if_neg (fun hr => h (s.inputInRange_iff.mp hr))

theorem ibufNext_ok (f : FaultCode) (s : State) (h : s.ipos.toNat < s.ilen.toNat) :
    ibufNext f s = .ok (s.ibufByte s.ipos.toNat) { s with ipos := s.ipos + 1 } := if_neg (by omega)

theorem ibufNext_raise (f : FaultCode) (s : State) (h : s.ilen.toNat ≤ s.ipos.toNat) :
    ibufNext f s = .raise f s := if_pos h

@[simp] theorem State.payload_length (s : State) : s.payload.length = s.ilen.toNat - s.ipos.toNat := by
  simp [State.payload]

theorem State.payload_getElem (s : State) (k : Nat) (h : k < s.payload.length) :
    s.payload[k] = s.ibufByte (s.ipos.toNat + k) := by
  simp [State.payload]

/-- Moving `IPOS` past a byte that is there does not wrap. -/
theorem toNat_add_one_of_lt (a b : Word) (h : a.toNat < b.toNat) : (a + 1).toNat = a.toNat + 1 := by
  have := b.isLt
  have h1 : (1 : Word).toNat = 1 := rfl
  rw [BitVec.toNat_add, h1]
  omega

/-- The first payload byte is the byte at `IPOS`, the rest is the payload from the next position. -/
theorem State.payload_cons (s : State) (h : s.ipos.toNat < s.ilen.toNat) :
    s.payload = s.ibufByte s.ipos.toNat :: State.payload { s with ipos := s.ipos + 1 } := by
  have h1 := toNat_add_one_of_lt s.ipos s.ilen h
  obtain ⟨k, hk⟩ : ∃ k, s.ilen.toNat - s.ipos.toNat = k + 1 := ⟨s.ilen.toNat - s.ipos.toNat - 1, by omega⟩
  unfold State.payload
  simp only [h1, hk, show s.ilen.toNat - (s.ipos.toNat + 1) = k by omega, List.range'_succ, List.map_cons]
  rfl

theorem State.payload_nil (s : State) (h : s.ilen.toNat ≤ s.ipos.toNat) : s.payload = [] := by
  simp [State.payload, show s.ilen.toNat - s.ipos.toNat = 0 by omega]

/-- A payload that is the whole input. -/
theorem State.payload_eq_input (s : State) (h : s.ipos = 0) : s.payload = s.input := by
  simp [State.payload, State.input, h, List.range_eq_range']

/-- A write of the host's byte, read anywhere (R64). -/
theorem State.ibufByte_write (s : State) (i j : Nat) (b : Byte) :
    State.ibufByte { s with ibuf := s.ibuf.write i b } j = if i = j then b else s.ibufByte j := by
  unfold State.ibufByte
  rw [Memory.read?_write]
  split <;> rfl

/-! ### The output stream -/

theorem obufAppend_ok (b : Byte) (s : State) (h : s.olen.toNat ≠ s.params.obufCap) :
    obufAppend b s = .ok () { s with obuf := s.obuf.write s.olen.toNat b, olen := s.olen + 1 } := if_neg h

theorem obufAppend_raise (b : Byte) (s : State) (h : s.olen.toNat = s.params.obufCap) :
    obufAppend b s = .raise .obufFull s := if_pos h

theorem obufAppendAll_fits (bs : List Byte) (s : State) (h : s.olen.toNat + bs.length ≤ s.params.obufCap) :
    obufAppendAll bs s = .ok () { s with
      obuf := s.obuf.writeAll s.olen.toNat bs, olen := s.olen + BitVec.ofNat 32 bs.length } := if_neg (by omega)

theorem obufAppendAll_raise (bs : List Byte) (s : State) (h1 : s.olen.toNat ≤ s.params.obufCap)
    (h2 : s.params.obufCap < s.olen.toNat + bs.length) : obufAppendAll bs s = .raise .obufFull s := if_pos ⟨h1, h2⟩

/-- `ObufAppend` of each byte in turn, as R170 and R195 write it. -/
def obufAppendEach : List Byte → State → Res Unit
  | [], s => .ok () s
  | b :: bs, s => (obufAppend b s).bind (fun _ s => obufAppendEach bs s)

/-- Where `OLEN` is within the capacity the appends one by one complete exactly as `obufAppendAll` says, or end in
`F_OBUF_FULL`. -/
theorem obufAppendEach_eq (bs : List Byte) (s : State) (hp : s.params.wf = true) (hm : s.obuf.wf)
    (ho : s.olen.toNat ≤ s.params.obufCap) :
    (s.olen.toNat + bs.length ≤ s.params.obufCap ∧ obufAppendEach bs s = obufAppendAll bs s) ∨
    (s.params.obufCap < s.olen.toNat + bs.length ∧ ∃ s', obufAppendEach bs s = .raise .obufFull s') := by
  have hcap : s.params.obufCap ≤ 2 ^ 28 := by
    simp only [Params.wf, Bool.and_eq_true, decide_eq_true_eq] at hp
    exact hp.2
  induction bs generalizing s with
  | nil =>
    refine .inl ⟨by simpa using ho, ?_⟩
    rw [obufAppendAll_fits _ _ (by simpa using ho), Memory.writeAll_nil _ _ hm]
    simp [obufAppendEach]
  | cons b bs ih =>
    by_cases hfull : s.olen.toNat = s.params.obufCap
    · refine .inr ⟨by simp [hfull], s, ?_⟩
      simp [obufAppendEach, obufAppend_raise b s hfull, Res.bind]
    · have hstep : (s.olen + 1).toNat = s.olen.toNat + 1 := by
        have h1 : (1 : Word).toNat = 1 := rfl
        rw [BitVec.toNat_add, h1]
        omega
      have ih := ih { s with obuf := s.obuf.write s.olen.toNat b, olen := s.olen + 1 } hp
        (Memory.write_wf _ _ _ hm) (by simp only [hstep]; omega) hcap
      simp only [hstep] at ih
      have hhead : obufAppendEach (b :: bs) s =
          obufAppendEach bs { s with obuf := s.obuf.write s.olen.toNat b, olen := s.olen + 1 } := by
        simp [obufAppendEach, obufAppend_ok b s hfull, Res.bind]
      rcases ih with ⟨hle, heq⟩ | ⟨hlt, s', heq⟩
      · refine .inl ⟨by simp only [List.length_cons]; omega, ?_⟩
        rw [hhead, heq, obufAppendAll_fits _ _ (by simp only [hstep]; omega),
          obufAppendAll_fits _ _ (by simp only [List.length_cons]; omega), hstep,
          Memory.writeAll_eq_turns _ _ _ _ hm]
        congr 2
        rw [List.length_cons, show bs.length + 1 = 1 + bs.length by omega, BitVec.ofNat_add, ← BitVec.add_assoc]
        rfl
      · exact .inr ⟨by simp only [List.length_cons]; omega, s', by rw [hhead, heq]⟩

/-- Appends one by one that complete are `obufAppendAll`. -/
theorem obufAppendAll_ok (bs : List Byte) (s s' : State) (hp : s.params.wf = true) (hm : s.obuf.wf)
    (ho : s.olen.toNat ≤ s.params.obufCap) (h : obufAppendEach bs s = .ok () s') : obufAppendAll bs s = .ok () s' := by
  rcases obufAppendEach_eq bs s hp hm ho with ⟨-, heq⟩ | ⟨-, t, heq⟩
  · rw [← heq, h]
  · rw [heq] at h
    cases h

/-- Appends one by one that fault do so with `F_OBUF_FULL`, and `obufAppendAll` faults with it too; the two states at the
`raise` differ in `OBUF` and `OLEN` only, which `takeFault` puts back. -/
theorem obufAppendAll_full (bs : List Byte) (s s' : State) (f : FaultCode) (hp : s.params.wf = true) (hm : s.obuf.wf)
    (ho : s.olen.toNat ≤ s.params.obufCap) (h : obufAppendEach bs s = .raise f s') :
    f = .obufFull ∧ obufAppendAll bs s = .raise .obufFull s := by
  rcases obufAppendEach_eq bs s hp hm ho with ⟨hle, heq⟩ | ⟨hlt, t, heq⟩
  · rw [h, obufAppendAll_fits bs s hle] at heq
    cases heq
  · rw [h] at heq
    exact ⟨(Res.raise.inj heq).1, obufAppendAll_raise bs s ho hlt⟩

/-- The state after appends that fit has the bytes appended (R74). -/
theorem appended_writeAll (bs : List Byte) (s : State) (hp : s.params.wf = true)
    (h : s.olen.toNat + bs.length ≤ s.params.obufCap) :
    appended s { s with obuf := s.obuf.writeAll s.olen.toNat bs, olen := s.olen + BitVec.ofNat 32 bs.length } bs := by
  have hcap : s.params.obufCap ≤ 2 ^ 28 := by
    simp only [Params.wf, Bool.and_eq_true, decide_eq_true_eq] at hp
    exact hp.2
  refine ⟨?_, fun k hk => ?_, fun a ha => ?_⟩
  · simp only [BitVec.toNat_add, BitVec.toNat_ofNat]
    omega
  · simp only [Memory.read?_writeAll]
    rw [if_pos (by omega), show s.olen.toNat + k - s.olen.toNat = k by omega, List.getElem?_eq_getElem hk]
  · simp only [Memory.read?_writeAll]
    rw [if_neg (by omega)]

/-- The four size bytes give the size back (R67, R96). -/
theorem sizeOfBytes_sizeBytes (n : Word) :
    sizeOfBytes (n.extractLsb' 0 8) (n.extractLsb' 8 8) (n.extractLsb' 16 8) (n.extractLsb' 24 8) = n := by
  unfold sizeOfBytes
  ext i hi
  simp only [BitVec.getElem_append, BitVec.getElem_extractLsb']
  split
  · simp [BitVec.getLsbD_eq_getElem hi]
  · split
    · simp [show 8 + (i - 8) = i by omega, BitVec.getLsbD_eq_getElem hi]
    · split
      · simp [show 16 + (i - 8 - 8) = i by omega, BitVec.getLsbD_eq_getElem hi]
      · simp [show 24 + (i - 8 - 8 - 8) = i by omega, BitVec.getLsbD_eq_getElem hi]

end Sys2Proof.Machine
end

