-- ==== Sys2Proof/Laws/HostPort.lean ====
section
/-! SUPPORT. The laws of the host port: which addresses name a register, and everything a write at a location can do. -/

namespace Sys2Proof.Machine

/-- A 32-bit access names a register exactly at the register's offset (R62). -/
theorem locate32_eq_reg (a : Word) (r : Reg) : locate32 a = .reg r ↔ a = regOffset r := by
  constructor
  · intro h
    have ha : a.toNat = 4 * (a.toNat / 4) ∧ regAt (a.toNat / 4) = some r := by
      unfold locate32 at h
      dsimp only at h
      split at h
      · cases h
      · split at h
        · cases hr : regAt (a.toNat / 4) with
          | none => rw [hr] at h; cases h
          | some q =>
            rw [hr] at h
            cases h
            exact ⟨by omega, rfl⟩
        · repeat' split at h
          all_goals cases h
    obtain ⟨hq, hr⟩ := ha
    apply BitVec.eq_of_toNat_eq
    unfold regAt at hr
    split at hr <;> simp only [Option.some.injEq, reduceCtorEq] at hr <;> subst hr <;> rw [hq, ‹a.toNat / 4 = _›] <;> rfl
  · rintro rfl
    cases r <;> decide

/-- Everything a 32-bit write other than of `CMD` can do: one of the four writable registers, or nothing (R47, R66, R77). -/
theorem write32At_cases (v : Word) (s : State) (l : Loc) :
    (l = .reg .ctrl ∧ s.write32At v l = { s with ie := v.getLsbD 0 }) ∨
    (l = .reg .ilen ∧ s.busy = false ∧ s.write32At v l = { s with ilen := v }) ∨
    (l = .reg .ipos ∧ s.busy = false ∧ s.write32At v l = { s with ipos := v }) ∨
    (l = .reg .nsize ∧ s.busy = false ∧ s.write32At v l = { s with nsize := v }) ∨
    ((s.busy = true ∨ l ∉ [Loc.reg .ctrl, .reg .ilen, .reg .ipos, .reg .nsize]) ∧ s.write32At v l = s) := by
  cases l with
  | reg r => cases r <;> cases hb : s.busy <;> simp [State.write32At, State.writeReg, Reg.openWhileBusy, hb]
  | _ => simp [State.write32At]

/-- Everything an 8-bit write can do: one byte of `IBUF`, or nothing (R64, R65, R66, R77). -/
theorem write8At_cases (b : Byte) (s : State) (l : Loc) :
    (∃ i, l = .ibufByte i ∧ s.busy = false ∧ s.write8At b l = { s with ibuf := s.ibuf.write i b }) ∨
    ((s.busy = true ∨ ∀ i, l ≠ .ibufByte i) ∧ s.write8At b l = s) := by
  cases hb : s.busy <;> cases l <;> simp [State.write8At, hb]

/-- An 8-bit access in the `IBUF` window names the byte at its offset. -/
theorem locate8_ibuf (p : Params) (a : Word) (h1 : 0x10000000 ≤ a.toNat) (h2 : a.toNat < 0x10000000 + p.ibufCap) :
    locate8 p a = .ibufByte (a.toNat - 0x10000000) := if_pos ⟨h1, h2⟩

end Sys2Proof.Machine
end

