-- ==== Sys2Proof/Laws/PerInstr.lean ====
section
/-! SUPPORT. The facts about the syntax of each command, one lemma per constructor. Family `Encoding`: the command's
word is well-formed and decodes to the command (30_encoding.md rules R90, R91). -/

namespace Sys2Proof.Laws.Encoding

/-- The encoder's word is accepted by the well-formedness check, and the decoder, and the decoder over table bits, read
the command back from it. -/
def Statement (i : Instr) : Prop :=
  CommandWord.wf (encode i) = true ∧ decode (encode i) = .ok i ∧ decodeTableWord 32 (encode i).toNat = some i

theorem nop : Statement .nop := ⟨rfl, rfl, rfl⟩

theorem ack : Statement .ack := ⟨rfl, rfl, rfl⟩

theorem orst : Statement .orst := ⟨rfl, rfl, rfl⟩

theorem hist : Statement .hist := ⟨rfl, rfl, rfl⟩

theorem build : Statement .build := ⟨rfl, rfl, rfl⟩

theorem gen : Statement .gen := ⟨rfl, rfl, rfl⟩

theorem ser : Statement .ser := ⟨rfl, rfl, rfl⟩

theorem des : Statement .des := ⟨rfl, rfl, rfl⟩

theorem pack : Statement .pack := ⟨rfl, rfl, rfl⟩

theorem unpack : Statement .unpack := ⟨rfl, rfl, rfl⟩

theorem wrsize : Statement .wrsize := ⟨rfl, rfl, rfl⟩

theorem rdsize : Statement .rdsize := ⟨rfl, rfl, rfl⟩

theorem compress : Statement .compress := ⟨rfl, rfl, rfl⟩

theorem decompress : Statement .decompress := ⟨rfl, rfl, rfl⟩

end Sys2Proof.Laws.Encoding
end

