-- ==== Sys2Proof/Laws/Trees.lean ====
section
/-! SUPPORT. The laws of trees: their sizes, what renumbering keeps, a computable form of `heldBy` and `holdsTree`, and
what `Ser` gives on a held tree. -/

namespace Sys2Proof.Machine

/-! ### Sizes -/

theorem ITree.leaves_pos (t : ITree) : 0 < t.leaves := by
  induction t with
  | leaf i s => exact Nat.one_pos
  | branch i l r ihl _ => exact Nat.lt_of_lt_of_le ihl (Nat.le_add_right _ _)

/-- A full binary tree has one leaf more than internal nodes (R35). -/
theorem ITree.size_eq (t : ITree) : t.size + 1 = 2 * t.leaves := by
  induction t with
  | leaf i s => rfl
  | branch i l r ihl ihr =>
    simp only [ITree.size, ITree.leaves]
    omega

theorem ITree.depth_lt_leaves (t : ITree) : t.depth < t.leaves := by
  induction t with
  | leaf i s => exact Nat.one_pos
  | branch i l r ihl ihr =>
    have := l.leaves_pos
    have := r.leaves_pos
    simp only [ITree.depth, ITree.leaves]
    omega

@[simp] theorem ITree.length_indices (t : ITree) : t.indices.length = t.size := by
  induction t with
  | leaf i s => rfl
  | branch i l r ihl ihr =>
    simp only [ITree.indices, ITree.size, List.length_cons, List.length_append, ihl, ihr]
    omega

@[simp] theorem ITree.length_paths (t : ITree) : t.paths.length = t.leaves := by
  induction t with
  | leaf i s => rfl
  | branch i l r ihl ihr => simp [ITree.paths, ITree.leaves, ihl, ihr]

@[simp] theorem ITree.length_flagStarts (t : ITree) : t.flagStarts.length = t.size := by
  induction t with
  | leaf i s => rfl
  | branch i l r ihl ihr =>
    simp only [ITree.flagStarts, ITree.size, List.length_cons, List.length_append, List.length_map, ihl, ihr]
    omega

theorem ITree.length_path_le (t : ITree) (x : Byte × List Bool) (h : x ∈ t.paths) : x.2.length ≤ t.depth := by
  induction t generalizing x with
  | leaf i s =>
    simp only [ITree.paths, List.mem_singleton] at h
    simp [h]
  | branch i l r ihl ihr =>
    simp only [ITree.paths, List.mem_append, List.mem_map] at h
    simp only [ITree.depth]
    rcases h with ⟨y, hy, rfl⟩ | ⟨y, hy, rfl⟩
    · have := ihl y hy
      simp only [List.length_cons]
      omega
    · have := ihr y hy
      simp only [List.length_cons]
      omega

/-! ### Renumbering -/

@[simp] theorem ITree.size_renumber (t : ITree) (n : Nat) : (t.renumber n).size = t.size := by
  induction t generalizing n with
  | leaf i s => rfl
  | branch i l r ihl ihr => simp [ITree.renumber, ITree.size, ihl, ihr]

@[simp] theorem ITree.bytes_renumber (t : ITree) (n : Nat) : (t.renumber n).bytes = t.bytes := by
  induction t generalizing n with
  | leaf i s => rfl
  | branch i l r ihl ihr => simp [ITree.renumber, ITree.bytes, ihl, ihr]

@[simp] theorem ITree.paths_renumber (t : ITree) (n : Nat) : (t.renumber n).paths = t.paths := by
  induction t generalizing n with
  | leaf i s => rfl
  | branch i l r ihl ihr => simp [ITree.renumber, ITree.paths, ihl, ihr]

@[simp] theorem ITree.isLeaf_renumber (t : ITree) (n : Nat) : (t.renumber n).isLeaf = t.isLeaf := by cases t <;> rfl

@[simp] theorem ITree.idx_renumber (t : ITree) (n : Nat) : (t.renumber n).idx = BitVec.ofNat 9 n := by cases t <;> rfl

/-- Renumbering numbers the nodes in preorder from the base on. -/
theorem ITree.indices_renumber (t : ITree) (n : Nat) :
    (t.renumber n).indices = (List.range' n t.size).map (BitVec.ofNat 9) := by
  induction t generalizing n with
  | leaf i s => rfl
  | branch i l r ihl ihr =>
    simp only [ITree.renumber, ITree.indices, ITree.size, ihl, ihr]
    rw [← List.map_append, List.range'_append_1, show 1 + l.size + r.size = (l.size + r.size) + 1 by omega,
      List.range'_succ, List.map_cons]

/-! ### The tree an arena holds -/

/-- `heldBy` as a computation. -/
def ITree.heldByB (nd : Table Node 9) : NodeIdx → ITree → Bool
  | p, .leaf i s =>
    (i != NULL) && ((nd.get i).sym == s.setWidth 9) && ((nd.get i).left == NULL) && ((nd.get i).right == NULL) &&
      ((nd.get i).parent == p)
  | p, .branch i l r =>
    (i != NULL) && ((nd.get i).sym == NOT_A_LEAF) && ((nd.get i).left == l.idx) && ((nd.get i).right == r.idx) &&
      ((nd.get i).parent == p) && l.heldByB nd i && r.heldByB nd i

theorem ITree.heldByB_iff (nd : Table Node 9) (p : NodeIdx) (t : ITree) : t.heldByB nd p = true ↔ t.heldBy nd p := by
  induction t generalizing p with
  | leaf i s => simp [ITree.heldByB, ITree.heldBy, and_assoc]
  | branch i l r ihl ihr => simp [ITree.heldByB, ITree.heldBy, and_assoc, ihl, ihr]

/-- `holdsTree` as a computation. -/
def State.holdsTreeB (s : State) (t : ITree) : Bool :=
  s.tvalid && (t.idx == s.root) && t.heldByB s.node NULL &&
    decide ((t.indices.map BitVec.toNat).Perm (List.range s.ncount.toNat))

theorem State.holdsTreeB_iff (s : State) (t : ITree) : s.holdsTreeB t = true ↔ s.holdsTree t := by
  simp [State.holdsTreeB, State.holdsTree, ITree.occupies, ITree.heldByB_iff, and_assoc]

theorem ITree.idx_ne_null (nd : Table Node 9) (p : NodeIdx) (t : ITree) (h : t.heldBy nd p) : t.idx ≠ NULL := by
  cases t with
  | leaf i s => exact h.1
  | branch i l r => exact h.1

/-- An index is a leaf exactly when the tree held there is one. -/
theorem ITree.isLeafAt_idx (nd : Table Node 9) (p : NodeIdx) (t : ITree) (h : t.heldBy nd p) :
    isLeafAt nd t.idx = t.isLeaf := by
  cases t with
  | leaf i s =>
    obtain ⟨hi, hs, -⟩ := h
    rw [ITree.idx, isLeafAt_of_ne nd i hi, Node.isLeaf, hs]
    simpa [ITree.isLeaf] using sym_ne_notALeaf s
  | branch i l r =>
    obtain ⟨hi, hs, -⟩ := h
    rw [ITree.idx, isLeafAt_of_ne nd i hi, Node.isLeaf, hs]
    rfl

/-- An arena that agrees on the tree's entries holds it too. -/
theorem ITree.heldBy_congr (nd nd' : Table Node 9) (p : NodeIdx) (t : ITree) (h : t.heldBy nd p)
    (he : ∀ i ∈ t.indices, (nd'.get i).sym = (nd.get i).sym ∧ (nd'.get i).left = (nd.get i).left ∧
      (nd'.get i).right = (nd.get i).right ∧ (nd'.get i).parent = (nd.get i).parent) : t.heldBy nd' p := by
  induction t generalizing p with
  | leaf i s =>
    obtain ⟨h1, h2, h3, h4⟩ := he i (by simp [ITree.indices])
    simpa [ITree.heldBy, h1, h2, h3, h4] using h
  | branch i l r ihl ihr =>
    obtain ⟨h1, h2, h3, h4⟩ := he i (by simp [ITree.indices])
    obtain ⟨k1, k2, k3, k4, k5, kl, kr⟩ := h
    exact ⟨k1, h1.trans k2, h2.trans k3, h3.trans k4, h4.trans k5,
      ihl i kl (fun j hj => he j (by simp [ITree.indices, hj])),
      ihr i kr (fun j hj => he j (by simp [ITree.indices, hj]))⟩

/-! ### Serialization -/

/-- `Ser` of a held tree gives its bytes (R97, R170). -/
theorem serBytes_of_heldBy (k : Nat) (nd : Table Node 9) (p : NodeIdx) (t : ITree) (h : t.heldBy nd p)
    (hk : t.depth < k) : serBytes k nd t.idx = .ok t.bytes := by
  induction t generalizing k p with
  | leaf i s =>
    obtain ⟨k, rfl⟩ : ∃ j, k = j + 1 := ⟨k - 1, by omega⟩
    obtain ⟨hi, hs, -⟩ := h
    have hl : (nd.get i).isLeaf = true := by simpa [Node.isLeaf, hs] using sym_ne_notALeaf s
    simp only [serBytes, ITree.idx, ITree.bytes]
    rw [nodeAt_of_ne nd i hi]
    simp [hl, hs]
  | branch i l r ihl ihr =>
    obtain ⟨k, rfl⟩ : ∃ j, k = j + 1 := ⟨k - 1, by omega⟩
    obtain ⟨hi, hs, hl, hr, -, hel, her⟩ := h
    simp only [ITree.depth] at hk
    have hn : (nd.get i).isLeaf = false := by simp [Node.isLeaf, hs]
    simp only [serBytes, ITree.idx, ITree.bytes]
    rw [nodeAt_of_ne nd i hi]
    simp only [hn, Bool.false_eq_true, if_false, hl, hr, ihl k i hel (by omega), ihr k i her (by omega)]
    rfl

end Sys2Proof.Machine
end

