-- ==== Sys2Proof/Tests/Slice0.lean ====
section
/-! SUPPORT. Tests of the model against the spec's worked examples (95_test_vectors.md), the checks of WellFormed against
ill-formed terms, and a witness for the hypotheses of every obligation. The expected values are the spec's; a test's
docstring names the vector. -/

namespace Sys2Proof.Tests

open Sys2Proof Sys2Proof.Machine

set_option Elab.async false

/-! ### Helpers -/

/-- The reset state with `LOAD` of these bytes done (R107). -/
def loaded (bs : List Byte) : State :=
  { State.reset with ibuf := cellsFrom 0 bs, ilen := BitVec.ofNat 32 bs.length }

/-- The arena with a tree's entries written. -/
def arenaOf : NodeIdx → ITree → Table Node 9 → Table Node 9
  | p, .leaf i s, nd => nodeSet nd i { Node.leaf s 0 with parent := p }
  | p, .branch i l r, nd =>
    arenaOf i l (arenaOf i r (nodeSet nd i { Node.internal 0 l.idx r.idx with parent := p }))

/-- A state with a tree in the arena. -/
def withTree (t : ITree) (s : State) : State :=
  { s with tvalid := true, root := t.idx, ncount := BitVec.ofNat 10 t.size, node := arenaOf NULL t s.node }

/-- The tree of V9: `00 01 61 00 01 62 01 63`. -/
def smallTree : ITree := .branch 0 (.leaf 1 0x61) (.branch 2 (.leaf 3 0x62) (.leaf 4 0x63))

/-- The root-leaf tree of V10. -/
def rootLeaf : ITree := .leaf 0 0x41

/-- A complete tree of depth `d` whose leaves are the symbols from `s` on. -/
def balanced : Nat → Nat → ITree
  | 0, s => .leaf 0 (BitVec.ofNat 8 s)
  | d + 1, s => .branch 0 (balanced d s) (balanced d (s + 2 ^ d))

/-- A full tree over the alphabet, numbered in preorder. -/
def fullTree : ITree := (balanced 8 0).renumber 0

/-- A tree whose preorder starts with `d` internal nodes. -/
def leftComb : Nat → ITree
  | 0 => .leaf 0 0x41
  | d + 1 => .branch 0 (leftComb d) (.leaf 0 0x42)

/-- The tree V2 says BUILD makes of the empty histogram: `256 + k` is `(254 − k, 255 + k)`. -/
def v2Tree : Nat → ITree
  | 0 => .leaf 255 255
  | k + 1 => .branch (BitVec.ofNat 9 (256 + k)) (.leaf (BitVec.ofNat 9 (254 - k)) (BitVec.ofNat 8 (254 - k))) (v2Tree k)

/-- The codes of V9. -/
def smallCodes : Table Code 8 :=
  (((Table.fill 8 Code.none).set 0x61 (Code.ofPath [false])).set 0x62 (Code.ofPath [true, false])).set 0x63
    (Code.ofPath [true, true])

/-- A check of the next state. -/
def nextHas (o : Host.Outcome State Fault Refusal) (p : State → Bool) : Bool :=
  match o with
  | .next s => p s
  | .fault _ => false
  | .refused _ => false

/-! ### Decoding and well-formedness -/

/-- R91: one word of each group of the opcode map, bit by bit: opcode in bits 7:0, zeros above. -/
theorem test_decode_words :
    decode 0b00000000_00000000_00000000_00000001 = .ok .ack ∧
    decode 0b00000000_00000000_00000000_00010111 = .ok .wrsize ∧
    decode 0b00000000_00000000_00000000_00100001 = .ok .decompress := by decide

/-- R91, V13: each opcode's bits in the table's numbering decode to its command. -/
theorem test_decode_table_words :
    [0x00, 0x01, 0x02, 0x10, 0x11, 0x12, 0x13, 0x14, 0x15, 0x16, 0x17, 0x18, 0x20, 0x21].map (decodeTableWord 32)
      = Instr.all.map some := by decide

/-- V13: unlisted opcodes are refused. -/
theorem test_decode_unlisted :
    [0x03, 0x19, 0x22, 0xFF].map decode = List.replicate 4 (.error .unlistedOpcode) := by decide

/-- V13: a nonzero bit above the opcode is refused, whatever the opcode. -/
theorem test_decode_upper_bits :
    [0x100, 0x111, 0x80000011].map decode = List.replicate 3 (.error .nonzeroUpperBits) := by decide

/-- WellFormed: a word with a nonzero upper bit is ill-formed. -/
theorem test_wf_upper_bits : CommandWord.upperBitsZero 0x111 = false ∧ CommandWord.wf 0x111 = false := by decide

/-- WellFormed: a word with an unlisted opcode is ill-formed. -/
theorem test_wf_opcode : CommandWord.opcodeListed 0x03 = false ∧ CommandWord.wf 0x03 = false := by decide

/-- WellFormed: each bound on the capacities refuses (R11). -/
theorem test_wf_params :
    Params.wf ⟨0, 1⟩ = false ∧ Params.wf ⟨1, 0⟩ = false ∧ Params.wf ⟨2 ^ 28 + 1, 1⟩ = false ∧
    Params.wf ⟨1, 2 ^ 28 + 1⟩ = false ∧ Params.wf ⟨1, 2 ^ 28⟩ = true := by decide

/-! ### Commands -/

/-- V13: NOP from reset leaves `STATUS` = 2. -/
theorem test_nop : nextHas (exec .nop State.reset) (fun s => s.statusWord == 0x2) = true := by decide +kernel

/-- V13: ACK after an illegal word leaves `STATUS` = 0. -/
theorem test_ack : nextHas (exec .ack (rejectWord State.reset)) (fun s => s.statusWord == 0) = true := by decide +kernel

/-- V13: ACK from reset does not set `DONE`. -/
theorem test_ack_no_done : nextHas (exec .ack State.reset) (fun s => s.statusWord == 0) = true := by decide +kernel

/-- V13: an illegal word leaves `STATUS` = 0x4104. -/
theorem test_illegal_word : (rejectWord State.reset).statusWord = 0x4104 := by decide +kernel

/-- P4: ORST sets `OLEN` to 0. -/
theorem test_orst : nextHas (exec .orst { State.reset with olen := 9 }) (fun s => s.olen == 0) = true := by decide +kernel

/-- V7: HIST counts only the bytes from `IPOS` on. -/
theorem test_hist :
    nextHas (exec .hist { loaded [1, 2, 2, 3, 3, 3] with ipos := 3 })
      (fun s => s.hist.get 3 == 3 && s.hist.get 2 == 0 && s.statusWord == 0x2 && s.ipos == 3) = true := by
  decide +kernel

/-- V7: `IPOS` above `ILEN` is `F_IRANGE`. -/
theorem test_hist_irange :
    nextHas (exec .hist { loaded [1, 2, 2, 3, 3, 3] with ipos := 7 }) (fun s => s.statusWord == 0x2304) = true := by
  decide +kernel

/-- V1: BUILD leaves `STATUS` = 0x0A and `NCOUNT` = 511. -/
theorem test_build :
    nextHas (exec .build State.reset) (fun s => s.statusWord == 0xA && s.ncount == 511) = true := by decide +kernel

/-- V2: BUILD on the empty histogram makes V2's tree, whose root is the working set's last node. -/
theorem test_build_tree :
    (decide ((v2Tree 255).idx = rootOf (buildWith stableOrder .leftIsSecondToLast State.reset.hist).1) &&
      (v2Tree 255).heldByB (buildWith stableOrder .leftIsSecondToLast State.reset.hist).2 NULL) = true := by
  decide +kernel

/-- V9: the codes of the small tree. -/
theorem test_gen :
    nextHas (exec .gen (withTree smallTree State.reset)) (fun s =>
      s.statusWord == 0xA && (s.code.get 0x61).toBits == [false] && (s.code.get 0x62).toBits == [true, false] &&
      (s.code.get 0x63).toBits == [true, true] && (s.code.get 0x64).len == 0 && (s.node.get 2).visited) = true := by
  decide +kernel

/-- V11: of two leaves with one symbol the leaf visited last wins. -/
theorem test_gen_duplicate :
    nextHas (exec .gen (withTree (.branch 0 (.leaf 1 0x41) (.leaf 2 0x41)) State.reset)) (fun s =>
      (s.code.get 0x41).toBits == [true]) = true := by decide +kernel

/-- V9: the serialized small tree. -/
theorem test_ser :
    nextHas (exec .ser (withTree smallTree State.reset)) (fun s =>
      s.olen == 8 && s.output == [0x00, 0x01, 0x61, 0x00, 0x01, 0x62, 0x01, 0x63]) = true := by decide +kernel

/-- V10: a root leaf serializes to two bytes. -/
theorem test_ser_root_leaf :
    nextHas (exec .ser (withTree rootLeaf State.reset)) (fun s => s.output == [0x01, 0x41]) = true := by decide +kernel

/-- V9: DES of the small tree: NODE words of the root and of entry 4. -/
theorem test_des :
    nextHas (exec .des (loaded [0x00, 0x01, 0x61, 0x00, 0x01, 0x62, 0x01, 0x63, 0x5C])) (fun s =>
      s.statusWord == 0xA && s.ipos == 8 && s.ncount == 5 && nodeImage (s.node.get 0) 0 == 0x100 &&
      nodeImage (s.node.get 0) 2 == 0x00020001 && nodeImage (s.node.get 4) 0 == 0x63 &&
      nodeImage (s.node.get 4) 3 == 2) = true := by decide +kernel

/-- V8: a missing symbol byte is `F_TREE_TRUNC` and leaves no tree. -/
theorem test_des_truncated :
    nextHas (exec .des (withTree smallTree (loaded [0x00, 0x01, 0x61, 0x01]))) (fun s =>
      s.statusWord == 0x3104 && s.ipos == 0 && s.root == NULL && s.ncount == 0) = true := by decide +kernel

/-- V9: PACK of `61 62 63 61 62`. -/
theorem test_pack :
    nextHas (exec .pack { loaded [0x61, 0x62, 0x63, 0x61, 0x62] with code := smallCodes }) (fun s =>
      s.output == [0x5A] && s.ipos == 0) = true := by decide +kernel

/-- P4: PACK of "cabb" appends one padded byte. -/
theorem test_pack_padded :
    nextHas (exec .pack { loaded [0x63, 0x61, 0x62, 0x62] with code := smallCodes }) (fun s =>
      s.output == [0xD4]) = true := by decide +kernel

/-- V9: UNPACK of `5C` with `NSIZE` = 5. -/
theorem test_unpack :
    nextHas (exec .unpack { withTree smallTree (loaded [0x5C]) with nsize := 5 }) (fun s =>
      s.output == [0x61, 0x62, 0x63, 0x62, 0x61] && s.ipos == 1) = true := by decide +kernel

/-- V10: UNPACK with `NSIZE` > 0 on a root leaf is `F_DEGENERATE`. -/
theorem test_unpack_degenerate :
    nextHas (exec .unpack { withTree rootLeaf (loaded [0x00]) with nsize := 1 }) (fun s =>
      s.statusWord == 0x430C && s.ipos == 0) = true := by decide +kernel

/-- V14: WRSIZE appends least-significant byte first. -/
theorem test_wrsize :
    nextHas (exec .wrsize { State.reset with nsize := 0x01020304 }) (fun s => s.output == [0x04, 0x03, 0x02, 0x01])
      = true := by decide +kernel

/-- V14: RDSIZE reads least-significant byte first. -/
theorem test_rdsize :
    nextHas (exec .rdsize (loaded [0x04, 0x03, 0x02, 0x01, 0x09])) (fun s =>
      s.nsize == 0x01020304 && s.ipos == 4 && s.statusWord == 0x2) = true := by decide +kernel

/-- V14: three bytes are too few. -/
theorem test_rdsize_short :
    nextHas (exec .rdsize (loaded [0x01, 0x02, 0x03])) (fun s => s.statusWord == 0x2104) = true := by decide +kernel

/-- V2: COMPRESS of the empty payload. -/
theorem test_compress :
    nextHas (exec .compress State.reset) (fun s =>
      s.done && s.statusWord == 0xA && s.olen == 771 && s.output.drop 766 == [0x00, 0x01, 0xFE, 0x01, 0xFF]) = true := by
  decide +kernel

/-- V9's tree stream and bits behind a size field: DECOMPRESS gives V9's five symbols. -/
theorem test_decompress :
    nextHas (exec .decompress
        (loaded [0x05, 0x00, 0x00, 0x00, 0x00, 0x01, 0x61, 0x00, 0x01, 0x62, 0x01, 0x63, 0x5C])) (fun s =>
      s.output == [0x61, 0x62, 0x63, 0x62, 0x61] && s.ipos == 13 && s.nsize == 5 && s.statusWord == 0xA) = true := by
  decide +kernel

/-- V4's rule on that stream without its last byte: `F_BITS_EXHAUSTED`, the tree kept, the registers back. -/
theorem test_decompress_truncated :
    nextHas (exec .decompress
        { loaded [0x05, 0x00, 0x00, 0x00, 0x00, 0x01, 0x61, 0x00, 0x01, 0x62, 0x01, 0x63] with ipos := 5 }) (fun s =>
      s.statusWord == 0x320C && s.ipos == 5 && s.nsize == 0 && s.olen == 0 && s.ncount == 5) = true := by
  decide +kernel

/-! ### The host port -/

/-- V20: `RD ROOT` after reset. -/
theorem test_port_root :
    nextHas (step (State.reset.issueFirst (scriptRD .root))) (fun s => s.reply == .word 0x1FF) = true := by decide +kernel

/-- V20: `CTRL` keeps bit 0 only. -/
theorem test_port_ctrl :
    nextHas (step (State.reset.issueFirst (scriptWR .ctrl 0xFFFFFFFF))) (fun s => s.ctrlWord == 1) = true := by
  decide +kernel

/-- V20: a wrong-width read returns 0. -/
theorem test_port_wrong_width :
    nextHas (step ({ State.reset with done := true }.issueFirst (.read8 0x00000004))) (fun s => s.reply == .byte 0)
      = true := by decide +kernel

/-- V20: the windows' words of the code `110`. -/
theorem test_port_code_words :
    codeLenImage (Code.ofPath [true, true, false]) = 3 ∧
    (List.range 8).map (codeBitsImage (Code.ofPath [true, true, false])) = 0xC0000000 :: List.replicate 7 0 := by
  decide +kernel

/-- A command word in front of the port runs as the next step. -/
theorem test_fetch_word :
    nextHas (step (State.reset.withFetchWord 32 0x00)) (fun s => s.statusWord == 0x2 && s.port == []) = true := by
  decide +kernel

/-! ### Witnesses: states and operands that meet the hypotheses of the obligations -/

theorem toNat_loaded_ilen (bs : List Byte) (h : bs.length < 2 ^ 32) : (loaded bs).ilen.toNat = bs.length := by
  simp only [loaded, BitVec.toNat_ofNat]
  omega

theorem loaded_input (bs : List Byte) (h : bs.length < 2 ^ 32) : (loaded bs).input = bs := by
  refine List.ext_getElem (by simp [State.input, toNat_loaded_ilen bs h]) (fun i h1 h2 => ?_)
  simp [State.input, State.ibufByte, loaded, read?_cellsFrom, List.getElem?_eq_getElem h2]

theorem loaded_payload (bs : List Byte) (h : bs.length < 2 ^ 32) : (loaded bs).payload = bs := by
  rw [State.payload_eq_input _ rfl, loaded_input bs h]

theorem reset_params_wf : State.reset.params.wf = true := by decide

/-- Any bytes that fit can be the whole input of an engine ready to run. -/
theorem witness_loaded (bs : List Byte) (h : bs.length ≤ 2 ^ 28) :
    (loaded bs).ready ∧ (loaded bs).params.wf = true ∧ (loaded bs).ilen.toNat ≤ (loaded bs).params.ibufCap ∧
    (loaded bs).ipos.toNat ≤ (loaded bs).ilen.toNat ∧ (loaded bs).payload = bs ∧ (loaded bs).input = bs := by
  have h32 : bs.length < 2 ^ 32 := by omega
  refine ⟨⟨rfl, rfl⟩, reset_params_wf, ?_, Nat.zero_le _, loaded_payload bs h32, loaded_input bs h32⟩
  rw [toNat_loaded_ilen bs h32]
  exact h

theorem smallTree_held : (withTree smallTree State.reset).holdsTree smallTree :=
  (State.holdsTreeB_iff _ _).mp (by decide +kernel)

theorem rootLeaf_held : (withTree rootLeaf State.reset).holdsTree rootLeaf :=
  (State.holdsTreeB_iff _ _).mp (by decide +kernel)

theorem fullTree_held : (withTree fullTree State.reset).holdsTree fullTree :=
  (State.holdsTreeB_iff _ _).mp (by decide +kernel)

theorem fullTree_covers : fullTree.coversAlphabet := by
  have h : fullTree.symbols = (List.range NSYM).map (BitVec.ofNat 8) := by decide +kernel
  unfold ITree.coversAlphabet
  rw [h]

theorem witness_IllegalWordRaisesIllegalCmd (w : Word) (hw : w ∈ [0x03#32, 0x19, 0x22, 0xFF, 0x100, 0x111, 0x80000011]) :
    (State.reset.issueFirst (commandOp w)).ready ∧
    (State.reset.issueFirst (commandOp w)).port = commandOp w :: [] ∧ ∀ i, w ≠ encode i := by
  refine ⟨⟨rfl, rfl⟩, rfl, ?_⟩
  simp only [List.mem_cons, List.not_mem_nil, or_false] at hw
  intro i
  rcases hw with rfl | rfl | rfl | rfl | rfl | rfl | rfl <;> cases i <;> decide

theorem witness_StepRunsTheDecodedCommand :
    (State.reset.withFetchWord 32 0x21).port = commandOp 0x21 :: [] ∧ decode 0x21 = .ok .decompress :=
  ⟨rfl, by decide⟩

theorem witness_CommandWritesIgnored_busy :
    let s := { State.reset with busy := true, port := [commandOp 0x10] }
    s.port = commandOp 0x10 :: [] ∧ s.busy = true := ⟨rfl, rfl⟩

theorem witness_CommandWritesIgnored_err :
    let s := { State.reset with err := true, port := [commandOp 0x03] }
    s.port = commandOp 0x03 :: [] ∧ s.err = true ∧ (0x03 : Word) ≠ encode .ack := ⟨rfl, rfl, by decide⟩

/-- The hypotheses of NOP, ORST and BUILD, and the first clause of ACK. -/
theorem witness_ready : State.reset.ready ∧ State.reset.busy = false := ⟨⟨rfl, rfl⟩, rfl⟩

theorem witness_AckClearsTheOutcome :
    (rejectWord State.reset).busy = false ∧ (rejectWord State.reset).err = true ∧ Instr.hist ≠ .ack :=
  ⟨rfl, rfl, by decide⟩

/-- In range at the boundary: `ILEN = IBUF_CAP`, `IPOS = ILEN`. HIST (both statements), DES, RDSIZE, COMPRESS. -/
theorem witness_in_range :
    let s := { State.reset with ilen := 0x10000000, ipos := 0x10000000 }
    s.ready ∧ s.params.wf = true ∧ s.ilen.toNat ≤ s.params.ibufCap ∧ s.ipos.toNat ≤ s.ilen.toNat := by decide +kernel

/-- Out of range by one, either way. HIST, DES, PACK, RDSIZE, COMPRESS. -/
theorem witness_out_of_range :
    let s := { State.reset with ilen := 0x10000001 }
    let r := { State.reset with ipos := 1 }
    s.ready ∧ s.params.wf = true ∧ s.olen.toNat ≤ s.params.obufCap ∧ s.params.ibufCap < s.ilen.toNat ∧
    r.ready ∧ r.params.wf = true ∧ r.olen.toNat ≤ r.params.obufCap ∧ ¬ r.ipos.toNat ≤ r.ilen.toNat := by
  decide +kernel

/-- An ordering function other than this hardware's meets the contract. -/
theorem witness_conformingOrder :
    conformingOrder (fun ws => ws.mergeSort (fun x y => decide (y.freq.toNat ≤ x.freq.toNat))) := by
  intro ws
  refine ⟨List.mergeSort_perm _ _, ?_⟩
  have h := List.pairwise_mergeSort (le := fun x y : WsEntry => decide (y.freq.toNat ≤ x.freq.toNat))
    (by intro a b c; simp only [decide_eq_true_eq]; omega) (by intro a b; simp only [Bool.or_eq_true, decide_eq_true_eq]; omega) ws
  simpa using h

/-- BUILD's statements about its tree: the empty histogram and V2's tree. -/
theorem witness_BuildFrequenciesAreSums :
    conformingOrder stableOrder ∧ histSum State.reset.hist < 2 ^ 32 ∧
    (v2Tree 255).idx = rootOf (buildWith stableOrder .leftIsSecondToLast State.reset.hist).1 ∧
    (v2Tree 255).heldBy (buildWith stableOrder .leftIsSecondToLast State.reset.hist).2 NULL := by
  have h := test_build_tree
  rw [Bool.and_eq_true, decide_eq_true_eq] at h
  exact ⟨stableOrder_conforming, by decide +kernel, h.1, (ITree.heldByB_iff _ _ _).mp h.2⟩

/-- R139, by hand: of entries 4, 3, 5, 2 with frequencies 2, 1, 1, 0 the first iteration combines 5 and 2 into 6 (1), the
second 3 and 6 into 7 (2), which stays behind 4 of equal frequency. -/
theorem test_insertionLoop :
    (insertionLoop .leftIsSecondToLast 2 6 (stableOrder [⟨3, 1⟩, ⟨4, 2⟩, ⟨5, 1⟩, ⟨2, 0⟩]) (Table.fill 9 Node.blank)).1
      = [⟨4, 2⟩, ⟨7, 2⟩] := by decide +kernel

theorem witness_GenRecordsThePathOfEveryLeaf :
    (withTree smallTree State.reset).ready ∧ (withTree smallTree State.reset).holdsTree smallTree ∧
    smallTree.isLeaf = false := ⟨⟨rfl, rfl⟩, smallTree_held, rfl⟩

theorem witness_GenFaultsWithoutATree :
    (State.reset.ready ∧ State.reset.tvalid = false) ∧
    (withTree rootLeaf State.reset).ready ∧ (withTree rootLeaf State.reset).holdsTree rootLeaf ∧
    rootLeaf.isLeaf = true := ⟨⟨⟨rfl, rfl⟩, rfl⟩, ⟨rfl, rfl⟩, rootLeaf_held, rfl⟩

theorem witness_GenCodesArePrefixFreeAndComplete :
    (withTree fullTree State.reset).ready ∧ (withTree fullTree State.reset).holdsTree fullTree ∧
    fullTree.coversAlphabet := ⟨⟨rfl, rfl⟩, fullTree_held, fullTree_covers⟩

/-- The invariant on a state with a tree, whatever the host has issued. -/
theorem witness_Inv (port : List PortOp) : Inv { withTree smallTree State.reset with port := port } where
  params := reset_params_wf
  idle := rfl
  outcome := fun h => by cases h.1
  noFault := fun _ => rfl
  someFault := fun h => by cases h
  noTree := fun h => by cases h
  tree := fun _ => ⟨smallTree, smallTree_held⟩
  outputFits := Nat.zero_le _
  counts := by
    have h : histSum (Table.fill 8 0) < 2 ^ 32 := by decide +kernel
    exact h
  codes := fun b => by
    have h : (withTree smallTree State.reset).code.get b = Code.none := Table.get_fill 8 Code.none b
    exact h ▸ Code.wf_none
  ibufWf := List.Pairwise.nil
  obufWf := List.Pairwise.nil
  ibufBound := fun _ h => by cases h
  obufBound := fun _ h => by cases h
  outputDefined := fun _ h => absurd h (Nat.not_lt_zero _)

theorem witness_GenTwiceIsGenOnce :
    (withTree smallTree State.reset).ready ∧ Inv (withTree smallTree State.reset) ∧
    ∃ s', exec .gen (withTree smallTree State.reset) = .next s' ∧ s'.err = false := by
  refine ⟨⟨rfl, rfl⟩, witness_Inv [], ?_⟩
  have h : nextHas (exec .gen (withTree smallTree State.reset)) (fun s => !s.err) = true := by decide +kernel
  cases he : exec .gen (withTree smallTree State.reset) with
  | next s' =>
    rw [he] at h
    exact ⟨s', rfl, by simpa [nextHas] using h⟩
  | fault r => rw [he] at h; cases h
  | refused r => rw [he] at h; cases h

/-- SER without a tree, and with exactly enough room and one byte too little. -/
theorem witness_SerAppendsTheSerializedTree :
    let s := { withTree smallTree State.reset with params := ⟨16, 8⟩ }
    let r := { withTree smallTree State.reset with params := ⟨16, 7⟩ }
    (State.reset.ready ∧ State.reset.params.wf = true ∧ State.reset.tvalid = false) ∧
    (s.ready ∧ s.params.wf = true ∧ s.olen.toNat ≤ s.params.obufCap ∧ s.holdsTree smallTree ∧
      s.olen.toNat + smallTree.bytes.length ≤ s.params.obufCap) ∧
    r.ready ∧ r.params.wf = true ∧ r.olen.toNat ≤ r.params.obufCap ∧ r.holdsTree smallTree ∧
      r.params.obufCap < r.olen.toNat + smallTree.bytes.length :=
  ⟨by decide +kernel, ⟨by decide, by decide, by decide, smallTree_held, by decide⟩, by decide, by decide, by decide,
    smallTree_held, by decide⟩

/-- DES of a tree with bytes after it, and of a tree of 511 nodes. -/
theorem witness_DesReadsTheSerializedTree :
    (loaded (smallTree.bytes ++ [0x5C])).payload = smallTree.bytes ++ [0x5C] ∧ smallTree.size ≤ NNODE ∧
    (loaded (fullTree.bytes ++ [])).payload = fullTree.bytes ++ [] ∧ fullTree.size = NNODE :=
  ⟨loaded_payload _ (by decide), by decide, loaded_payload _ (by decide +kernel), by decide +kernel⟩

/-- A left comb starts with its internal nodes. -/
theorem leftComb_flagStarts (d k : Nat) (h : k ≤ d) : (leftComb d).flagStarts[k]? = some (List.replicate k 0x00) := by
  induction d generalizing k with
  | zero => simp [leftComb, ITree.flagStarts, Nat.le_zero.mp h]
  | succ d ih =>
    cases k with
    | zero => simp [leftComb, ITree.flagStarts]
    | succ k =>
      have hk : k < (leftComb d).flagStarts.length := by
        have := ih k (by omega)
        exact (List.getElem?_eq_some_iff.mp this).1
      have hk2 : ((leftComb d).flagStarts)[k] = List.replicate k 0x00 :=
        Option.some.inj ((List.getElem?_eq_getElem hk).symm.trans (ih k (by omega)))
      have hk3 : k < (leftComb d).size := by simpa using hk
      simp [leftComb, ITree.flagStarts, List.getElem?_append, hk3, hk2, List.replicate_succ]

/-- DES's four faults of a stream, each at the last node number it can have. -/
theorem witness_DesFaultsInPreorder :
    let u := List.replicate 511 (0x00 : Byte)
    (leftComb 512).flagStarts[NNODE]? = some u ∧ (loaded u).payload = u ∧
    (leftComb 512).flagStarts[510]? = some (List.replicate 510 0x00) ∧
    (loaded (List.replicate 510 0x00 ++ [0x01])).payload = List.replicate 510 0x00 ++ [0x01] ∧
    (loaded (u ++ 0x02 :: [])).payload = u ++ 0x02 :: [] ∧ (0x02 : Byte) ≠ 0x00 ∧ (0x02 : Byte) ≠ 0x01 ∧
    (loaded (u ++ 0x01 :: [0x41])).payload = u ++ 0x01 :: [0x41] :=
  ⟨leftComb_flagStarts 512 511 (by decide), loaded_payload _ (by decide +kernel),
    leftComb_flagStarts 512 510 (by decide), loaded_payload _ (by decide +kernel),
    loaded_payload _ (by decide +kernel), by decide, by decide, loaded_payload _ (by decide +kernel)⟩

/-- SER with exactly enough room, what it appends as another engine's input with room for it again, and a tree for GEN. -/
theorem witness_TreeRoundTripKeepsTheCodes :
    let s := { withTree smallTree State.reset with params := ⟨16, 8⟩ }
    let r := loaded (smallTree.bytes ++ [])
    s.ready ∧ s.params.wf = true ∧ s.holdsTree smallTree ∧
    s.olen.toNat + smallTree.bytes.length ≤ s.params.obufCap ∧ smallTree.isLeaf = false ∧
    r.ready ∧ r.params.wf = true ∧ r.payload = smallTree.bytes ++ [] ∧
    r.olen.toNat + smallTree.bytes.length ≤ r.params.obufCap :=
  ⟨⟨rfl, rfl⟩, by decide, smallTree_held, by decide, rfl, ⟨rfl, rfl⟩, by decide, loaded_payload _ (by decide),
    by decide +kernel⟩

/-- PACK with exactly enough room, and with none. -/
theorem witness_PackAppendsThePackedCodes :
    let s := { loaded [0x61, 0x62, 0x63, 0x61, 0x62] with code := smallCodes, params := ⟨16, 1⟩ }
    let r := { s with olen := 1 }
    (s.ready ∧ s.params.wf = true ∧ s.olen.toNat ≤ s.params.obufCap ∧ s.ilen.toNat ≤ s.params.ibufCap ∧
      (∀ x ∈ s.payload, (s.code.get x).len ≠ 0) ∧
      s.olen.toNat + (packed (codeBits s.code s.payload)).length ≤ s.params.obufCap) ∧
    r.ready ∧ r.olen.toNat ≤ r.params.obufCap ∧
      r.params.obufCap < r.olen.toNat + (packed (codeBits r.code r.payload)).length := by decide +kernel

/-- PACK at a byte without a code: with room, and where the eight bits before it have none. -/
theorem witness_PackFaultsInPayloadOrder :
    let s := { loaded [0x61, 0x62, 0x7A] with code := smallCodes, params := ⟨16, 1⟩ }
    let r := { loaded [0x61, 0x62, 0x63, 0x61, 0x62, 0x7A] with code := smallCodes, params := ⟨16, 1⟩, olen := 1 }
    (s.ready ∧ s.params.wf = true ∧ s.ilen.toNat ≤ s.params.ibufCap ∧ s.payload = [0x61, 0x62] ++ 0x7A :: [] ∧
      (∀ x ∈ [0x61, 0x62], (s.code.get x).len ≠ 0) ∧ (s.code.get 0x7A).len = 0) ∧
    r.ready ∧ r.olen.toNat ≤ r.params.obufCap ∧ r.payload = [0x61, 0x62, 0x63, 0x61, 0x62] ++ 0x7A :: [] ∧
      (∀ x ∈ [0x61, 0x62, 0x63, 0x61, 0x62], (r.code.get x).len ≠ 0) ∧
      ¬ r.olen.toNat + (codeBits r.code [0x61, 0x62, 0x63, 0x61, 0x62]).length / 8 ≤ r.params.obufCap := by
  decide +kernel

theorem witness_WrsizeAppendsLittleEndian :
    let s := { State.reset with params := ⟨16, 4⟩ }
    let r := { State.reset with params := ⟨16, 3⟩ }
    (s.ready ∧ s.params.wf = true ∧ s.olen.toNat ≤ s.params.obufCap ∧ s.olen.toNat + 4 ≤ s.params.obufCap) ∧
    r.ready ∧ r.params.wf = true ∧ r.olen.toNat ≤ r.params.obufCap ∧ r.params.obufCap < r.olen.toNat + 4 := by
  decide +kernel

/-- V9's five symbols. -/
def smallRun : List (Byte × List Bool) :=
  [(0x61, [false]), (0x62, [true, false]), (0x63, [true, true]), (0x62, [true, false]), (0x61, [false])]

/-- UNPACK with exactly enough room, a byte behind the bits; and of nothing on a root leaf. -/
theorem witness_UnpackDecodesNsizeSymbols :
    let s := { withTree smallTree (loaded [0x5C, 0xFF]) with nsize := 5, params := ⟨16, 5⟩ }
    let r := withTree rootLeaf (loaded [0x5C])
    (s.ready ∧ s.params.wf = true ∧ s.holdsTree smallTree ∧ smallTree.isLeaf = false ∧
      s.ilen.toNat ≤ s.params.ibufCap ∧ s.ipos.toNat ≤ s.ilen.toNat ∧ (∀ x ∈ smallRun, x ∈ smallTree.paths) ∧
      smallRun.length = s.nsize.toNat ∧ smallRun.flatMap (fun x => x.2) <+: streamBits s.payload ∧
      s.olen.toNat + smallRun.length ≤ s.params.obufCap) ∧
    r.ready ∧ r.holdsTree rootLeaf ∧ ([] : List (Byte × List Bool)).length = r.nsize.toNat :=
  ⟨⟨by decide, by decide, smallTree_held, rfl, by decide, by decide, by decide +kernel, by decide, by decide +kernel,
    by decide⟩, ⟨rfl, rfl⟩, rootLeaf_held, rfl⟩

/-- UNPACK's faults: no tree; out of range; a root leaf; the bits end between codes and inside one; no room. -/
theorem witness_UnpackFaultsInOrder :
    let s := { withTree smallTree (loaded [0x5C]) with nsize := 6, params := ⟨16, 5⟩ }
    let r := { withTree smallTree (loaded [0x5D]) with nsize := 5, params := ⟨16, 4⟩ }
    let q := { withTree smallTree (loaded [0x5C]) with nsize := 5, params := ⟨16, 4⟩ }
    State.reset.tvalid = false ∧
    ({ withTree smallTree State.reset with ipos := 1 }.tvalid = true ∧
      ¬ { withTree smallTree State.reset with ipos := 1 }.ipos.toNat ≤ State.reset.ilen.toNat) ∧
    ((withTree rootLeaf State.reset).holdsTree rootLeaf ∧ rootLeaf.isLeaf = true ∧
      0 < ({ withTree rootLeaf State.reset with nsize := 1 }).nsize.toNat) ∧
    (s.ready ∧ s.params.wf = true ∧ s.holdsTree smallTree ∧ (∀ x ∈ smallRun, x ∈ smallTree.paths) ∧
      streamBits s.payload = smallRun.flatMap (fun x => x.2) ++ [] ∧ ((0x61 : Byte), [] ++ [false]) ∈ smallTree.paths ∧
      smallRun.length < s.nsize.toNat ∧ s.olen.toNat + smallRun.length ≤ s.params.obufCap) ∧
    (r.ready ∧ r.params.wf = true ∧ r.holdsTree smallTree ∧
      streamBits r.payload = (smallRun.take 4).flatMap (fun x => x.2) ++ [true] ∧
      ((0x62 : Byte), [true] ++ [false]) ∈ smallTree.paths ∧ (smallRun.take 4).length < r.nsize.toNat ∧
      r.olen.toNat + (smallRun.take 4).length ≤ r.params.obufCap) ∧
    q.ready ∧ q.params.wf = true ∧ q.holdsTree smallTree ∧ q.olen.toNat ≤ q.params.obufCap ∧
      smallRun.flatMap (fun x => x.2) <+: streamBits q.payload ∧ smallRun.length ≤ q.nsize.toNat ∧
      q.params.obufCap < q.olen.toNat + smallRun.length :=
  ⟨rfl, ⟨rfl, by decide⟩, ⟨rootLeaf_held, rfl, by decide⟩,
    ⟨by decide, by decide, smallTree_held, by decide +kernel, by decide +kernel, by decide +kernel, by decide,
      by decide⟩,
    ⟨by decide, by decide, smallTree_held, by decide +kernel, by decide +kernel, by decide, by decide⟩,
    by decide, by decide, smallTree_held, by decide, by decide +kernel, by decide, by decide⟩

/-- RDSIZE with three bytes left, and with four. -/
theorem witness_RdsizeReadsLittleEndian :
    (loaded [1, 2, 3]).ready ∧ (loaded [1, 2, 3]).ilen.toNat - (loaded [1, 2, 3]).ipos.toNat < 4 ∧
    (loaded [1, 2, 3, 4]).ready ∧ 4 ≤ (loaded [1, 2, 3, 4]).ilen.toNat - (loaded [1, 2, 3, 4]).ipos.toNat := by
  decide +kernel

/-- COMPRESS of the empty payload completes, and its output can be another engine's input. -/
theorem witness_CompressThenDecompressIsTheIdentity :
    State.reset.ready ∧ State.reset.params.wf = true ∧ State.reset.ilen.toNat ≤ State.reset.params.ibufCap ∧
    771 + (255 * State.reset.ilen.toNat + 7) / 8 ≤ State.reset.params.obufCap ∧
    ∃ s', exec .compress State.reset = .next s' ∧ s'.done = true ∧
      (loaded s'.output).ready ∧ (loaded s'.output).params.wf = true ∧
      (loaded s'.output).ilen.toNat ≤ (loaded s'.output).params.ibufCap ∧
      State.reset.ilen.toNat ≤ (loaded s'.output).params.obufCap ∧ (loaded s'.output).input = s'.output := by
  refine ⟨⟨rfl, rfl⟩, by decide, Nat.zero_le _, by decide +kernel, ?_⟩
  have h := test_compress
  cases he : exec .compress State.reset with
  | next s' =>
    rw [he] at h
    simp only [nextHas, Bool.and_eq_true, beq_iff_eq] at h
    obtain ⟨⟨⟨hd, -⟩, ho⟩, -⟩ := h
    have hl : s'.output.length ≤ 2 ^ 28 := by simp [State.output, ho]
    obtain ⟨h1, h2, h3, -, -, h4⟩ := witness_loaded s'.output hl
    exact ⟨s', rfl, hd, h1, h2, h3, Nat.zero_le _, h4⟩
  | fault r => rw [he] at h; cases h
  | refused r => rw [he] at h; cases h

/-- COMPRESS where the artifact of the empty payload fits exactly, and where it is one byte too long. -/
theorem witness_CompressProducesTheArtifact (code : Table Code 8) :
    let s := { State.reset with params := ⟨1, 771⟩ }
    let r := { State.reset with params := ⟨1, 770⟩ }
    (s.ready ∧ s.params.wf = true ∧ s.ilen.toNat ≤ s.params.ibufCap ∧
      771 + ((codeBits code s.input).length + 7) / 8 ≤ s.params.obufCap) ∧
    r.ready ∧ r.params.wf = true ∧ r.ilen.toNat ≤ r.params.ibufCap ∧
      r.params.obufCap < 771 + ((codeBits code r.input).length + 7) / 8 := by
  have h : ∀ p, State.input { State.reset with params := p } = [] := fun _ => rfl
  simp only [h]
  exact ⟨⟨⟨rfl, rfl⟩, by decide, by decide, by simp [codeBits]⟩, ⟨rfl, rfl⟩, by decide, by decide, by simp [codeBits]⟩

theorem witness_AnyConformingArtifactDecompresses :
    let bs := sizeBytes (BitVec.ofNat 32 [0x41, 0x42].length) ++ fullTree.bytes ++
      packed (codeBits (codeTableOf fullTree) [0x41, 0x42]) ++ [0xFF]
    fullTree.coversAlphabet ∧ (loaded bs).ready ∧ (loaded bs).params.wf = true ∧ (loaded bs).input = bs ∧
    [0x41, 0x42].length ≤ (loaded bs).params.obufCap :=
  ⟨fullTree_covers, ⟨rfl, rfl⟩, by decide, loaded_input _ (by decide +kernel), by decide⟩

/-- The parts of COMPRESS run one by one on the empty payload complete, since COMPRESS does (V2). -/
theorem witness_CompressEqualsItsParts_completes :
    State.reset.ready ∧ ∃ s', thenExec (thenExec (thenExec (thenExec (thenExec
      (exec .hist State.reset.startCompress) .build) .gen) .wrsize) .ser) .pack = .next s' ∧ s'.err = false := by
  refine ⟨⟨rfl, rfl⟩, ?_⟩
  obtain ⟨-, -, -, -, s', he, hd, -⟩ := witness_CompressThenDecompressIsTheIdentity
  rw [exec_eq_runCommand .compress (by decide)] at he
  rcases runCommand_cases _ _ _ he with ⟨h, -⟩ | ⟨-, u, hu, -⟩ | ⟨-, f, u, -, rfl⟩
  · rcases h with h | h <;> cases h
  · obtain ⟨s1, s2, s3, s4, s5, h1, h2, h3, h4, h5, h6⟩ := bodyCompress_eq_ok _ _ hu
    have k1 := bodyOf_ok .hist _ _ h1
    have k2 := k1.trans (bodyOf_ok .build _ _ h2)
    have k3 := k2.trans (bodyOf_ok .gen _ _ h3)
    have k4 := k3.trans (bodyOf_ok .wrsize _ _ h4)
    have k5 := k4.trans (bodyOf_ok .ser _ _ h5)
    have k6 := k5.trans (bodyOf_ok .pack _ _ h6)
    have e1 : exec .hist State.reset.startCompress = .next s1.flagsCompleted :=
      runCommand_completes bodyHist State.reset.startCompress s1 ⟨rfl, rfl⟩ h1
    have e2 := exec_flagsCompleted .build (by decide) s1 s2 k1.busy k1.done k1.err h2
    have e3 := exec_flagsCompleted .gen (by decide) s2 s3 k2.busy k2.done k2.err h3
    have e4 := exec_flagsCompleted .wrsize (by decide) s3 s4 k3.busy k3.done k3.err h4
    have e5 := exec_flagsCompleted .ser (by decide) s4 s5 k4.busy k4.done k4.err h5
    have e6 := exec_flagsCompleted .pack (by decide) s5 u k5.busy k5.done k5.err h6
    refine ⟨u.flagsCompleted, ?_, k6.err⟩
    rw [e1, thenExec, e2, thenExec, e3, thenExec, e4, thenExec, e5, thenExec, e6]
  · cases hd

/-- The parts of COMPRESS run one by one out of range. -/
theorem witness_CompressEqualsItsParts_faults :
    nextHas (thenExec (thenExec (thenExec (thenExec (thenExec
      (exec .hist { State.reset with ilen := 0x10000001 }.startCompress) .build) .gen) .wrsize) .ser) .pack)
      (fun s => s.err) = true := by decide +kernel

/-- The parts of DECOMPRESS run one by one: on a stream that holds an artifact, and on an empty one. -/
theorem witness_DecompressEqualsItsParts :
    nextHas (thenExec (thenExec (exec .rdsize
      (loaded ([0x05, 0x00, 0x00, 0x00] ++ smallTree.bytes ++ [0x5C])).startDecompress) .des) .unpack)
      (fun s => !s.err) = true ∧
    nextHas (thenExec (thenExec (exec .rdsize State.reset.startDecompress) .des) .unpack) (fun s => s.err) = true := by
  decide +kernel

theorem witness_FaultRollsTheRegistersBack :
    State.reset.ready ∧ nextHas (exec .gen State.reset) (fun s => s.err) = true := by decide +kernel

/-- A step after a fault: an ignored command, ACK, and the reset input. -/
theorem witness_OnlyAckOrResetClearsErr :
    let s := rejectWord State.reset
    s.err = true ∧ nextHas (step (s.issueFirst (scriptCMD .nop))) (fun s => s.err) = true ∧
    nextHas (step (s.issueFirst (scriptCMD .ack))) (fun s => !s.err) = true ∧
    nextHas (step (s.issueFirst .rst)) (fun s => !s.err) = true := by decide +kernel

/-- A command other than ACK, and ACK, without a fault; also a next state for the frame statements. -/
theorem witness_CompletionSetsDone :
    State.reset.ready ∧ nextHas (exec .hist State.reset) (fun s => !s.err) = true ∧
    nextHas (exec .ack State.reset) (fun s => !s.err) = true := by decide +kernel

/-- An `IBUF` that differs above `ILEN` only. -/
theorem witness_BytesBeyondIlenAreNeverRead :
    ∀ a, a < (loaded [0x41]).ilen.toNat →
      State.ibufByte { loaded [0x41] with ibuf := cellsFrom 0 [0x41, 0x07] } a = (loaded [0x41]).ibufByte a := by
  intro a ha
  have h : a = 0 := by
    have : (loaded [0x41]).ilen.toNat = 1 := rfl
    omega
  subst h
  rfl

theorem witness_ProducersForgetTheirOldDestination :
    State.reset.ready ∧ State.reset.inputInRange = true ∧
    (withTree smallTree State.reset).ready ∧ (withTree smallTree State.reset).holdsTree smallTree ∧
    smallTree.isLeaf = false ∧
    ∀ i : NodeIdx, (withTree smallTree State.reset).ncount.toNat ≤ i.toNat →
      (if i.toNat < 5 then true else ((withTree smallTree State.reset).node.get i).visited)
        = ((withTree smallTree State.reset).node.get i).visited := by
  refine ⟨⟨rfl, rfl⟩, by decide, ⟨rfl, rfl⟩, smallTree_held, rfl, fun i hi => if_neg ?_⟩
  have : (withTree smallTree State.reset).ncount.toNat = 5 := rfl
  omega

/-- Each port statement: the engine idle with the operation in front. -/
theorem witness_port_idle (op : PortOp) :
    (State.reset.issueFirst op).busy = false ∧ (State.reset.issueFirst op).params.wf = true ∧
    (State.reset.issueFirst op).port = op :: [] := ⟨rfl, reset_params_wf, rfl⟩

/-- Each clause of the windows at its last word. -/
theorem witness_WindowReadsShowTheMemories :
    (7 : Nat) < 8 ∧ (510 : NodeIdx) ≠ NULL ∧ (3 : Nat) < 4 ∧
    ((withTree fullTree State.reset).tvalid = true ∧
      (510 : NodeIdx).toNat < (withTree fullTree State.reset).ncount.toNat) ∧
    ¬ (State.reset.tvalid = true ∧ (510 : NodeIdx).toNat < State.reset.ncount.toNat) ∧
    ¬ (4 : NodeIdx).toNat + 1 < (withTree smallTree State.reset).ncount.toNat := by decide +kernel

/-- Each clause of the buffer windows at its last byte. -/
theorem witness_BufferWindowsMoveSingleBytes :
    let s := { State.reset with params := ⟨16, 8⟩, olen := 3, obuf := cellsFrom 0 [7, 8, 9] }
    s.busy = false ∧ s.params.wf = true ∧ 15 < s.params.ibufCap ∧ 7 < s.params.obufCap ∧
    2 < s.olen.toNat ∧ s.olen.toNat ≤ s.params.obufCap ∧ s.obuf.read? 2 = some 9 ∧ s.olen.toNat ≤ 3 := by
  decide +kernel

/-- Each range of bad addresses at its first and last word or byte. -/
theorem witness_BadAccessesReadZeroAndWriteNothing :
    Params.wf ⟨16, 8⟩ = true ∧
    (∀ a ∈ [0x00000001#32, 0x00000024, 0x000003FC, 0x00000C00, 0x00001FFC, 0x00003FF0, 0x00003FFC, 0x00006000, 0xFFFFFFFC],
      a.toNat % 4 ≠ 0 ∨ (0x24 ≤ a.toNat ∧ a.toNat < 0x400) ∨ (0xC00 ≤ a.toNat ∧ a.toNat < 0x2000) ∨
        (0x3FF0 ≤ a.toNat ∧ a.toNat < 0x4000) ∨ 0x6000 ≤ a.toNat) ∧
    (∀ a ∈ [0x00000000#32, 0x0FFFFFFF, 0x10000010, 0x1FFFFFFF, 0x20000008, 0xFFFFFFFF],
      ¬ (0x10000000 ≤ a.toNat ∧ a.toNat < 0x10000000 + (⟨16, 8⟩ : Params).ibufCap) ∧
        ¬ (0x20000000 ≤ a.toNat ∧ a.toNat < 0x20000000 + (⟨16, 8⟩ : Params).obufCap)) :=
  ⟨by decide, by simp, by simp⟩

theorem witness_BusyPortIsClosed :
    let s := { State.reset with busy := true, port := [.read32 0x0000000C] }
    s.busy = true ∧ s.port = .read32 0x0000000C :: [] ∧ (0x0000000C : Word) ≠ regOffset .status ∧
    (0x0000000C : Word) ≠ regOffset .ctrl := by decide +kernel

/-- Each clause of the writes: a writable register, a read-only one, the first and last word of each window, and the
`IBUF` window at its last byte and just outside it. -/
theorem witness_PortAccessesHaveNoOtherEffect :
    (State.reset.issueFirst (.write32 0x0000000C 5)).port = .write32 0x0000000C 5 :: [] ∧
    (∀ a ∈ [0x00000004#32, 0x00000014, 0x00000020, 0x00000400, 0x000007FC, 0x00000800, 0x00000BFC, 0x00002000, 0x00003FEC,
      0x00004000, 0x00005FFC], a ∉ [0x00000000#32, 0x00000008, 0x0000000C, 0x00000010, 0x00000018]) ∧
    (0x10000000 ≤ (0x1000000F#32).toNat ∧ (0x1000000F#32).toNat < 0x10000000 + (⟨16, 8⟩ : Params).ibufCap) ∧
    ¬ (0x10000000 ≤ (0x10000010#32).toNat ∧ (0x10000010#32).toNat < 0x10000000 + (⟨16, 8⟩ : Params).ibufCap) := by
  refine ⟨rfl, ?_, ?_, ?_⟩ <;> simp

/-- LOAD of as many bytes as fit. -/
theorem witness_LoadFillsTheInput :
    let s := { State.reset with params := ⟨2, 1⟩, port := scriptLOAD [0x41, 0x42] ++ [] }
    s.busy = false ∧ s.params.wf = true ∧ [0x41, 0x42].length ≤ s.params.ibufCap ∧
    s.port = scriptLOAD [0x41, 0x42] ++ [] := by decide +kernel

theorem witness_ResetInputGivesTheResetState :
    ({ withTree smallTree State.reset with busy := true, port := [.rst] } : State).port = .rst :: [] := rfl

/-- A step from a state that meets the invariant, running a command. -/
theorem witness_EveryStepKeepsTheInvariant :
    Inv { withTree smallTree State.reset with port := [scriptCMD .gen] } ∧
    nextHas (step { withTree smallTree State.reset with port := [scriptCMD .gen] }) (fun s => s.done) = true :=
  ⟨witness_Inv _, by decide +kernel⟩

end Sys2Proof.Tests
end

section
/-! PROOFS. The host port and the register images: the statements about reads and writes of registers, the frame of a
port access, the interrupt output and the values at reset. -/

namespace Sys2Proof.Machine

/-! ### Port accesses of a register -/

theorem locate32_regOffset (r : Reg) : locate32 (regOffset r) = .reg r := (locate32_eq_reg _ r).mpr rfl

/-- A 32-bit write anywhere but at `CMD` is a port access. -/
theorem step_write32 (s : State) (a v : Word) (rest : List PortOp) (h : s.port = .write32 a v :: rest)
    (ha : a ≠ regOffset .cmd) : step s = .next ((taken rest s).write32At v (locate32 a)) :=
  step_access s _ rest h (by
    have hcmd : locate32 a ≠ .reg .cmd := fun hl => ha ((locate32_eq_reg a .cmd).mp hl)
    simp [classify, hcmd])

/-- A read of a register of an idle engine answers the register and does nothing else. -/
theorem step_readReg (s : State) (r : Reg) (rest : List PortOp) (hb : s.busy = false)
    (h : s.port = scriptRD r :: rest) : step s = .next (State.replyWord (s.readReg r) (taken rest s)) := by
  rw [step_access s _ rest h rfl]
  simp only [scriptRD, portAccess, locate32_regOffset, State.read32At, hb]
  cases r <;> rfl

/-- A write of a register other than `CMD` of an idle engine is `writeReg`. -/
theorem step_writeReg (s : State) (r : Reg) (v : Word) (rest : List PortOp) (hb : s.busy = false)
    (hr : regOffset r ≠ regOffset .cmd) (h : s.port = scriptWR r v :: rest) :
    step s = .next ((taken rest s).writeReg v r) := by
  rw [step_write32 s _ v rest h hr, locate32_regOffset]
  simp [State.write32At, hb]

/-! ### The images of the registers -/

theorem toNat_append_eq_add {m n : Nat} (x : BitVec m) (y : BitVec n) :
    (x ++ y).toNat = x.toNat * 2 ^ n + y.toNat := by
  rw [BitVec.toNat_append, ← Nat.shiftLeft_add_eq_or_of_lt y.isLt, Nat.shiftLeft_eq]

/-- The fields of `STATUS` as one number (R23). -/
theorem statusWord_eq_ofNat (s : State) :
    s.statusWord = BitVec.ofNat 32 (s.busy.toNat + 2 * s.done.toNat + 4 * s.err.toNat + 8 * s.tvalid.toNat
      + 256 * s.fcode.toNat) := by
  apply BitVec.eq_of_toNat_eq
  have hf := s.fcode.isLt
  have hb := s.busy.toNat_le
  have hd := s.done.toNat_le
  have he := s.err.toNat_le
  have ht := s.tvalid.toNat_le
  simp only [State.statusWord, toNat_append_eq_add, BitVec.toNat_ofNat, BitVec.toNat_ofBool]
  omega

theorem ctrlWord_eq_ofNat (s : State) : s.ctrlWord = BitVec.ofNat 32 s.ie.toNat := by
  unfold State.ctrlWord
  cases s.ie <;> rfl

/-! ### What a port access can change -/

/-- Only the port's answer and the count of draws differ. -/
def AnswersOnly (s s' : State) : Prop := s' = { s with reply := s'.reply, draws := s'.draws }

theorem replyWord_answersOnly (v : Word) (s : State) : AnswersOnly s (s.replyWord v) := rfl
theorem replyByte_answersOnly (b : Byte) (s : State) : AnswersOnly s (s.replyByte b) := rfl
theorem replyFreeWord_answersOnly (s : State) : AnswersOnly s s.replyFreeWord := rfl
theorem replyFreeByte_answersOnly (s : State) : AnswersOnly s s.replyFreeByte := rfl

theorem readNodeWord_answersOnly (s : State) (i : NodeIdx) (k : Nat) : AnswersOnly s (s.readNodeWord i k) := by
  unfold State.readNodeWord
  split
  · split
    · exact replyWord_answersOnly _ s
    · exact replyFreeWord_answersOnly s
  · exact replyFreeWord_answersOnly s

theorem readObufByte_answersOnly (s : State) (i : Nat) : AnswersOnly s (s.readObufByte i) := by
  unfold State.readObufByte
  split
  · split
    · exact replyByte_answersOnly _ s
    · exact replyFreeByte_answersOnly s
  · exact replyFreeByte_answersOnly s

/-- A 32-bit read changes only the answer, wherever it goes (R72). -/
theorem read32At_answersOnly (s : State) (l : Loc) : AnswersOnly s (s.read32At l) := by
  unfold State.read32At
  split
  · cases l with
    | reg r =>
      dsimp only
      split
      · exact replyWord_answersOnly _ s
      · exact replyFreeWord_answersOnly s
    | _ => exact replyFreeWord_answersOnly s
  · cases l with
    | nodeWord i k => exact readNodeWord_answersOnly s i k
    | _ => exact replyWord_answersOnly _ s

/-- An 8-bit read changes only the answer, wherever it goes (R72). -/
theorem read8At_answersOnly (s : State) (l : Loc) : AnswersOnly s (s.read8At l) := by
  unfold State.read8At
  split
  · exact replyFreeByte_answersOnly s
  · cases l with
    | obufByte i => exact readObufByte_answersOnly s i
    | _ => exact replyByte_answersOnly _ s

/-- A step that takes a write of a register other than `CMD` does nothing (the register is closed, R77) or `writeReg`. -/
theorem step_write32_reg (s : State) (r : Reg) (v : Word) (rest : List PortOp)
    (h : s.port = .write32 (regOffset r) v :: rest) (hr : regOffset r ≠ regOffset .cmd) :
    step s = .next (taken rest s) ∨ step s = .next ((taken rest s).writeReg v r) := by
  rw [step_write32 s _ v rest h hr, locate32_regOffset, State.write32At]
  split
  · exact .inl rfl
  · exact .inr rfl

/-- A 32-bit write at an offset other than those of the five registers that take one does nothing (R47, R66). -/
theorem write32At_elsewhere (s : State) (a v : Word)
    (ha : a ∉ [0x00000000#32, 0x00000008, 0x0000000C, 0x00000010, 0x00000018]) :
    s.write32At v (locate32 a) = s := by
  have hne (r : Reg) (hr : regOffset r ∈ [0x00000000#32, 0x00000008, 0x0000000C, 0x00000010, 0x00000018]) :
      locate32 a ≠ .reg r := fun hl => ha ((locate32_eq_reg a r).mp hl ▸ hr)
  rcases write32At_cases v s (locate32 a) with ⟨h, -⟩ | ⟨h, -⟩ | ⟨h, -⟩ | ⟨h, -⟩ | ⟨-, h⟩
  · exact absurd h (hne .ctrl (by decide))
  · exact absurd h (hne .ilen (by decide))
  · exact absurd h (hne .ipos (by decide))
  · exact absurd h (hne .nsize (by decide))
  · exact h

/-- An 8-bit access outside the `IBUF` window names no byte of `IBUF`. -/
theorem locate8_ne_ibuf (p : Params) (a : Word) (h : ¬ (0x10000000 ≤ a.toNat ∧ a.toNat < 0x10000000 + p.ibufCap))
    (i : Nat) : locate8 p a ≠ .ibufByte i := by
  unfold locate8
  dsimp only
  rw [if_neg h]
  split <;> exact Loc.noConfusion

/-- An 8-bit write changes at most the byte of `IBUF` it names (R64). -/
theorem write8At_ibuf (b : Byte) (s : State) (i : Nat) :
    ∃ m, s.write8At b (.ibufByte i) = { s with ibuf := m } ∧ ∀ k, i ≠ k → m.read? k = s.ibuf.read? k := by
  rcases write8At_cases b s (.ibufByte i) with ⟨j, hj, -, h⟩ | ⟨-, h⟩
  · cases hj
    exact ⟨_, h, fun k hk => by rw [Memory.read?_write, if_neg hk]⟩
  · exact ⟨s.ibuf, h, fun _ _ => rfl⟩

theorem write8At_elsewhere (b : Byte) (s : State) (l : Loc) (hl : ∀ i, l ≠ .ibufByte i) : s.write8At b l = s := by
  rcases write8At_cases b s l with ⟨i, hi, -⟩ | ⟨-, h⟩
  · exact absurd hi (hl i)
  · exact h

/-! ### The statements -/

/-- Settles O4, by the step's rule for a `CMD` write and the decoder's answer. -/
theorem stepRunsTheDecodedCommand : Obligations.StepRunsTheDecodedCommand := by
  intro s w i rest hport hdec
  rw [step_command s w rest hport, submit, hdec]

/-- Settles O47: a read answers `readReg`, whose words are the registers' values. -/
theorem registerReadsReturnTheRegisters : Obligations.RegisterReadsReturnTheRegisters := by
  intro s rest r hb hport
  rw [step_readReg s r rest hb hport]
  cases r with
  | status => rw [State.readReg, statusWord_eq_ofNat]; rfl
  | ctrl => rw [State.readReg, ctrlWord_eq_ofNat]; rfl
  | root => rw [BitVec.ofNat_toNat 32 s.root]; rfl
  | ncount => rw [BitVec.ofNat_toNat 32 s.ncount]; rfl
  | _ => rfl

/-- Settles O48: a register write is `writeReg`. -/
theorem registerWritesReachOnlyWritableRegisters : Obligations.RegisterWritesReachOnlyWritableRegisters := by
  intro s rest v hb
  refine ⟨step_writeReg s .ctrl v rest hb (by decide), step_writeReg s .ilen v rest hb (by decide),
    step_writeReg s .ipos v rest hb (by decide), step_writeReg s .nsize v rest hb (by decide), fun r hr hport => ?_⟩
  fin_cases hr <;> exact step_writeReg s _ v rest hb (by decide) hport

/-- Settles O53: reads change only the answer, a 32-bit write is `writeReg` or nothing, an 8-bit write one byte of `IBUF`
or nothing. -/
theorem portAccessesHaveNoOtherEffect : Obligations.PortAccessesHaveNoOtherEffect := by
  intro s rest
  refine ⟨fun a hport => ?_, fun a v hport => ⟨?_, ?_, ?_, ?_, fun ha => ?_⟩, fun a b hport => ⟨fun ha => ?_, fun ha => ?_⟩⟩
  · rcases hport with hport | hport
    · exact ⟨_, step_access s _ rest hport rfl, read32At_answersOnly (taken rest s) (locate32 a)⟩
    · exact ⟨_, step_access s _ rest hport rfl, read8At_answersOnly (taken rest s) (locate8 s.params a)⟩
  · rintro rfl
    exact (step_write32_reg s .ctrl v rest hport (by decide)).elim (fun h => ⟨s.ie, h⟩) (fun h => ⟨v.getLsbD 0, h⟩)
  · rintro rfl
    exact (step_write32_reg s .ilen v rest hport (by decide)).elim (fun h => ⟨s.ilen, h⟩) (fun h => ⟨v, h⟩)
  · rintro rfl
    exact (step_write32_reg s .ipos v rest hport (by decide)).elim (fun h => ⟨s.ipos, h⟩) (fun h => ⟨v, h⟩)
  · rintro rfl
    exact (step_write32_reg s .nsize v rest hport (by decide)).elim (fun h => ⟨s.nsize, h⟩) (fun h => ⟨v, h⟩)
  · have hcmd : a ≠ regOffset .cmd := fun h => ha (h ▸ by decide)
    rw [step_write32 s a v rest hport hcmd, write32At_elsewhere _ a v ha]
  · obtain ⟨m, hm, hother⟩ := write8At_ibuf b (taken rest s) (a.toNat - 0x10000000)
    have hstep : step s = .next ((taken rest s).write8At b (locate8 s.params a)) := step_access s _ rest hport rfl
    rw [locate8_ibuf s.params a ha.1 ha.2, hm] at hstep
    refine ⟨_, hstep, rfl, fun k hk => ?_⟩
    have hread : m.read? k = s.ibuf.read? k := hother k (by omega)
    exact ⟨hread, by simp only [State.ibufByte, hread]⟩
  · rw [step_access s _ rest hport rfl]
    exact congrArg _ (write8At_elsewhere b (taken rest s) _ (locate8_ne_ibuf s.params a ha))

/-- Settles O55: `irq` is a boolean formula of the three flags. -/
theorem irqIsIeAndOutcome : Obligations.IrqIsIeAndOutcome := by
  intro s
  simp [State.irq]

/-- Settles O56: the tables of the reset state hold the same entry everywhere. -/
theorem resetLeavesTheSpecsValues : Obligations.ResetLeavesTheSpecsValues :=
  ⟨rfl, rfl, rfl, rfl, rfl, rfl, rfl, rfl, Table.get_fill 8 0, fun b => by simp [State.reset, Code.none], rfl⟩

end Sys2Proof.Machine
end

section
/-! PROOFS. What commands leave alone and do not read: the input side of the state, the bytes of `IBUF` at or above
`ILEN`, what the producers overwrite; and the arithmetic of full trees. -/

namespace Sys2Proof.Machine

/-! ### The arithmetic of full trees (R35, R98) -/

theorem ITree.length_bytes (t : ITree) : t.bytes.length + 1 = 3 * t.leaves := by
  induction t with
  | leaf i s => rfl
  | branch i l r ihl ihr =>
    simp only [ITree.bytes, ITree.leaves, List.length_cons, List.length_append]
    omega

theorem ITree.size_of_occupies {n : Nat} {t : ITree} (h : t.occupies n) : t.size = n := by
  have := List.Perm.length_eq h
  simpa using this

/-- Indices have nine bits and the size of a full tree is odd, so no tree in the arena has more than 511 nodes (R33). -/
theorem ITree.size_le_of_occupies {n : Nat} {t : ITree} (h : t.occupies n) : t.size ≤ NNODE := by
  have hsize := t.size_eq
  have hn := ITree.size_of_occupies h
  have hle : n ≤ 512 := by
    by_contra hgt
    obtain ⟨i, -, hi⟩ := List.mem_map.mp (h.mem_iff.mpr (List.mem_range.mpr (show 512 < n by omega)))
    have := i.isLt
    omega
  show t.size ≤ 511
  omega

theorem ITree.depth_le_of_occupies {n : Nat} {t : ITree} (h : t.occupies n) : t.depth ≤ 255 := by
  have hsize : t.size ≤ 511 := ITree.size_le_of_occupies h
  have := t.size_eq
  have := t.depth_lt_leaves
  omega

/-- Settles O23: everything follows from the number of leaves. -/
theorem treeArithmetic : Obligations.TreeArithmetic := by
  refine ⟨fun t => ⟨t.leaves - 1, ?_⟩, fun s t ⟨_, _, _, hocc⟩ => ⟨ITree.size_of_occupies hocc, ?_,
    ITree.depth_le_of_occupies hocc⟩⟩
  · have := t.leaves_pos
    have := t.size_eq
    have := t.depth_lt_leaves
    have := t.length_bytes
    omega
  · have := t.size_eq
    have := ITree.size_of_occupies hocc
    omega

/-! ### The input side (R71, R73) -/

/-- Settles O42: no body touches the host's side, and acceptance, completion and faults write only the flags and the
rolled-back registers, of which `ILEN` goes back to what it was. -/
theorem noCommandTouchesTheInputSide : Obligations.NoCommandTouchesTheInputSide := by
  intro i s s' h
  by_cases hi : i = .ack
  · subst hi
    cases hb : s.busy
    · rw [exec_ack, runAck_eq s hb] at h
      cases h
      exact ⟨rfl, rfl, rfl, rfl, rfl, rfl, rfl, rfl⟩
    · rw [exec_ack, runAck_ignored s hb] at h
      cases h
      exact ⟨rfl, rfl, rfl, rfl, rfl, rfl, rfl, rfl⟩
  · rw [exec_eq_runCommand i hi] at h
    rcases runCommand_cases _ s s' h with ⟨-, rfl⟩ | ⟨-, s1, hb, rfl⟩ | ⟨-, f, s1, hb, rfl⟩
    · exact ⟨rfl, rfl, rfl, rfl, rfl, rfl, rfl, rfl⟩
    · have k := bodyOf_ok i _ _ hb
      exact ⟨k.ilen, k.ie, k.ibuf, k.params, k.port, k.reply, k.draws, k.epoch⟩
    · have k := bodyOf_raise i _ _ _ hb
      exact ⟨rfl, k.ie, k.ibuf, k.params, k.port, k.reply, k.draws, k.epoch⟩

/-! ### Bytes of `IBUF` at or above `ILEN` (R25) -/

/-- The state with another content of `IBUF`. -/
def State.withIbuf (m : Memory) (s : State) : State := { s with ibuf := m }

@[simp] theorem State.withIbuf_params (m : Memory) (s : State) : (s.withIbuf m).params = s.params := rfl
@[simp] theorem State.withIbuf_inputInRange (m : Memory) (s : State) : (s.withIbuf m).inputInRange = s.inputInRange := rfl
@[simp] theorem State.withIbuf_tvalid (m : Memory) (s : State) : (s.withIbuf m).tvalid = s.tvalid := rfl
@[simp] theorem State.withIbuf_ilen (m : Memory) (s : State) : (s.withIbuf m).ilen = s.ilen := rfl
@[simp] theorem State.withIbuf_ipos (m : Memory) (s : State) : (s.withIbuf m).ipos = s.ipos := rfl
@[simp] theorem State.withIbuf_olen (m : Memory) (s : State) : (s.withIbuf m).olen = s.olen := rfl
@[simp] theorem State.withIbuf_nsize (m : Memory) (s : State) : (s.withIbuf m).nsize = s.nsize := rfl
@[simp] theorem State.withIbuf_root (m : Memory) (s : State) : (s.withIbuf m).root = s.root := rfl
@[simp] theorem State.withIbuf_ncount (m : Memory) (s : State) : (s.withIbuf m).ncount = s.ncount := rfl
@[simp] theorem State.withIbuf_hist (m : Memory) (s : State) : (s.withIbuf m).hist = s.hist := rfl
@[simp] theorem State.withIbuf_node (m : Memory) (s : State) : (s.withIbuf m).node = s.node := rfl
@[simp] theorem State.withIbuf_code (m : Memory) (s : State) : (s.withIbuf m).code = s.code := rfl
@[simp] theorem genStart_withIbuf (m : Memory) (s : State) : genStart (s.withIbuf m) = genStart s := rfl
@[simp] theorem unpackBound_withIbuf (m : Memory) (s : State) : unpackBound (s.withIbuf m) = unpackBound s := rfl

/-- The content `m` has the bytes of `IBUF` below `ILEN`. -/
def State.inputAgrees (m : Memory) (s : State) : Prop :=
  ∀ a, a < s.ilen.toNat → (s.withIbuf m).ibufByte a = s.ibufByte a

/-- A body's result with another content of `IBUF`. -/
def Res.withIbuf {α : Type} (m : Memory) : Res α → Res α
  | .ok a s => .ok a (s.withIbuf m)
  | .raise f s => .raise f (s.withIbuf m)
  | .stuck e => .stuck e

/-- From `s` the body `k` gives the same whether `IBUF` holds its content or `m`. -/
def blindAt {α : Type} (m : Memory) (k : State → Res α) (s : State) : Prop := k (s.withIbuf m) = (k s).withIbuf m

/-- Bodies keep the agreement below `ILEN`, since they keep what it speaks of. -/
theorem SameHostSide.inputAgrees {m : Memory} {s t : State} (h : SameHostSide s t) (ha : s.inputAgrees m) :
    t.inputAgrees m := by
  intro a hlt
  have hbyte := ha a (h.ilen ▸ hlt)
  simpa only [State.withIbuf, State.ibufByte, h.ibuf, h.epoch] using hbyte

theorem blindAt_bind {α β : Type} {m : Memory} {s : State} {r : State → Res α} {k : α → State → Res β}
    (ha : s.inputAgrees m) (hr : blindAt m r s) (hkeep : (r s).keepsHostSide s)
    (hk : ∀ a t, t.inputAgrees m → blindAt m (k a) t) : blindAt m (fun s => (r s).bind k) s := by
  unfold blindAt at hr ⊢
  dsimp only
  rw [hr]
  cases h : r s with
  | ok a t =>
    rw [h] at hkeep
    exact hk a t (hkeep.inputAgrees ha)
  | raise f t => rfl
  | stuck e => rfl

/-- The same for bodies in sequence. -/
theorem blindAt_andThen {m : Memory} {s : State} {r k : State → Res Unit}
    (ha : s.inputAgrees m) (hr : blindAt m r s) (hkeep : (r s).keepsHostSide s)
    (hk : ∀ t, t.inputAgrees m → blindAt m k t) : blindAt m (fun s => (r s).andThen k) s :=
  blindAt_bind ha hr hkeep (fun _ => hk)

theorem checkIn_blind (m : Memory) (s : State) : blindAt m checkIn s := by
  unfold blindAt checkIn
  rw [State.withIbuf_inputInRange]
  split <;> rfl

theorem obufAppend_blind (m : Memory) (b : Byte) (s : State) : blindAt m (obufAppend b) s := by
  by_cases h : s.olen.toNat = s.params.obufCap
  · rw [blindAt, obufAppend_raise b s h, obufAppend_raise b (s.withIbuf m) h]
    rfl
  · rw [blindAt, obufAppend_ok b s h, obufAppend_ok b (s.withIbuf m) h]
    rfl

theorem obufAppendAll_blind (m : Memory) (bs : List Byte) (s : State) : blindAt m (obufAppendAll bs) s := by
  unfold blindAt obufAppendAll
  rw [State.withIbuf_olen, State.withIbuf_params]
  split <;> rfl

theorem bodyGen_blind (m : Memory) (s : State) : blindAt m bodyGen s := by
  unfold blindAt bodyGen
  rw [genStart_withIbuf, State.withIbuf_tvalid, State.withIbuf_node, State.withIbuf_root]
  split
  · rfl
  · split
    · rfl
    · cases genLoop genBound (genStart s) <;> rfl

theorem bodySer_blind (m : Memory) (s : State) : blindAt m bodySer s := by
  unfold blindAt bodySer
  rw [State.withIbuf_tvalid, State.withIbuf_node, State.withIbuf_root]
  split
  · rfl
  · cases serBytes NNODE s.node s.root with
    | ok bs => exact obufAppendAll_blind m bs s
    | error e => rfl

theorem packBits_blind (m : Memory) (bs : List Bool) (p : PackAcc) (s : State) (ha : s.inputAgrees m) :
    blindAt m (packBits bs p) s := by
  induction bs generalizing p s with
  | nil => rfl
  | cons b bs ih =>
    by_cases hfull : p.cnt + 1 = 8
    · simp only [blindAt, packBits, if_pos hfull]
      exact blindAt_bind ha (obufAppend_blind m _ s) (obufAppend_keeps _ s) (fun _ t => ih _ t)
    · simp only [blindAt, packBits, if_neg hfull]
      exact ih _ s ha

theorem packSymbols_blind (m : Memory) (xs : List Byte) (p : PackAcc) (s : State) (ha : s.inputAgrees m) :
    blindAt m (packSymbols xs p) s := by
  induction xs generalizing p s with
  | nil => rfl
  | cons x xs ih =>
    rw [blindAt, packSymbols, packSymbols, State.withIbuf_code]
    split
    · rfl
    · exact blindAt_bind ha (packBits_blind m _ p s ha) (packBits_keeps _ p s) ih

theorem flushBits_blind (m : Memory) (p : PackAcc) (s : State) : blindAt m (flushBits p) s := by
  by_cases h : p.cnt > 0
  · simp only [blindAt, flushBits, if_pos h]
    exact obufAppend_blind m _ s
  · simp only [blindAt, flushBits, if_neg h]
    rfl

theorem ibufNext_blind (m : Memory) (f : FaultCode) (s : State) (ha : s.inputAgrees m) : blindAt m (ibufNext f) s := by
  by_cases h : s.ipos.toNat < s.ilen.toNat
  · rw [blindAt, ibufNext_ok f s h, ibufNext_ok f (s.withIbuf m) h,
      show (s.withIbuf m).ibufByte (s.withIbuf m).ipos.toNat = s.ibufByte s.ipos.toNat from ha _ h]
    rfl
  · rw [blindAt, ibufNext_raise f s (not_lt.mp h), ibufNext_raise f (s.withIbuf m) (not_lt.mp h)]
    rfl

/-- The payload ends at `ILEN`. -/
theorem payload_withIbuf (m : Memory) (s : State) (ha : s.inputAgrees m) : (s.withIbuf m).payload = s.payload := by
  refine List.map_congr_left (fun a hmem => ha a ?_)
  have hrange := List.mem_range'_1.mp hmem
  simp only [State.withIbuf] at hrange
  omega

theorem bodyHist_blind (m : Memory) (s : State) (ha : s.inputAgrees m) : blindAt m bodyHist s :=
  blindAt_bind ha (checkIn_blind m s) (checkIn_keeps s) (fun _ t ht => by
    rw [blindAt, payload_withIbuf m t ht]
    rfl)

theorem bodyBuild_blind (m : Memory) (s : State) : blindAt m bodyBuild s := by
  rw [blindAt, bodyBuild_eq, bodyBuild_eq, State.withIbuf_hist]
  generalize buildWith stableOrder .leftIsSecondToLast s.hist = r
  rfl

theorem bodyPack_blind (m : Memory) (s : State) (ha : s.inputAgrees m) : blindAt m bodyPack s :=
  blindAt_bind ha (checkIn_blind m s) (checkIn_keeps s) (fun _ t ht => by
    simp only [blindAt, payload_withIbuf m t ht]
    exact blindAt_bind ht (packSymbols_blind m _ _ t ht) (packSymbols_keeps _ _ t) (fun p u _ => flushBits_blind m p u))

theorem parse_blind (m : Memory) (k : Nat) (p : NodeIdx) (s : State) (ha : s.inputAgrees m) :
    blindAt m (parse k p) s := by
  induction k generalizing p s with
  | zero => rfl
  | succ k ih =>
    refine blindAt_bind ha (ibufNext_blind m _ s ha) (ibufNext_keeps _ s) (fun flag t ht => ?_)
    unfold blindAt
    dsimp only
    rw [State.withIbuf_ncount]
    split
    · rfl
    · split
      · rfl
      · have ht' : (allocNode p t).inputAgrees m := (allocNode_sameHostSide p t).inputAgrees ht
        split
        · exact blindAt_bind ht' (ibufNext_blind m _ _ ht') (ibufNext_keeps _ _) (fun _ _ _ => rfl)
        · refine blindAt_bind ht' (ih _ _ ht') (parse_keeps _ _ _) (fun l u hu => ?_)
          have hu' := (updateNode_sameHostSide (t.ncount.setWidth 9) (fun n => { n with left := l }) u).inputAgrees hu
          exact blindAt_bind (r := parse k _) hu' (ih _ _ hu') (parse_keeps k _ _) (fun _ _ _ => rfl)

theorem bodyDes_blind (m : Memory) (s : State) (ha : s.inputAgrees m) : blindAt m bodyDes s :=
  blindAt_bind ha (checkIn_blind m s) (checkIn_keeps s) (fun _ t ht => by
    have hp := parse_blind m 512 NULL t.dropTree ((dropTree_sameHostSide t).inputAgrees ht)
    simp only [blindAt] at hp ⊢
    rw [show (t.withIbuf m).dropTree = t.dropTree.withIbuf m from rfl, hp]
    cases parse 512 NULL t.dropTree <;> rfl)

theorem fetchBits_blind (m : Memory) (w : Walk) (s : State) (ha : s.inputAgrees m) : blindAt m (fetchBits w) s := by
  by_cases h : w.k = 0
  · simp only [blindAt, fetchBits, if_pos h]
    exact blindAt_bind ha (ibufNext_blind m _ s ha) (ibufNext_keeps _ s) (fun _ _ _ => rfl)
  · simp only [blindAt, fetchBits, if_neg h]
    rfl

theorem consumeBit_blind (m : Memory) (w : Walk) (s : State) (ha : s.inputAgrees m) : blindAt m (consumeBit w) s := by
  simp only [blindAt, consumeBit, State.withIbuf_node]
  split
  · rfl
  · split
    · rfl
    · split
      · exact blindAt_bind ha (obufAppend_blind m _ s) (obufAppend_keeps _ s) (fun _ _ _ => rfl)
      · rfl

theorem unpackLoop_blind (m : Memory) (k : Nat) (w : Walk) (s : State) (ha : s.inputAgrees m) :
    blindAt m (unpackLoop k w) s := by
  induction k generalizing w s with
  | zero => rfl
  | succ k ih =>
    rw [blindAt, unpackLoop, unpackLoop, State.withIbuf_nsize]
    split
    · exact blindAt_bind ha (fetchBits_blind m w s ha) (fetchBits_keeps w s) (fun w t ht =>
        blindAt_bind ht (consumeBit_blind m w t ht) (consumeBit_keeps w t) ih)
    · rfl

theorem bodyUnpack_blind (m : Memory) (s : State) (ha : s.inputAgrees m) : blindAt m bodyUnpack s := by
  rw [blindAt, bodyUnpack, bodyUnpack, State.withIbuf_tvalid]
  split
  · rfl
  · refine blindAt_bind ha (checkIn_blind m s) (checkIn_keeps s) (fun _ t ht => ?_)
    unfold blindAt
    dsimp only
    rw [State.withIbuf_nsize, State.withIbuf_node, State.withIbuf_root, unpackBound_withIbuf]
    split
    · rfl
    · exact unpackLoop_blind m _ _ t ht

theorem bodyRdsize_blind (m : Memory) (s : State) (ha : s.inputAgrees m) : blindAt m bodyRdsize s :=
  blindAt_bind ha (checkIn_blind m s) (checkIn_keeps s) (fun _ t ht => by
    unfold blindAt
    dsimp only
    rw [State.withIbuf_ipos, State.withIbuf_ilen]
    split
    · rfl
    · rw [ht _ (by omega), ht _ (by omega), ht _ (by omega), ht _ (by omega)]
      rfl)

theorem bodyCompress_blind (m : Memory) (s : State) (ha : s.inputAgrees m) : blindAt m bodyCompress s := by
  have hs : s.startCompress.inputAgrees m := ha
  simp only [blindAt, bodyCompress]
  refine blindAt_andThen hs (bodyHist_blind m _ hs) (bodyHist_keeps _) (fun t ht => ?_)
  refine blindAt_andThen ht (bodyBuild_blind m t) (bodyBuild_keeps t) (fun t ht => ?_)
  refine blindAt_andThen ht (bodyGen_blind m t) (bodyGen_keeps t) (fun t ht => ?_)
  refine blindAt_andThen ht (obufAppendAll_blind m _ t) (bodyWrsize_keeps t) (fun t ht => ?_)
  exact blindAt_andThen ht (bodySer_blind m t) (bodySer_keeps t) (bodyPack_blind m)

theorem bodyDecompress_blind (m : Memory) (s : State) (ha : s.inputAgrees m) : blindAt m bodyDecompress s := by
  have hs : s.startDecompress.inputAgrees m := ha
  refine blindAt_andThen (r := bodyRdsize) hs (bodyRdsize_blind m _ hs) (bodyRdsize_keeps _) (fun t ht => ?_)
  exact blindAt_andThen ht (bodyDes_blind m t ht) (bodyDes_keeps t) (bodyUnpack_blind m)

/-- No command's body reads `IBUF` at or above `ILEN`. -/
theorem bodyOf_blind (i : Instr) (m : Memory) (s : State) (ha : s.inputAgrees m) : blindAt m (bodyOf i) s := by
  cases i with
  | nop => rfl
  | ack => rfl
  | orst => rfl
  | hist => exact bodyHist_blind m s ha
  | build => exact bodyBuild_blind m s
  | gen => exact bodyGen_blind m s
  | ser => exact bodySer_blind m s
  | des => exact bodyDes_blind m s ha
  | pack => exact bodyPack_blind m s ha
  | unpack => exact bodyUnpack_blind m s ha
  | wrsize => exact obufAppendAll_blind m _ s
  | rdsize => exact bodyRdsize_blind m s ha
  | compress => exact bodyCompress_blind m s ha
  | decompress => exact bodyDecompress_blind m s ha

/-- Settles O44: the life of a command reads no `IBUF`, and its body is blind to the bytes at or above `ILEN`. -/
theorem bytesBeyondIlenAreNeverRead : Obligations.BytesBeyondIlenAreNeverRead := by
  intro i s m ha
  show exec i (s.withIbuf m) = mapNext (State.withIbuf m) (exec i s)
  by_cases hi : i = .ack
  · subst hi
    cases hb : s.busy
    · rw [exec_ack, exec_ack, runAck_eq s hb, runAck_eq (s.withIbuf m) hb]
      rfl
    · rw [exec_ack, exec_ack, runAck_ignored s hb, runAck_ignored (s.withIbuf m) hb]
      rfl
  · rw [exec_eq_runCommand i hi, exec_eq_runCommand i hi]
    by_cases hig : s.busy = true ∨ s.err = true
    · rw [runCommand_ignored _ s hig, runCommand_ignored _ (s.withIbuf m) hig]
      rfl
    · have hr : s.ready := by simpa [State.ready] using hig
      have hbody : bodyOf i (s.withIbuf m).flagsAccepted = (bodyOf i s.flagsAccepted).withIbuf m :=
        bodyOf_blind i m s.flagsAccepted ha
      rw [runCommand_ready _ s hr, runCommand_ready _ (s.withIbuf m) hr, hbody]
      cases bodyOf i s.flagsAccepted <;> rfl

/-! ### What the producers overwrite (R42, R44) -/

/-- GEN clears the marks of the entries in use before it starts, so marks that differ only there make no difference. -/
theorem clearVisited_mapEntries (n : Nat) (nd : Table Node 9) (g : NodeIdx → Bool)
    (hg : ∀ i : NodeIdx, n ≤ i.toNat → g i = (nd.get i).visited) :
    clearVisited n (nd.mapEntries (fun i x => { x with visited := g i })) = clearVisited n nd := by
  refine Table.ext_get _ _ (fun i => ?_)
  simp only [get_clearVisited, Table.get_mapEntries]
  split
  · rfl
  · rw [hg i (by omega)]

theorem isLeafAt_mapEntries (nd : Table Node 9) (g : NodeIdx → Bool) (i : NodeIdx) :
    isLeafAt (nd.mapEntries (fun i x => { x with visited := g i })) i = isLeafAt nd i := by
  by_cases hi : i = NULL
  · subst hi
    rfl
  · rw [isLeafAt_of_ne _ i hi, isLeafAt_of_ne _ i hi, Table.get_mapEntries]
    rfl

/-- GEN's end: the arena and code table of a traversal that finished. -/
def endGen (s : State) : Except Fault Traversal → Res Unit
  | .ok t => .ok () { s with node := t.node, code := t.code }
  | .error r => .stuck r

/-- GEN past its two checks is its loop from `genStart`. -/
theorem bodyGen_eq_endGen (s : State) (htv : s.tvalid = true) (hleaf : isLeafAt s.node s.root = false) :
    bodyGen s = endGen s (genLoop genBound (genStart s)) :=
  (if_neg (by simp [htv])).trans ((if_neg (by simp [hleaf])).trans (by cases genLoop genBound (genStart s) <;> rfl))

/-- The state with another code table and other marks in the arena. -/
def State.withMarks (c : Table Code 8) (g : NodeIdx → Bool) (s : State) : State :=
  { s with code := c, node := s.node.mapEntries (fun i n => { n with visited := g i }) }

/-- What GEN finds in `CODE`, and the marks of the entries in use, make no difference. -/
theorem bodyGen_withMarks (s : State) (c : Table Code 8) (g : NodeIdx → Bool) (htv : s.tvalid = true)
    (hleaf : isLeafAt s.node s.root = false)
    (hg : ∀ i : NodeIdx, s.ncount.toNat ≤ i.toNat → g i = (s.node.get i).visited) :
    bodyGen (s.withMarks c g) = bodyGen s := by
  have hstart : genStart (s.withMarks c g) = genStart s := by
    simp only [genStart, State.withMarks, clearVisited_mapEntries s.ncount.toNat s.node g hg]
  rw [bodyGen_eq_endGen s htv hleaf,
    bodyGen_eq_endGen (s.withMarks c g) htv ((isLeafAt_mapEntries s.node g s.root).trans hleaf), hstart]
  cases genLoop genBound (genStart s) <;> rfl

/-- HIST in range replaces the histogram by the payload's. -/
theorem bodyHist_inRange (s : State) (h : s.inputInRange = true) :
    bodyHist s = .ok () { s with hist := histogramOf s.payload } := by
  obtain ⟨h1, h2⟩ := s.inputInRange_iff.mp h
  rw [bodyHist, checkIn_ok s h1 h2, Res.bind_ok]

/-- A command whose body gives the same result from two states, and raises no fault there, has the same outcome from
both. -/
theorem exec_eq_of_body_eq (i : Instr) (hi : i ≠ .ack) (s s' : State) (hr : s.ready) (hr' : s'.ready)
    (h : bodyOf i s'.flagsAccepted = bodyOf i s.flagsAccepted)
    (hf : ∀ f t, bodyOf i s.flagsAccepted ≠ .raise f t) : exec i s' = exec i s := by
  rw [exec_eq_runCommand i hi, exec_eq_runCommand i hi, runCommand_ready _ s hr, runCommand_ready _ s' hr', h]
  cases hb : bodyOf i s.flagsAccepted with
  | ok u t => rfl
  | raise f t => exact absurd hb (hf f t)
  | stuck e => rfl

/-- GEN on a held tree with an internal root raises nothing. -/
theorem bodyGen_ne_raise (s : State) (htv : s.tvalid = true) (hleaf : isLeafAt s.node s.root = false) (f : FaultCode)
    (t : State) : bodyGen s ≠ .raise f t := by
  rw [bodyGen_eq_endGen s htv hleaf]
  cases genLoop genBound (genStart s) <;> nofun

/-- Settles O46: HIST and GEN start from a fresh table and cleared marks, BUILD from the histogram alone. -/
theorem producersForgetTheirOldDestination : Obligations.ProducersForgetTheirOldDestination := by
  intro s hr
  refine ⟨fun h hin => ?_, fun nd r n v => ?_, fun g c t ⟨htv, hidx, hheld, _⟩ hleaf hg => ?_⟩
  · have hbody := bodyHist_inRange s.flagsAccepted hin
    refine exec_eq_of_body_eq .hist (by decide) s { s with hist := h } hr hr
      ((bodyHist_inRange (State.flagsAccepted { s with hist := h }) hin).trans hbody.symm) (fun f t => ?_)
    rw [bodyOf, hbody]
    nofun
  · have hbody := bodyBuild_eq s.flagsAccepted
    refine exec_eq_of_body_eq .build (by decide) s { s with node := nd, root := r, ncount := n, tvalid := v } hr hr
      ((bodyBuild_eq _).trans hbody.symm) (fun f t => ?_)
    rw [bodyOf, hbody]
    nofun
  · have hroot : isLeafAt s.node s.root = false := by
      rw [← hidx, ITree.isLeafAt_idx s.node NULL t hheld, hleaf]
    exact exec_eq_of_body_eq .gen (by decide) s (s.withMarks c g) hr hr
      (bodyGen_withMarks s.flagsAccepted c g htv hroot hg) (bodyGen_ne_raise s.flagsAccepted htv hroot)

end Sys2Proof.Machine
end

section
/-! PROOFS. What BUILD makes: during the loop the working set is the roots of a forest of held trees over the entries in
use, so that the last root is that of a complete tree (41_tree_builder.md rules R130 to R137). -/

namespace Sys2Proof.Machine

/-! ### Held trees under changes of the arena -/

/-- An arena with the same entries at the tree's indices holds it too. -/
theorem ITree.heldBy_of_get_eq {nd nd' : Table Node 9} {p : NodeIdx} {t : ITree} (h : t.heldBy nd p)
    (he : ∀ i ∈ t.indices, nd'.get i = nd.get i) : t.heldBy nd' p :=
  t.heldBy_congr nd nd' p h (fun i hi => by simp [he i hi])

theorem ITree.idx_mem_indices (t : ITree) : t.idx ∈ t.indices := by
  cases t <;> simp [ITree.idx, ITree.indices]

/-- A tree whose root gets a new parent is held under that parent. -/
theorem ITree.heldBy_reparent {nd nd' : Table Node 9} {p q : NodeIdx} {t : ITree} (h : t.heldBy nd p)
    (hnodup : t.indices.Nodup) (hroot : nd'.get t.idx = { nd.get t.idx with parent := q })
    (hrest : ∀ i ∈ t.indices, i ≠ t.idx → nd'.get i = nd.get i) : t.heldBy nd' q := by
  cases t with
  | leaf i s =>
    obtain ⟨hi, hs, hl, hr, -⟩ := h
    exact ⟨hi, by rw [show nd'.get i = _ from hroot]; exact ⟨hs, hl, hr, rfl⟩⟩
  | branch i l r =>
    obtain ⟨hi, hs, hl, hr, -, hel, her⟩ := h
    obtain ⟨hnot, -⟩ := List.nodup_cons.mp hnodup
    have below (j : NodeIdx) (hj : j ∈ l.indices ++ r.indices) : nd'.get j = nd.get j :=
      hrest j (List.mem_cons_of_mem _ hj) (fun (he : j = i) => hnot (he ▸ hj))
    have hnode : nd'.get i = { nd.get i with parent := q } := hroot
    exact ⟨hi, by rw [hnode]; exact hs, by rw [hnode]; exact hl, by rw [hnode]; exact hr, by rw [hnode],
      ITree.heldBy_of_get_eq hel (fun j hj => below j (List.mem_append_left _ hj)),
      ITree.heldBy_of_get_eq her (fun j hj => below j (List.mem_append_right _ hj))⟩

/-! ### Combining two nodes (R134, R135) -/

theorem get_combine_other (c : ChildOrder) (a b : WsEntry) (next j : NodeIdx) (nd : Table Node 9) (hn : j ≠ next)
    (ha : j ≠ a.idx) (hb : j ≠ b.idx) : (combine c a b next nd).get j = nd.get j := by
  simp [combine, get_nodeUpdate, get_nodeSet, hn.symm, ha.symm, hb.symm]

theorem get_combine_next (c : ChildOrder) (a b : WsEntry) (next : NodeIdx) (nd : Table Node 9) (h : next ≠ NULL)
    (ha : a.idx ≠ next) (hb : b.idx ≠ next) :
    (combine c a b next nd).get next =
      Node.internal (a.freq + b.freq) (c.children a.idx b.idx).1 (c.children a.idx b.idx).2 := by
  simp [combine, get_nodeUpdate, get_nodeSet, h, ha, hb]

theorem get_combine_left (c : ChildOrder) (a b : WsEntry) (next : NodeIdx) (nd : Table Node 9) (h : a.idx ≠ NULL)
    (hn : a.idx ≠ next) (hab : a.idx ≠ b.idx) :
    (combine c a b next nd).get a.idx = { nd.get a.idx with parent := next } := by
  simp [combine, get_nodeUpdate, get_nodeSet, h, hn.symm, hab.symm]

theorem get_combine_right (c : ChildOrder) (a b : WsEntry) (next : NodeIdx) (nd : Table Node 9) (h : b.idx ≠ NULL)
    (hn : b.idx ≠ next) (hab : a.idx ≠ b.idx) :
    (combine c a b next nd).get b.idx = { nd.get b.idx with parent := next } := by
  simp [combine, get_nodeUpdate, get_nodeSet, h, hn.symm, hab]

section
variable {c : ChildOrder} {a b : WsEntry} {next p : NodeIdx} {nd : Table Node 9} {t : ITree} (h : t.heldBy nd p)
  (hnext : next ∉ t.indices)
include h hnext

theorem ITree.heldBy_combine_other (ha : a.idx ∉ t.indices) (hb : b.idx ∉ t.indices) :
    t.heldBy (combine c a b next nd) p :=
  ITree.heldBy_of_get_eq h (fun _ hi => get_combine_other c a b next _ nd (ne_of_mem_of_not_mem hi hnext)
    (ne_of_mem_of_not_mem hi ha) (ne_of_mem_of_not_mem hi hb))

theorem ITree.heldBy_combine_left (hnodup : t.indices.Nodup) (ha : t.idx = a.idx) (hb : b.idx ∉ t.indices) :
    t.heldBy (combine c a b next nd) next := by
  have hroot := t.idx_mem_indices
  refine ITree.heldBy_reparent h hnodup ?_ (fun i hi hne => get_combine_other c a b next i nd
    (ne_of_mem_of_not_mem hi hnext) (ha ▸ hne) (ne_of_mem_of_not_mem hi hb))
  have hnull := t.idx_ne_null nd p h
  rw [ha] at hnull hroot ⊢
  exact get_combine_left c a b next nd hnull (ne_of_mem_of_not_mem hroot hnext) (ne_of_mem_of_not_mem hroot hb)

theorem ITree.heldBy_combine_right (hnodup : t.indices.Nodup) (hb : t.idx = b.idx) (ha : a.idx ∉ t.indices) :
    t.heldBy (combine c a b next nd) next := by
  have hroot := t.idx_mem_indices
  refine ITree.heldBy_reparent h hnodup ?_ (fun i hi hne => get_combine_other c a b next i nd
    (ne_of_mem_of_not_mem hi hnext) (ne_of_mem_of_not_mem hi ha) (hb ▸ hne))
  have hnull := t.idx_ne_null nd p h
  rw [hb] at hnull hroot ⊢
  exact get_combine_right c a b next nd hnull (ne_of_mem_of_not_mem hroot hnext) (ne_of_mem_of_not_mem hroot ha).symm

end

/-- The tree of a new node over the trees of the two combined. -/
def ChildOrder.join (c : ChildOrder) (i : NodeIdx) (ta tb : ITree) : ITree :=
  match c with
  | .leftIsSecondToLast => .branch i ta tb
  | .leftIsLast => .branch i tb ta

@[simp] theorem ChildOrder.idx_join (c : ChildOrder) (i : NodeIdx) (ta tb : ITree) : (c.join i ta tb).idx = i := by
  cases c <;> rfl

theorem ChildOrder.indices_join (c : ChildOrder) (i : NodeIdx) (ta tb : ITree) :
    (c.join i ta tb).indices.Perm (i :: (tb.indices ++ ta.indices)) := by
  cases c
  · exact List.perm_append_comm.cons i
  · exact List.Perm.refl _

theorem ITree.symbols_branch (i : NodeIdx) (l r : ITree) :
    (ITree.branch i l r).symbols = l.symbols ++ r.symbols := by
  simp [ITree.symbols, ITree.paths, Function.comp_def]

theorem ChildOrder.symbols_join (c : ChildOrder) (i : NodeIdx) (ta tb : ITree) :
    (c.join i ta tb).symbols.Perm (tb.symbols ++ ta.symbols) := by
  cases c
  · rw [ChildOrder.join, ITree.symbols_branch]
    exact List.perm_append_comm
  · rw [ChildOrder.join, ITree.symbols_branch]

theorem ChildOrder.join_heldBy {c : ChildOrder} {i p : NodeIdx} {ta tb : ITree} {nd : Table Node 9} {f : Word}
    (hi : i ≠ NULL) (hnode : nd.get i = { Node.internal f (c.children ta.idx tb.idx).1 (c.children ta.idx tb.idx).2 with
      parent := p }) (ha : ta.heldBy nd i) (hb : tb.heldBy nd i) : (c.join i ta tb).heldBy nd p := by
  cases c
  · exact ⟨hi, by rw [hnode]; rfl, by rw [hnode]; rfl, by rw [hnode]; rfl, by rw [hnode], ha, hb⟩
  · exact ⟨hi, by rw [hnode]; rfl, by rw [hnode]; rfl, by rw [hnode]; rfl, by rw [hnode], hb, ha⟩

/-! ### The forest of a working set -/

/-- The working set `ws` is the roots of the held trees `ts`, which together use the arena entries below `n`, each once,
and have every symbol on one leaf. -/
structure Forest (nd : Table Node 9) (n : Nat) (ws : List WsEntry) (ts : List ITree) : Prop where
  roots : List.Forall₂ (fun x t => ITree.idx t = x.idx) ws ts
  held : ∀ t ∈ ts, t.heldBy nd NULL
  indices : ((ts.flatMap ITree.indices).map BitVec.toNat).Perm (List.range n)
  symbols : (ts.flatMap ITree.symbols).Perm ((List.range NSYM).map (BitVec.ofNat 8))

/-- The order of the working set does not matter. -/
theorem Forest.perm {nd : Table Node 9} {n : Nat} {ws ws' : List WsEntry} {ts : List ITree} (h : Forest nd n ws ts)
    (hp : ws'.Perm ws) : ∃ ts', Forest nd n ws' ts' := by
  obtain ⟨ts', hroots, hts⟩ := List.perm_comp_forall₂ hp h.roots
  exact ⟨ts', hroots, fun t ht => h.held t (hts.mem_iff.mp ht), ((hts.flatMap_right _).map _).trans h.indices,
    (hts.flatMap_right _).trans h.symbols⟩

theorem Forest.toNat_lt {nd : Table Node 9} {n : Nat} {ws : List WsEntry} {ts : List ITree} (h : Forest nd n ws ts)
    {t : ITree} (ht : t ∈ ts) {i : NodeIdx} (hi : i ∈ t.indices) : i.toNat < n :=
  List.mem_range.mp (h.indices.mem_iff.mp (List.mem_map_of_mem (List.mem_flatMap.mpr ⟨t, ht, hi⟩)))

theorem Forest.nodup {nd : Table Node 9} {n : Nat} {ws : List WsEntry} {ts : List ITree} (h : Forest nd n ws ts) :
    (ts.flatMap ITree.indices).Nodup :=
  List.Nodup.of_map _ (h.indices.nodup_iff.mpr List.nodup_range)

/-- One iteration of BUILD joins the last two trees and leaves the others as they are (R134). -/
theorem Forest.combine {nd : Table Node 9} {next : NodeIdx} {a b : WsEntry} {front : List WsEntry} {ts : List ITree}
    (h : Forest nd next.toNat (b :: a :: front) ts) (hnext : next ≠ NULL) (c : ChildOrder) :
    ∃ ts', Forest (combine c a b next nd) (next.toNat + 1) ({ idx := next, freq := a.freq + b.freq } :: front) ts' := by
  obtain ⟨tb, ts, hb, hroots, rfl⟩ := List.forall₂_cons_left_iff.mp h.roots
  obtain ⟨ta, tf, ha, hrest, rfl⟩ := List.forall₂_cons_left_iff.mp hroots
  have hnd := h.nodup
  simp only [List.flatMap_cons] at hnd
  obtain ⟨hndb, hndrest, hdisjb⟩ := List.nodup_append.mp hnd
  obtain ⟨hnda, -, hdisja⟩ := List.nodup_append.mp hndrest
  have hfresh {t : ITree} (ht : t ∈ tb :: ta :: tf) : next ∉ t.indices := fun hi => Nat.lt_irrefl _ (h.toNat_lt ht hi)
  have ham : a.idx ∈ ta.indices := ha ▸ ta.idx_mem_indices
  have hbm : b.idx ∈ tb.indices := hb ▸ tb.idx_mem_indices
  have hanb : a.idx ∉ tb.indices := fun hi => hdisjb _ hi _ (List.mem_append_left _ ham) rfl
  have hbna : b.idx ∉ ta.indices := fun hi => hdisjb _ hbm _ (List.mem_append_left _ hi) rfl
  refine ⟨c.join next ta tb :: tf, .cons (c.idx_join next ta tb) hrest, fun t ht => ?_, ?_, ?_⟩
  · rcases List.mem_cons.mp ht with rfl | ht
    · refine ChildOrder.join_heldBy (f := a.freq + b.freq) hnext ?_
        (ITree.heldBy_combine_left (h.held ta (by simp)) (hfresh (by simp)) hnda ha hbna)
        (ITree.heldBy_combine_right (h.held tb (by simp)) (hfresh (by simp)) hndb hb hanb)
      rw [ha, hb]
      exact get_combine_next c a b next nd hnext (ne_of_mem_of_not_mem ham (hfresh (by simp)))
        (ne_of_mem_of_not_mem hbm (hfresh (by simp)))
    · have hflat {i : NodeIdx} (hi : i ∈ t.indices) : i ∈ tf.flatMap ITree.indices := List.mem_flatMap.mpr ⟨t, ht, hi⟩
      exact ITree.heldBy_combine_other (h.held t (by simp [ht])) (hfresh (by simp [ht]))
        (fun hi => hdisja _ ham _ (hflat hi) rfl)
        (fun hi => hdisjb _ hbm _ (List.mem_append_right _ (hflat hi)) rfl)
  · have hperm : ((c.join next ta tb :: tf).flatMap ITree.indices).Perm
        (next :: (tb :: ta :: tf).flatMap ITree.indices) := by
      simp only [List.flatMap_cons, ← List.append_assoc]
      exact (c.indices_join next ta tb).append_right _
    rw [List.range_succ]
    exact (hperm.map _).trans ((h.indices.cons next.toNat).trans (List.perm_append_singleton _ _).symm)
  · refine List.Perm.trans ?_ h.symbols
    simp only [List.flatMap_cons, ← List.append_assoc]
    exact (c.symbols_join next ta tb).append_right _

/-- The loop of BUILD, run until one entry is left, leaves the root of one tree (R130, R136). -/
theorem buildLoop_forest {order : List WsEntry → List WsEntry} (horder : ∀ ws, (order ws).Perm ws) (c : ChildOrder)
    (k : Nat) (next : NodeIdx) (ws : List WsEntry) (nd : Table Node 9) {ts : List ITree}
    (h : Forest nd next.toNat ws ts) (hlen : ws.length = k + 1) (hn : next.toNat + k = NNODE) :
    ∃ t, Forest (buildLoop order c k next ws nd).2 NNODE (buildLoop order c k next ws nd).1 [t] := by
  induction k generalizing next ws nd ts with
  | zero =>
    obtain ⟨t, rfl⟩ := List.length_eq_one_iff.mp (h.roots.length_eq.symm.trans hlen)
    exact ⟨t, hn ▸ h⟩
  | succ k ih =>
    have hperm : (order ws).reverse.Perm ws := (List.reverse_perm _).trans (horder ws)
    obtain ⟨ts', hrev⟩ := h.perm hperm
    have hlenrev := hperm.length_eq
    rw [buildLoop]
    match hr : (order ws).reverse, hlenrev with
    | b :: a :: front, hlenrev =>
      rw [hr] at hrev
      have hnext : next ≠ NULL := fun he => by
        rw [he] at hn
        simp at hn
      obtain ⟨us, hus⟩ := hrev.combine hnext c
      obtain ⟨vs, hvs⟩ := hus.perm (List.reverse_perm _)
      have hone : (next + 1).toNat = next.toNat + 1 := by
        rw [BitVec.toNat_add, show (1 : NodeIdx).toNat = 1 from rfl]
        have : NNODE = 511 := rfl
        omega
      exact ih (next + 1) _ _ (hone ▸ hvs) (by simp at hlenrev ⊢; omega) (by omega)
    | [b], hlenrev => simp at hlenrev; omega
    | [], hlenrev => simp at hlenrev; omega

theorem get_initialArena (hist : Table Word 8) (s : Nat) (hs : s < 256) :
    (initialArena hist).get (BitVec.ofNat 9 s) = Node.leaf (BitVec.ofNat 8 s) (hist.get (BitVec.ofNat 8 s)) := by
  have hlow : (BitVec.ofNat 9 s).toNat < 2 ^ 8 := by simp; omega
  rw [initialArena, Table.get_halves, if_pos hlow, Table.get_tabulate]
  have hsym : (BitVec.ofNat 9 s).setWidth 8 = BitVec.ofNat 8 s := by
    apply BitVec.eq_of_toNat_eq
    simp
  rw [hsym]

/-- Before the first iteration the working set is one leaf per symbol (R131). -/
theorem initial_forest (hist : Table Word 8) :
    Forest (initialArena hist) 256 (initialWs hist)
      ((List.range NSYM).map (fun s => .leaf (BitVec.ofNat 9 s) (BitVec.ofNat 8 s))) := by
  refine ⟨?_, fun t ht => ?_, ?_, ?_⟩
  · simp [initialWs, List.forall₂_map_left_iff, List.forall₂_map_right_iff, List.forall₂_same, ITree.idx]
  · obtain ⟨s, hs, rfl⟩ := List.mem_map.mp ht
    have hs : s < 256 := List.mem_range.mp hs
    have hnull : BitVec.ofNat 9 s ≠ NULL := fun he => by
      have := congrArg BitVec.toNat he
      simp at this
      omega
    refine ⟨hnull, ?_⟩
    rw [get_initialArena hist s hs]
    exact ⟨rfl, rfl, rfl, rfl⟩
  · rw [List.flatMap_map, List.map_flatMap]
    have hid : (List.range NSYM).flatMap
        (fun s => (ITree.leaf (BitVec.ofNat 9 s) (BitVec.ofNat 8 s)).indices.map BitVec.toNat) = List.range 256 := by
      refine (List.flatMap_congr (g := fun s => [s]) (fun s hs => ?_)).trans (List.flatMap_singleton' _)
      have hs : s < 256 := List.mem_range.mp hs
      simp [ITree.indices]
      omega
    rw [hid]
  · rw [List.flatMap_map, List.map_eq_flatMap]
    exact List.Perm.refl _

/-- BUILD makes a complete full tree over the alphabet, whatever conforming order and child order it uses (R137). -/
theorem buildWith_tree {order : List WsEntry → List WsEntry} (horder : ∀ ws, (order ws).Perm ws) (c : ChildOrder)
    (hist : Table Word 8) : ∃ t : ITree, t.idx = rootOf (buildWith order c hist).1 ∧
      t.heldBy (buildWith order c hist).2 NULL ∧ t.occupies NNODE ∧ t.coversAlphabet := by
  obtain ⟨t, ht⟩ := buildLoop_forest horder c 255 256 _ _ (initial_forest hist) (by simp [initialWs]) rfl
  obtain ⟨x, ws, hroot, -, hws⟩ := List.forall₂_cons_right_iff.mp ht.roots
  refine ⟨t, hroot.trans ?_, ht.held t (by simp), by simpa [ITree.occupies] using ht.indices,
    by simpa [ITree.coversAlphabet] using ht.symbols⟩
  rw [buildWith, hws, rootOf]

end Sys2Proof.Machine
end

section
/-! PROOFS. What DES makes: `Parse` touches `IPOS`, `NCOUNT` and the arena only, and when it completes the arena holds the
parsed tree, numbered in preorder from the first free entry (43_tree_codec.md rules R174 to R176). -/

namespace Sys2Proof.Machine

/-! ### What a body ends in -/

/-- Whether a body completes or raises a fault, the state it ends in meets `P`. -/
def Res.ends {α : Type} (P : State → Prop) : Res α → Prop
  | .ok _ s => P s
  | .raise _ s => P s
  | .stuck _ => True

theorem Res.ends_bind {α β : Type} {P : State → Prop} {r : Res α} {k : α → State → Res β} (h : r.ends P)
    (hk : ∀ a s, P s → (k a s).ends P) : (r.bind k).ends P := by
  cases r with
  | ok a s => exact hk a s h
  | raise f s => exact h
  | stuck e => trivial

theorem Res.ends_andThen {P : State → Prop} {r : Res Unit} {k : State → Res Unit} (h : r.ends P)
    (hk : ∀ s, P s → (k s).ends P) : (r.andThen k).ends P :=
  Res.ends_bind h (fun _ => hk)

theorem Res.ends_mono {α : Type} {P Q : State → Prop} {r : Res α} (h : r.ends P) (hpq : ∀ s, P s → Q s) :
    r.ends Q := by
  cases r with
  | ok a s => exact hpq s h
  | raise f s => exact hpq s h
  | stuck e => trivial

/-! ### The frame of `Parse` -/

/-- `s'` is `s` with another input position, node count and arena. -/
def ParseFrame (s s' : State) : Prop := ∃ ip nc nd, s' = { s with ipos := ip, ncount := nc, node := nd }

theorem ParseFrame.refl (s : State) : ParseFrame s s := ⟨s.ipos, s.ncount, s.node, rfl⟩

theorem ParseFrame.trans {s t u : State} (h : ParseFrame s t) (k : ParseFrame t u) : ParseFrame s u := by
  obtain ⟨_, _, _, rfl⟩ := h
  obtain ⟨_, _, _, rfl⟩ := k
  exact ⟨_, _, _, rfl⟩

theorem ParseFrame.allocNode (p : NodeIdx) (s : State) : ParseFrame s (allocNode p s) := ⟨_, _, _, rfl⟩

theorem ParseFrame.updateNode (i : NodeIdx) (f : Node → Node) (s : State) : ParseFrame s (s.updateNode i f) :=
  ⟨_, _, _, rfl⟩

theorem ibufNext_frame (f : FaultCode) (s : State) : (ibufNext f s).ends (ParseFrame s) := by
  unfold ibufNext
  split
  · exact ParseFrame.refl s
  · exact ⟨_, _, _, rfl⟩

theorem parse_frame (k : Nat) (p : NodeIdx) (s : State) : (parse k p s).ends (ParseFrame s) := by
  induction k generalizing p s with
  | zero => trivial
  | succ k ih =>
    have ih' (p : NodeIdx) {t : State} (ht : ParseFrame s t) : (parse k p t).ends (ParseFrame s) :=
      Res.ends_mono (ih p t) (fun _ => ht.trans)
    refine Res.ends_bind (ibufNext_frame _ s) (fun flag t ht => ?_)
    dsimp only
    split
    · exact ht
    · split
      · exact ht
      · have ha := ht.trans (ParseFrame.allocNode p t)
        split
        · exact Res.ends_bind (Res.ends_mono (ibufNext_frame _ _) (fun _ => ha.trans))
            (fun b u hu => hu.trans (ParseFrame.updateNode _ _ u))
        · refine Res.ends_bind (ih' _ ha) (fun l u hu => ?_)
          exact Res.ends_bind (ih' _ (hu.trans (ParseFrame.updateNode _ _ u)))
            (fun r v hv => hv.trans (ParseFrame.updateNode _ _ v))

/-! ### The parsed tree -/

/-- The state with `IPOS` one further. -/
def State.advance (s : State) : State := { s with ipos := s.ipos + 1 }

theorem ibufNext_eq_ok {f : FaultCode} {s s' : State} {b : Byte} (h : ibufNext f s = .ok b s') : s' = s.advance := by
  unfold ibufNext at h
  split at h
  · cases h
  · cases h
    rfl

/-- The ways in which `Parse` completes: a leaf, or an internal node with both its subtrees parsed (R175). -/
theorem parse_succ_eq_ok {k : Nat} {p i : NodeIdx} {s s' : State} (h : parse (k + 1) p s = .ok i s') :
    s.ncount.toNat ≠ NNODE ∧ i = s.ncount.setWidth 9 ∧
    ((∃ b : Byte, s' = (allocNode p s.advance).advance.updateNode i (fun n => { n with sym := b.setWidth 9 })) ∨
      ∃ l u r v, parse k i (allocNode p s.advance) = .ok l u ∧
        parse k i (u.updateNode i (fun n => { n with left := l })) = .ok r v ∧
        s' = v.updateNode i (fun n => { n with right := r })) := by
  obtain ⟨flag, t, hflag, h⟩ := Res.bind_eq_ok _ _ _ _ h
  obtain rfl := ibufNext_eq_ok hflag
  dsimp only at h
  split at h
  · cases h
  · split at h
    · cases h
    · rename_i hfull
      refine ⟨hfull, ?_⟩
      split at h
      · obtain ⟨b, u, hb, h⟩ := Res.bind_eq_ok _ _ _ _ h
        obtain rfl := ibufNext_eq_ok hb
        cases h
        exact ⟨rfl, .inl ⟨b, rfl⟩⟩
      · obtain ⟨l, u, hl, h⟩ := Res.bind_eq_ok _ _ _ _ h
        obtain ⟨r, v, hr, h⟩ := Res.bind_eq_ok _ _ _ _ h
        cases h
        exact ⟨rfl, .inr ⟨l, u, r, v, hl, hr, rfl⟩⟩

/-- What `Parse` under the parent `p` has done when it completes with the entry `i`: from the first free entry on the
arena holds `t`, numbered in preorder, and the entries before it are as they were. -/
structure Parsed (s s' : State) (p i : NodeIdx) (t : ITree) : Prop where
  root : i = BitVec.ofNat 9 s.ncount.toNat
  held : (t.renumber s.ncount.toNat).heldBy s'.node p
  count : s'.ncount.toNat = s.ncount.toNat + t.size
  fits : s'.ncount.toNat ≤ NNODE
  below : ∀ j : NodeIdx, j.toNat < s.ncount.toNat → s'.node.get j = s.node.get j

theorem ITree.toNat_mem_renumber {t : ITree} {n : Nat} (h : n + t.size ≤ NNODE) {j : NodeIdx}
    (hj : j ∈ (t.renumber n).indices) : n ≤ j.toNat ∧ j.toNat < n + t.size := by
  have h : n + t.size ≤ 511 := h
  rw [ITree.indices_renumber] at hj
  obtain ⟨a, ha, rfl⟩ := List.mem_map.mp hj
  have := List.mem_range'_1.mp ha
  rw [BitVec.toNat_ofNat, Nat.mod_eq_of_lt (by omega)]
  exact this

/-- The entry of an internal node in a parsed tree; without children it is what `Parse` starts with (R175). -/
def Node.parsed (p l r : NodeIdx) : Node :=
  { sym := NOT_A_LEAF, freq := 0, left := l, right := r, parent := p, visited := false }

section
variable {s : State} (hn : s.ncount.toNat < NNODE)
include hn

/-- The first free entry is an arena entry and has the index `NCOUNT`. -/
theorem toNat_nextFree : (s.ncount.setWidth 9).toNat = s.ncount.toNat := by
  have hn : s.ncount.toNat < 511 := hn
  rw [BitVec.toNat_setWidth]
  omega

theorem nextFree_ne_null : s.ncount.setWidth 9 ≠ NULL := fun he => by
  have hn : s.ncount.toNat < 511 := hn
  have h := congrArg BitVec.toNat he
  rw [toNat_nextFree hn, show (NULL).toNat = 511 from rfl] at h
  omega

theorem allocNode_count (p : NodeIdx) : (allocNode p s).ncount.toNat = s.ncount.toNat + 1 := by
  have hn : s.ncount.toNat < 511 := hn
  rw [allocNode, BitVec.toNat_add, show (1 : BitVec 10).toNat = 1 from rfl]
  omega

theorem allocNode_get_self (p : NodeIdx) : (allocNode p s).node.get (s.ncount.setWidth 9) = Node.parsed p NULL NULL := by
  rw [allocNode, get_nodeSet, if_pos ⟨rfl, nextFree_ne_null hn⟩]
  rfl

end

theorem allocNode_get_ne (p : NodeIdx) (s : State) {j : NodeIdx} (hj : j ≠ s.ncount.setWidth 9) :
    (allocNode p s).node.get j = s.node.get j := by
  rw [allocNode, get_nodeSet, if_neg (fun h => hj h.1.symm)]

theorem updateNode_get_self {i : NodeIdx} (hi : i ≠ NULL) (f : Node → Node) (s : State) :
    (s.updateNode i f).node.get i = f (s.node.get i) := by
  rw [State.updateNode, get_nodeUpdate, if_pos ⟨rfl, hi⟩]

theorem updateNode_get_ne {i j : NodeIdx} (hj : j ≠ i) (f : Node → Node) (s : State) :
    (s.updateNode i f).node.get j = s.node.get j := by
  rw [State.updateNode, get_nodeUpdate, if_neg (fun h => hj h.1.symm)]

/-- A leaf of the serialization is one new entry. -/
theorem parsed_leaf (p : NodeIdx) (b : Byte) (s : State) (hn : s.ncount.toNat < NNODE) :
    Parsed s ((allocNode p s.advance).advance.updateNode (s.ncount.setWidth 9) (fun n => { n with sym := b.setWidth 9 }))
      p (s.ncount.setWidth 9) (.leaf 0 b) := by
  have hnull := nextFree_ne_null hn
  have hcount : (allocNode p s.advance).ncount.toNat = s.ncount.toNat + 1 := allocNode_count (s := s.advance) hn p
  refine ⟨(BitVec.ofNat_toNat 9 s.ncount).symm, ?_, hcount, hcount.trans_le hn, fun j hj => ?_⟩
  · rw [ITree.renumber, BitVec.ofNat_toNat]
    refine ⟨hnull, ?_⟩
    rw [updateNode_get_self hnull, show (allocNode p s.advance).advance.node = (allocNode p s.advance).node from rfl,
      show (allocNode p s.advance).node.get (s.ncount.setWidth 9) = Node.parsed p NULL NULL from
        allocNode_get_self (s := s.advance) hn p]
    exact ⟨rfl, rfl, rfl, rfl⟩
  · have hne : j ≠ s.ncount.setWidth 9 := fun he => by
      rw [he, toNat_nextFree hn] at hj
      omega
    rw [updateNode_get_ne hne]
    exact allocNode_get_ne p s.advance hne

/-- An internal node of the serialization is one new entry, then its left subtree's, then its right one's. -/
theorem parsed_branch {p l r : NodeIdx} {lt rt : ITree} {s u v : State} (hn : s.ncount.toNat < NNODE)
    (hl : Parsed (allocNode p s.advance) u (s.ncount.setWidth 9) l lt)
    (hr : Parsed (u.updateNode (s.ncount.setWidth 9) (fun n => { n with left := l })) v (s.ncount.setWidth 9) r rt) :
    Parsed s (v.updateNode (s.ncount.setWidth 9) (fun n => { n with right := r })) p (s.ncount.setWidth 9)
      (.branch 0 lt rt) := by
  have hnull := nextFree_ne_null hn
  have hi := toNat_nextFree hn
  have hofNat : s.ncount.setWidth 9 = BitVec.ofNat 9 s.ncount.toNat := (BitVec.ofNat_toNat 9 s.ncount).symm
  have hcount : (allocNode p s.advance).ncount.toNat = s.ncount.toNat + 1 := allocNode_count (s := s.advance) hn p
  obtain ⟨hrootl, hheldl, hcountl, hfitsl, hbelowl⟩ := hl
  obtain ⟨hrootr, hheldr, hcountr, hfitsr, hbelowr⟩ := hr
  have hupd (f : Node → Node) (t : State) : (t.updateNode (s.ncount.setWidth 9) f).ncount = t.ncount := rfl
  have hfresh : (allocNode p s.advance).node.get (s.ncount.setWidth 9) = Node.parsed p NULL NULL :=
    allocNode_get_self (s := s.advance) hn p
  have hkeep (j : NodeIdx) (hj : j ≠ s.ncount.setWidth 9) : (allocNode p s.advance).node.get j = s.node.get j :=
    allocNode_get_ne p s.advance hj
  generalize s.ncount.setWidth 9 = i at *
  rw [hcount] at hrootl hheldl hcountl
  rw [hupd, hcountl] at hrootr hheldr hcountr
  simp only [hupd, hcountl, hcount] at hbelowr hbelowl
  have hne {j : NodeIdx} (hj : s.ncount.toNat < j.toNat ∨ j.toNat < s.ncount.toNat) : j ≠ i := fun he => by
    rw [he, hi] at hj
    omega
  have hnode : (v.updateNode i (fun n => { n with right := r })).node.get i = Node.parsed p l r := by
    rw [updateNode_get_self hnull, hbelowr i (by omega), updateNode_get_self hnull, hbelowl i (by omega), hfresh]
    rfl
  refine ⟨hofNat, ?_, ?_, ?_, fun j hj => ?_⟩
  · rw [ITree.renumber, ← hofNat, ITree.heldBy, hnode, ITree.idx_renumber, ITree.idx_renumber]
    refine ⟨hnull, rfl, hrootl, hrootr, rfl, ?_, ?_⟩
    · refine ITree.heldBy_of_get_eq hheldl (fun j hj => ?_)
      obtain ⟨h1, h2⟩ := ITree.toNat_mem_renumber (by omega) hj
      rw [updateNode_get_ne (hne (.inl (by omega))), hbelowr j (by omega), updateNode_get_ne (hne (.inl (by omega)))]
    · refine ITree.heldBy_of_get_eq hheldr (fun j hj => ?_)
      obtain ⟨h1, h2⟩ := ITree.toNat_mem_renumber (by omega) hj
      rw [updateNode_get_ne (hne (.inl (by omega)))]
  · rw [hupd, hcountr, ITree.size]
    omega
  · rw [hupd]
    exact hfitsr
  · rw [updateNode_get_ne (hne (.inr hj)), hbelowr j (by omega), updateNode_get_ne (hne (.inr hj)), hbelowl j (by omega),
      hkeep j (hne (.inr hj))]

/-- Every `Parse` that completes has put a tree into the arena. -/
theorem parse_parsed {k : Nat} {p i : NodeIdx} {s s' : State} (h : parse k p s = .ok i s') (hn : s.ncount.toNat ≤ NNODE) :
    ∃ t, Parsed s s' p i t := by
  induction k generalizing p i s s' with
  | zero => cases h
  | succ k ih =>
    obtain ⟨hfull, rfl, ⟨b, rfl⟩ | ⟨l, u, r, v, hl, hr, rfl⟩⟩ := parse_succ_eq_ok h
    · exact ⟨_, parsed_leaf p b s (by omega)⟩
    · have hlt : s.ncount.toNat < NNODE := by omega
      obtain ⟨lt, hlt'⟩ := ih hl ((allocNode_count (s := s.advance) hlt p).trans_le hlt)
      obtain ⟨rt, hrt⟩ := ih hr hlt'.fits
      exact ⟨_, parsed_branch hlt hlt' hrt⟩

end Sys2Proof.Machine
end

section
/-! PROOFS. What GEN makes: the traversal's path always leads from the root of the held tree to the current node, so every
recorded code is a path of at most 255 bits, and the arena goes on holding the tree (42_code_generator.md rules R150 to
R154). -/

namespace Sys2Proof.Machine

/-! ### Marks do not move a tree -/

/-- The arenas differ in the marks only. -/
def MarksOnly (nd nd' : Table Node 9) : Prop := ∀ i, ∃ v, nd'.get i = { nd.get i with visited := v }

theorem markVisited_marksOnly (nd : Table Node 9) (i : NodeIdx) : MarksOnly nd (markVisited nd i) := by
  intro j
  rw [get_markVisited]
  split
  · exact ⟨true, rfl⟩
  · exact ⟨(nd.get j).visited, rfl⟩

theorem clearVisited_marksOnly (n : Nat) (nd : Table Node 9) : MarksOnly nd (clearVisited n nd) := by
  intro j
  rw [get_clearVisited]
  split
  · exact ⟨false, rfl⟩
  · exact ⟨(nd.get j).visited, rfl⟩

theorem MarksOnly.heldBy {nd nd' : Table Node 9} {p : NodeIdx} {t : ITree} (h : MarksOnly nd nd') (ht : t.heldBy nd p) :
    t.heldBy nd' p :=
  t.heldBy_congr nd nd' p ht (fun i _ => by
    obtain ⟨v, hv⟩ := h i
    rw [hv]
    exact ⟨rfl, rfl, rfl, rfl⟩)

/-! ### Positions in a tree -/

/-- `u` is the subtree of `t` at the end of a path, which is given with its LAST bit first, as the traversal has it. -/
inductive ITree.At (t : ITree) : List Bool → ITree → Prop
  | root : ITree.At t [] t
  | left {p : List Bool} {i : NodeIdx} {l r : ITree} (h : ITree.At t p (.branch i l r)) : ITree.At t (false :: p) l
  | right {p : List Bool} {i : NodeIdx} {l r : ITree} (h : ITree.At t p (.branch i l r)) : ITree.At t (true :: p) r

theorem ITree.At.length_le {t u : ITree} {p : List Bool} (h : t.At p u) : p.length + u.depth ≤ t.depth := by
  induction h with
  | root => simp
  | left _ ih =>
    simp only [ITree.depth, List.length_cons] at ih ⊢
    omega
  | right _ ih =>
    simp only [ITree.depth, List.length_cons] at ih ⊢
    omega

/-- A subtree of a held tree is held, under `NULL` at the root and under the node one step up elsewhere. -/
theorem ITree.At.heldBy {t u : ITree} {p : List Bool} {nd : Table Node 9} (h : t.At p u) (ht : t.heldBy nd NULL) :
    ∃ q, u.heldBy nd q ∧ (p = [] → q = NULL) ∧ (p ≠ [] → ∃ w, t.At p.tail w ∧ w.idx = q) := by
  induction h with
  | root => exact ⟨NULL, ht, fun _ => rfl, fun hne => absurd rfl hne⟩
  | left h ih =>
    obtain ⟨q, ⟨-, -, -, -, -, hl, -⟩, -⟩ := ih
    exact ⟨_, hl, nofun, fun _ => ⟨_, h, rfl⟩⟩
  | right h ih =>
    obtain ⟨q, ⟨-, -, -, -, -, -, hr⟩, -⟩ := ih
    exact ⟨_, hr, nofun, fun _ => ⟨_, h, rfl⟩⟩

theorem ITree.parent_of_heldBy {t : ITree} {nd : Table Node 9} {p : NodeIdx} (h : t.heldBy nd p) :
    (nd.get t.idx).parent = p := by
  cases t with
  | leaf i s => exact h.2.2.2.2
  | branch i l r => exact h.2.2.2.2.1

/-- The `parent` field leads one step up the path, and is `NULL` at the root. -/
theorem ITree.At.parent {t u : ITree} {p : List Bool} {nd : Table Node 9} (h : t.At p u) (ht : t.heldBy nd NULL) :
    (p = [] → (nd.get u.idx).parent = NULL) ∧ (p ≠ [] → ∃ w, t.At p.tail w ∧ w.idx = (nd.get u.idx).parent) := by
  obtain ⟨q, hu, hroot, hup⟩ := h.heldBy ht
  rw [ITree.parent_of_heldBy hu]
  exact ⟨hroot, hup⟩

/-- A child index other than `NULL` leads to a subtree. -/
theorem ITree.At.child {t u : ITree} {p : List Bool} {nd : Table Node 9} (h : t.At p u) (ht : t.heldBy nd NULL) :
    ((nd.get u.idx).left ≠ NULL → ∃ w, t.At (false :: p) w ∧ w.idx = (nd.get u.idx).left) ∧
    ((nd.get u.idx).right ≠ NULL → ∃ w, t.At (true :: p) w ∧ w.idx = (nd.get u.idx).right) := by
  obtain ⟨q, hu, -⟩ := h.heldBy ht
  cases u with
  | leaf i s =>
    obtain ⟨-, -, hl, hr, -⟩ := hu
    exact ⟨fun hne => absurd hl hne, fun hne => absurd hr hne⟩
  | branch i l r =>
    obtain ⟨-, -, hl, hr, -⟩ := hu
    exact ⟨fun _ => ⟨l, h.left, hl.symm⟩, fun _ => ⟨r, h.right, hr.symm⟩⟩

/-! ### The traversal -/

/-- Everything one pass of the loop of GEN can be: no step, a leaf recorded, a node closed below the root or at it, a
step to the left or to the right (R152, R153). -/
theorem genStep_cases (t : Traversal) :
    genStep t = .stuck ∨
    (t.cur ≠ NULL ∧ (t.node.get t.cur).isLeaf = true ∧
      genStep t = .goOn { cur := (t.node.get t.cur).parent, path := t.path.tail, node := markVisited t.node t.cur,
                          code := t.code.set ((t.node.get t.cur).sym.setWidth 8) (Code.ofPath t.path.reverse) }) ∨
    ((t.node.get t.cur).parent ≠ NULL ∧
      genStep t = .goOn { t with
        cur := (t.node.get t.cur).parent, path := t.path.tail, node := markVisited t.node t.cur }) ∨
    genStep t = .finish { t with node := markVisited t.node t.cur } ∨
    ((t.node.get t.cur).left ≠ NULL ∧
      genStep t = .goOn { t with cur := (t.node.get t.cur).left, path := false :: t.path }) ∨
    ((t.node.get t.cur).right ≠ NULL ∧
      genStep t = .goOn { t with cur := (t.node.get t.cur).right, path := true :: t.path }) := by
  by_cases hcur : t.cur = NULL
  · exact .inl (by rw [genStep, hcur, nodeAt_null])
  · rw [genStep, nodeAt_of_ne _ _ hcur]
    dsimp only
    split
    · rename_i hleaf
      rw [recordLeaf]
      split
      · exact .inr (.inl ⟨hcur, (Bool.and_eq_true_iff.mp hleaf).1, rfl⟩)
      · exact .inl rfl
    · cases hl : nodeAt t.node (t.node.get t.cur).left with
      | none => exact .inl rfl
      | some l =>
        cases hr : nodeAt t.node (t.node.get t.cur).right with
        | none => exact .inl rfl
        | some r =>
          dsimp only
          split
          · rw [closeNode]
            split
            · exact .inr (.inr (.inr (.inl rfl)))
            · rename_i hpar
              exact .inr (.inr (.inl ⟨hpar, rfl⟩))
          · split
            · exact .inr (.inr (.inr (.inr (.inl ⟨((nodeAt_eq_some _ _ _).mp hl).1, rfl⟩))))
            · exact .inr (.inr (.inr (.inr (.inr ⟨((nodeAt_eq_some _ _ _).mp hr).1, rfl⟩))))

/-- What holds of the traversal of the held tree `T` before every pass. -/
structure Traversal.Sound (T : ITree) (t : Traversal) : Prop where
  held : T.heldBy t.node NULL
  position : ∃ u, T.At t.path u ∧ u.idx = t.cur
  codes : ∀ b, (t.code.get b).wf

theorem Code.wf_set {c : Table Code 8} (h : ∀ b, (c.get b).wf) (x : Byte) {y : Code} (hy : y.wf) (b : Byte) :
    ((c.set x y).get b).wf := by
  rw [Table.get_set]
  split
  · exact hy
  · exact h b

/-- A held root is a leaf of the arena exactly when it is one of the tree. -/
theorem isLeaf_get_idx {T : ITree} {nd : Table Node 9} {p : NodeIdx} (h : T.heldBy nd p) :
    (nd.get T.idx).isLeaf = T.isLeaf := by
  rw [← isLeafAt_of_ne nd T.idx (T.idx_ne_null nd p h), T.isLeafAt_idx nd p h]

section
variable {T : ITree} (hdepth : T.depth ≤ 255) (hbranch : T.isLeaf = false)
include hdepth hbranch

/-- One pass keeps the traversal sound; the last one keeps what is said of the arena and the codes. -/
theorem genStep_sound {t : Traversal} (hs : t.Sound T) :
    (∀ t', genStep t = .goOn t' → t'.Sound T) ∧
    (∀ t', genStep t = .finish t' → T.heldBy t'.node NULL ∧ ∀ b, (t'.code.get b).wf) := by
  obtain ⟨hheld, ⟨u, hat, hcur⟩, hcodes⟩ := hs
  have hmarked : T.heldBy (markVisited t.node t.cur) NULL := (markVisited_marksOnly _ _).heldBy hheld
  obtain ⟨hroot, hup⟩ := hat.parent hheld
  obtain ⟨hleft, hright⟩ := hat.child hheld
  rw [hcur] at hroot hup hleft hright
  rcases genStep_cases t with h | ⟨-, hleaf, h⟩ | ⟨hpar, h⟩ | h | ⟨hne, h⟩ | ⟨hne, h⟩ <;> rw [h]
  · exact ⟨nofun, nofun⟩
  · have hpath : t.path.reverse.length ≤ 255 := by
      have := hat.length_le
      rw [List.length_reverse]
      omega
    have hne : t.path ≠ [] := fun he => by
      rw [he] at hat
      cases hat
      rw [← hcur, isLeaf_get_idx hheld, hbranch] at hleaf
      cases hleaf
    exact ⟨fun _ ht => TraversalStep.goOn.inj ht ▸
      ⟨hmarked, hup hne, Code.wf_set hcodes _ (Code.wf_ofPath _ hpath)⟩, nofun⟩
  · exact ⟨fun _ ht => TraversalStep.goOn.inj ht ▸ ⟨hmarked, hup (fun he => hpar (hroot he)), hcodes⟩, nofun⟩
  · exact ⟨nofun, fun _ ht => TraversalStep.finish.inj ht ▸ ⟨hmarked, hcodes⟩⟩
  · exact ⟨fun _ ht => TraversalStep.goOn.inj ht ▸ ⟨hheld, hleft hne, hcodes⟩, nofun⟩
  · exact ⟨fun _ ht => TraversalStep.goOn.inj ht ▸ ⟨hheld, hright hne, hcodes⟩, nofun⟩

/-- A traversal that finishes leaves the tree held and every code without stray bits. -/
theorem genLoop_sound {k : Nat} {t t' : Traversal} (hs : t.Sound T) (h : genLoop k t = .ok t') :
    T.heldBy t'.node NULL ∧ ∀ b, (t'.code.get b).wf := by
  induction k generalizing t with
  | zero => cases h
  | succ k ih =>
    obtain ⟨hgoOn, hfinish⟩ := genStep_sound hdepth hbranch hs
    rw [genLoop] at h
    cases hstep : genStep t with
    | goOn t1 =>
      rw [hstep] at h
      exact ih (hgoOn t1 hstep) h
    | finish t1 =>
      rw [hstep] at h
      cases h
      exact hfinish _ hstep
    | stuck =>
      rw [hstep] at h
      cases h

end

theorem genStart_sound {s : State} {T : ITree} (h : s.holdsTree T) : (genStart s).Sound T := by
  obtain ⟨-, hidx, hheld, -⟩ := h
  exact ⟨(clearVisited_marksOnly _ _).heldBy hheld, ⟨T, .root, hidx⟩, fun b => by
    rw [genStart, Table.get_fill]
    exact Code.wf_none⟩

end Sys2Proof.Machine
end

section
/-! PROOFS. The invariant: its part that commands' bodies keep, the flags that the life of a command sets, and the step. -/

namespace Sys2Proof.Machine

/-! ### The parts of the invariant -/

/-- The flags of `STATUS` between steps (R23, R251). -/
structure FlagsInv (s : State) : Prop where
  idle : s.busy = false
  outcome : ¬ (s.done = true ∧ s.err = true)
  noFault : s.err = false → s.fcode = 0
  someFault : s.err = true → s.fcode ∈ faultCodes

/-- The tree registers and the arena (R29, R30, R34, R35, R41). -/
structure TreeInv (tvalid : Bool) (root : NodeIdx) (ncount : BitVec 10) (node : Table Node 9) : Prop where
  noTree : tvalid = false → root = NULL ∧ ncount = 0
  tree : tvalid = true → ∃ t : ITree, t.idx = root ∧ t.heldBy node NULL ∧ t.occupies ncount.toNat

/-- The output stream (R27, R40). -/
structure OutputInv (cap : Nat) (olen : Word) (obuf : Memory) : Prop where
  fits : olen.toNat ≤ cap
  wf : obuf.wf
  bound : ∀ c ∈ obuf, c.1 < cap
  defined : ∀ i, i < olen.toNat → (obuf.read? i).isSome = true

/-- The part of the invariant that holds within a command too: everything but the flags. -/
structure StoreInv (s : State) : Prop where
  params : s.params.wf = true
  trees : TreeInv s.tvalid s.root s.ncount s.node
  output : OutputInv s.params.obufCap s.olen s.obuf
  counts : histSum s.hist < 2 ^ 32
  codes : ∀ b, (s.code.get b).wf
  ibufWf : s.ibuf.wf
  ibufBound : ∀ c ∈ s.ibuf, c.1 < s.params.ibufCap

theorem inv_iff (s : State) : Inv s ↔ FlagsInv s ∧ StoreInv s := by
  constructor
  · intro h
    exact ⟨⟨h.idle, h.outcome, h.noFault, h.someFault⟩, h.params,
      ⟨h.noTree, fun htv => (h.tree htv).imp (fun t ht => ht.2)⟩, ⟨h.outputFits, h.obufWf, h.obufBound, h.outputDefined⟩, h.counts, h.codes, h.ibufWf, h.ibufBound⟩
  · rintro ⟨f, h⟩
    exact ⟨h.params, f.idle, f.outcome, f.noFault, f.someFault, h.trees.noTree,
      fun htv => (h.trees.tree htv).imp (fun t ht => ⟨htv, ht⟩), h.output.fits, h.counts, h.codes, h.ibufWf, h.output.wf, h.ibufBound, h.output.bound, h.output.defined⟩

/-! ### The output stream -/

theorem OutputInv.empty {cap : Nat} {olen : Word} {m : Memory} (h : OutputInv cap olen m) : OutputInv cap 0 m :=
  ⟨Nat.zero_le _, h.wf, h.bound, nofun⟩

/-- Bytes appended within the capacity keep the output stream well-formed. -/
theorem StoreInv.append {s : State} (hs : StoreInv s) (bs : List Byte)
    (hroom : s.olen.toNat + bs.length ≤ s.params.obufCap) :
    StoreInv { s with obuf := s.obuf.writeAll s.olen.toNat bs, olen := s.olen + BitVec.ofNat 32 bs.length } := by
  have h := hs.output
  obtain ⟨hlen, hnew, hold⟩ := appended_writeAll bs s hs.params hroom
  refine { hs with output :=
    ⟨hlen.trans_le hroom, Memory.writeAll_wf _ _ _ h.wf, fun c hc => ?_, fun i hi => ?_⟩ }
  · rcases Memory.mem_writeAll _ _ _ c hc with hc | hc
    · exact hc.2.trans_le hroom
    · exact h.bound c hc
  · rw [hlen] at hi
    by_cases hlt : i < s.olen.toNat
    · rw [hold i (.inl hlt)]
      exact h.defined i hlt
    · obtain ⟨k, rfl⟩ := Nat.exists_eq_add_of_le (not_lt.mp hlt)
      rw [hnew k (by omega)]
      rfl

theorem write_eq_writeAll (m : Memory) (i : Nat) (b : Byte) (h : m.wf) : m.write i b = m.writeAll i [b] := by
  rw [Memory.writeAll_eq_turns m i b [] h, Memory.writeAll_nil _ _ (Memory.write_wf m i b h)]

theorem obufAppendAll_inv (bs : List Byte) (s : State) (h : StoreInv s) : (obufAppendAll bs s).ends StoreInv := by
  by_cases hroom : s.olen.toNat + bs.length ≤ s.params.obufCap
  · rw [obufAppendAll_fits bs s hroom]
    exact h.append bs hroom
  · rw [obufAppendAll_raise bs s h.output.fits (not_le.mp hroom)]
    exact h

theorem obufAppend_inv (b : Byte) (s : State) (h : StoreInv s) : (obufAppend b s).ends StoreInv := by
  by_cases hfull : s.olen.toNat = s.params.obufCap
  · rw [obufAppend_raise b s hfull]
    exact h
  · have hroom : s.olen.toNat + [b].length ≤ s.params.obufCap := by
      have := h.output.fits
      simp only [List.length_singleton]
      omega
    rw [obufAppend_ok b s hfull, write_eq_writeAll _ _ b h.output.wf]
    exact h.append [b] hroom

/-! ### The input stream -/

theorem checkIn_ends {P : State → Prop} {s : State} (h : P s) : (checkIn s).ends P := by
  unfold checkIn
  split <;> exact h

theorem ibufNext_inv (f : FaultCode) (s : State) (h : StoreInv s) : (ibufNext f s).ends StoreInv := by
  unfold ibufNext
  split
  · exact h
  · exact { h with }

/-! ### The histogram -/

theorem histSum_eq_sum (h : Table Word 8) :
    histSum h = ∑ b ∈ Finset.range NSYM, (h.get (BitVec.ofNat 8 b)).toNat := rfl

theorem histSum_histBump_le (h : Table Word 8) (b : Byte) : histSum (histBump h b) ≤ histSum h + 1 := by
  have hone : ∑ c ∈ Finset.range NSYM, (if c = b.toNat then 1 else 0) = 1 := by
    rw [Finset.sum_ite_eq', if_pos (Finset.mem_range.mpr b.isLt)]
  rw [histSum_eq_sum, histSum_eq_sum, ← hone, ← Finset.sum_add_distrib]
  refine Finset.sum_le_sum (fun c hc => ?_)
  have hc : c < 256 := Finset.mem_range.mp hc
  rw [get_histBump]
  by_cases hcb : b = BitVec.ofNat 8 c
  · have : c = b.toNat := by rw [hcb, BitVec.toNat_ofNat, Nat.mod_eq_of_lt hc]
    rw [if_pos hcb, if_pos this, BitVec.toNat_add]
    exact Nat.mod_le _ _
  · rw [if_neg hcb]
    exact Nat.le_add_right _ _

theorem histSum_histogramOf_le (xs : List Byte) : histSum (histogramOf xs) ≤ xs.length := by
  induction xs using List.reverseRecOn with
  | nil => simp [histogramOf, histSum_eq_sum]
  | append_singleton xs b ih =>
    rw [histogramOf_append, List.length_append]
    exact (histSum_histBump_le _ b).trans (Nat.add_le_add_right ih 1)

/-! ### The bodies -/

theorem bodyOrst_inv (s : State) (h : StoreInv s) : (bodyOrst s).ends StoreInv :=
  { h with output := h.output.empty }

theorem bodyHist_inv (s : State) (h : StoreInv s) : (bodyHist s).ends StoreInv :=
  Res.ends_bind (checkIn_ends h) (fun _ t ht => by
    have hcounts : histSum (histogramOf t.payload) < 2 ^ 32 := by
      refine (histSum_histogramOf_le _).trans_lt ?_
      rw [State.payload_length]
      have := t.ilen.isLt
      omega
    exact { ht with counts := hcounts })

theorem bodyBuild_inv (s : State) (h : StoreInv s) : (bodyBuild s).ends StoreInv := by
  obtain ⟨t, hidx, hheld, hocc, -⟩ :=
    buildWith_tree (fun ws => (stableOrder_conforming ws).1) .leftIsSecondToLast s.hist
  rw [bodyBuild_eq]
  generalize buildWith stableOrder .leftIsSecondToLast s.hist = r at hidx hheld
  exact { h with trees := ⟨nofun, fun _ => ⟨t, hidx, hheld, hocc⟩⟩ }

theorem bodyGen_inv (s : State) (h : StoreInv s) : (bodyGen s).ends StoreInv := by
  cases htv : s.tvalid with
  | false =>
    rw [bodyGen, if_pos htv]
    exact h
  | true =>
    obtain ⟨T, hidx, hheld, hocc⟩ := h.trees.tree htv
    have hleaf : isLeafAt s.node s.root = T.isLeaf := by rw [← hidx, T.isLeafAt_idx s.node NULL hheld]
    cases hbranch : T.isLeaf with
    | true =>
      rw [bodyGen, if_neg (by simp [htv]), if_pos (hleaf.trans hbranch)]
      exact h
    | false =>
      rw [bodyGen_eq_endGen s htv (hleaf.trans hbranch)]
      cases hloop : genLoop genBound (genStart s) with
      | error r => trivial
      | ok t =>
        obtain ⟨hheld', hcodes⟩ :=
          genLoop_sound (ITree.depth_le_of_occupies hocc) hbranch (genStart_sound ⟨htv, hidx, hheld, hocc⟩) hloop
        exact { h with trees := ⟨h.trees.noTree, fun _ => ⟨T, hidx, hheld', hocc⟩⟩, codes := hcodes }

theorem bodyWrsize_inv (s : State) (h : StoreInv s) : (bodyWrsize s).ends StoreInv := obufAppendAll_inv _ s h

theorem bodySer_inv (s : State) (h : StoreInv s) : (bodySer s).ends StoreInv := by
  unfold bodySer
  split
  · exact h
  · split
    · exact obufAppendAll_inv _ s h
    · trivial

/-- A completed `Parse` from an empty arena, under no parent, makes a complete tree. -/
theorem Parsed.occupies {s s' : State} {p i : NodeIdx} {t : ITree} (h : Parsed s s' p i t) (h0 : s.ncount = 0) :
    (t.renumber 0).occupies s'.ncount.toNat := by
  have hcount : s'.ncount.toNat = t.size := by simpa [h0] using h.count
  have hfits : t.size ≤ 511 := hcount ▸ h.fits
  rw [ITree.occupies, hcount, ITree.indices_renumber, List.map_map, ← List.range_eq_range']
  have hid : (List.range t.size).map (BitVec.toNat ∘ BitVec.ofNat 9) = List.range t.size := by
    refine (List.map_congr_left (fun a ha => ?_)).trans (List.map_id _)
    have := List.mem_range.mp ha
    rw [Function.comp_apply, BitVec.toNat_ofNat, Nat.mod_eq_of_lt (by omega), id]
  rw [hid]

theorem bodyDes_inv (s : State) (h : StoreInv s) : (bodyDes s).ends StoreInv :=
  Res.ends_bind (checkIn_ends h) (fun _ t ht => by
    have hframe := parse_frame 512 NULL t.dropTree
    cases hp : parse 512 NULL t.dropTree with
    | ok r u =>
      obtain ⟨T, hT⟩ := parse_parsed hp (Nat.zero_le _)
      have htrees : TreeInv true r u.ncount u.node :=
        ⟨nofun, fun _ => ⟨T.renumber 0, (T.idx_renumber 0).trans hT.root.symm, hT.held, hT.occupies rfl⟩⟩
      rw [hp] at hframe
      obtain ⟨ip, nc, nd, rfl⟩ := hframe
      exact { ht with trees := htrees }
    | raise f u =>
      rw [hp] at hframe
      obtain ⟨ip, nc, nd, rfl⟩ := hframe
      exact { ht with trees := ⟨fun _ => ⟨rfl, rfl⟩, nofun⟩ }
    | stuck e => trivial)

theorem packBits_inv (bs : List Bool) (p : PackAcc) (s : State) (h : StoreInv s) : (packBits bs p s).ends StoreInv := by
  induction bs generalizing p s with
  | nil => exact h
  | cons b bs ih =>
    unfold packBits
    split
    · exact Res.ends_bind (obufAppend_inv _ s h) (fun _ t ht => ih _ t ht)
    · exact ih _ s h

theorem packSymbols_inv (xs : List Byte) (p : PackAcc) (s : State) (h : StoreInv s) :
    (packSymbols xs p s).ends StoreInv := by
  induction xs generalizing p s with
  | nil => exact h
  | cons x xs ih =>
    unfold packSymbols
    split
    · exact h
    · exact Res.ends_bind (packBits_inv _ p s h) ih

theorem flushBits_inv (p : PackAcc) (s : State) (h : StoreInv s) : (flushBits p s).ends StoreInv := by
  unfold flushBits
  split
  · exact obufAppend_inv _ s h
  · exact h

theorem bodyPack_inv (s : State) (h : StoreInv s) : (bodyPack s).ends StoreInv :=
  Res.ends_bind (checkIn_ends h) (fun _ t ht => Res.ends_bind (packSymbols_inv _ _ t ht) flushBits_inv)

theorem fetchBits_inv (w : Walk) (s : State) (h : StoreInv s) : (fetchBits w s).ends StoreInv := by
  unfold fetchBits
  split
  · exact Res.ends_bind (ibufNext_inv _ s h) (fun _ _ ht => ht)
  · exact h

theorem consumeBit_inv (w : Walk) (s : State) (h : StoreInv s) : (consumeBit w s).ends StoreInv := by
  unfold consumeBit
  split
  · trivial
  · dsimp only
    split
    · trivial
    · split
      · exact Res.ends_bind (obufAppend_inv _ s h) (fun _ _ ht => ht)
      · exact h

theorem unpackLoop_inv (k : Nat) (w : Walk) (s : State) (h : StoreInv s) : (unpackLoop k w s).ends StoreInv := by
  induction k generalizing w s with
  | zero => trivial
  | succ k ih =>
    unfold unpackLoop
    split
    · exact Res.ends_bind (fetchBits_inv w s h) (fun w t ht => Res.ends_bind (consumeBit_inv w t ht) ih)
    · exact h

theorem bodyUnpack_inv (s : State) (h : StoreInv s) : (bodyUnpack s).ends StoreInv := by
  unfold bodyUnpack
  split
  · exact h
  · refine Res.ends_bind (checkIn_ends h) (fun _ t ht => ?_)
    split
    · exact ht
    · exact unpackLoop_inv _ _ t ht

theorem bodyRdsize_inv (s : State) (h : StoreInv s) : (bodyRdsize s).ends StoreInv :=
  Res.ends_bind (checkIn_ends h) (fun _ t ht => by
    dsimp only
    split
    · exact ht
    · exact { ht with })

theorem bodyCompress_inv (s : State) (h : StoreInv s) : (bodyCompress s).ends StoreInv := by
  have hs : StoreInv s.startCompress := { h with output := h.output.empty }
  unfold bodyCompress
  refine Res.ends_andThen (bodyHist_inv _ hs) (fun t ht => ?_)
  have hb := bodyBuild_inv t ht
  generalize bodyBuild t = r at hb ⊢
  refine Res.ends_andThen hb (fun t ht => ?_)
  refine Res.ends_andThen (bodyGen_inv t ht) (fun t ht => ?_)
  refine Res.ends_andThen (bodyWrsize_inv t ht) (fun t ht => ?_)
  exact Res.ends_andThen (bodySer_inv t ht) bodyPack_inv

theorem bodyDecompress_inv (s : State) (h : StoreInv s) : (bodyDecompress s).ends StoreInv := by
  have hs : StoreInv s.startDecompress := { h with output := h.output.empty }
  exact Res.ends_andThen (bodyRdsize_inv _ hs) (fun t ht => Res.ends_andThen (bodyDes_inv t ht) bodyUnpack_inv)

/-- Every command's body keeps the store's part of the invariant, whether it completes or raises a fault. -/
theorem bodyOf_inv (i : Instr) (s : State) (h : StoreInv s) : (bodyOf i s).ends StoreInv := by
  cases i with
  | nop => exact h
  | ack => exact h
  | orst => exact bodyOrst_inv s h
  | hist => exact bodyHist_inv s h
  | build => exact bodyBuild_inv s h
  | gen => exact bodyGen_inv s h
  | ser => exact bodySer_inv s h
  | des => exact bodyDes_inv s h
  | pack => exact bodyPack_inv s h
  | unpack => exact bodyUnpack_inv s h
  | wrsize => exact bodyWrsize_inv s h
  | rdsize => exact bodyRdsize_inv s h
  | compress => exact bodyCompress_inv s h
  | decompress => exact bodyDecompress_inv s h

/-! ### Commands -/

theorem FaultCode.code_mem (f : FaultCode) : f.code ∈ faultCodes := by cases f <;> decide

/-- The flags a fault leaves (R252). -/
theorem flagsInv_of_fault {s : State} (f : FaultCode) (hb : s.busy = false) (hd : s.done = false) (he : s.err = true)
    (hf : s.fcode = f.code) : FlagsInv s :=
  ⟨hb, by simp [hd], by simp [he], fun _ => hf ▸ f.code_mem⟩

/-- The flags of a state without a fault. -/
theorem flagsInv_of_noErr {s : State} (hb : s.busy = false) (he : s.err = false) (hf : s.fcode = 0) : FlagsInv s :=
  ⟨hb, by simp [he], fun _ => hf, by simp [he]⟩

/-- A command, accepted or ignored, completed or faulted, keeps the invariant. -/
theorem exec_inv (i : Instr) (s s' : State) (h : Inv s) (hstep : exec i s = .next s') : Inv s' := by
  obtain ⟨hflags, hstore⟩ := (inv_iff s).mp h
  by_cases hi : i = .ack
  · subst hi
    rw [exec_ack, runAck_eq s hflags.idle] at hstep
    cases hstep
    exact (inv_iff _).mpr ⟨flagsInv_of_noErr rfl rfl rfl, { hstore with }⟩
  · rw [exec_eq_runCommand i hi] at hstep
    have hbody : (bodyOf i s.flagsAccepted).ends StoreInv := bodyOf_inv i _ { hstore with }
    rcases runCommand_cases _ s s' hstep with ⟨-, rfl⟩ | ⟨hr, t, hok, rfl⟩ | ⟨hr, f, t, hraise, rfl⟩
    · exact h
    · rw [hok] at hbody
      have hsame := bodyOf_ok i _ _ hok
      have hflags' : FlagsInv t.flagsCompleted :=
        flagsInv_of_noErr rfl (hsame.err.trans hr.2) (hsame.fcode.trans (hflags.noFault hr.2))
      exact (inv_iff _).mpr ⟨hflags', { (hbody : StoreInv t) with }⟩
    · rw [hraise] at hbody
      have hsame := bodyOf_raise i _ _ _ hraise
      have houtput : OutputInv t.params.obufCap s.olen s.obuf := by
        rw [hsame.params]
        exact hstore.output
      exact (inv_iff _).mpr ⟨flagsInv_of_fault f rfl rfl rfl rfl, { (hbody : StoreInv t) with output := houtput }⟩

theorem rejectWord_inv (s : State) (h : Inv s) : Inv (rejectWord s) := by
  obtain ⟨hflags, hstore⟩ := (inv_iff s).mp h
  by_cases he : s.err = true
  · rw [rejectWord_ignored s (.inr he)]
    exact h
  · rw [rejectWord_ready s ⟨hflags.idle, by simpa using he⟩]
    exact (inv_iff _).mpr ⟨flagsInv_of_fault .illegalCmd hflags.idle rfl rfl rfl, { hstore with }⟩

/-! ### Reset -/

/-- The reset state of any engine, whatever the host has pending. -/
theorem reset_inv (p : Params) (hp : p.wf = true) (port : List PortOp) (draws epoch : Nat) :
    Inv { State.reset with params := p, port := port, draws := draws, epoch := epoch } := by
  have hcounts : histSum (Table.fill 8 0) < 2 ^ 32 := by simp [histSum_eq_sum]
  have hcodes (b : Byte) : ((Table.fill 8 Code.none).get b).wf := by
    rw [Table.get_fill]
    exact Code.wf_none
  exact (inv_iff _).mpr ⟨flagsInv_of_noErr rfl rfl rfl, hp, ⟨fun _ => ⟨rfl, rfl⟩, nofun⟩,
    ⟨Nat.zero_le _, State.reset_buffers_wf.2, nofun, nofun⟩, hcounts, hcodes, State.reset_buffers_wf.1, nofun⟩

/-- Settles O58: the reset state has no tree, no output, no counts and no codes. -/
theorem invariantHoldsAtReset : Obligations.InvariantHoldsAtReset :=
  reset_inv Config.resetParams (by decide) [] 0 0

/-! ### Port accesses -/

/-- The invariant says nothing of the answer and the draws. -/
theorem AnswersOnly.inv {s s' : State} (ha : AnswersOnly s s') (h : Inv s) : Inv s' := by
  rw [ha]
  exact { h with }

theorem write32At_inv (v : Word) (s : State) (l : Loc) (h : Inv s) : Inv (s.write32At v l) := by
  rcases write32At_cases v s l with ⟨-, hw⟩ | ⟨-, -, hw⟩ | ⟨-, -, hw⟩ | ⟨-, -, hw⟩ | ⟨-, hw⟩ <;> rw [hw]
  exacts [{ h with }, { h with }, { h with }, { h with }, h]

theorem locate8_ibuf_lt {p : Params} {a : Word} {i : Nat} (h : locate8 p a = .ibufByte i) : i < p.ibufCap := by
  by_cases hin : 0x10000000 ≤ a.toNat ∧ a.toNat < 0x10000000 + p.ibufCap
  · rw [locate8_ibuf p a hin.1 hin.2] at h
    have := Loc.ibufByte.inj h
    omega
  · exact absurd h (locate8_ne_ibuf p a hin i)

theorem write8At_inv (b : Byte) (s : State) (a : Word) (h : Inv s) : Inv (s.write8At b (locate8 s.params a)) := by
  rcases write8At_cases b s (locate8 s.params a) with ⟨i, hloc, -, hw⟩ | ⟨-, hw⟩ <;> rw [hw]
  · have hbound (c : Host.Cell) (hc : c ∈ s.ibuf.write i b) : c.1 < s.params.ibufCap := by
      rcases Memory.mem_write _ _ _ c hc with rfl | hc
      · exact locate8_ibuf_lt hloc
      · exact h.ibufBound c hc
    exact { h with ibufWf := Memory.write_wf _ _ _ h.ibufWf, ibufBound := hbound }
  · exact h

theorem portAccess_inv (op : PortOp) (s : State) (h : Inv s) : Inv (portAccess op s) := by
  cases op with
  | read32 a => exact (read32At_answersOnly s _).inv h
  | write32 a v => exact write32At_inv v s _ h
  | read8 a => exact (read8At_answersOnly s _).inv h
  | write8 a b => exact write8At_inv b s a h
  | rst => exact reset_inv s.params h.params s.port s.draws (s.epoch + 1)

/-! ### The step -/

/-- Settles O59: taking an operation from the port leaves the invariant, and so does whatever the operation is: nothing, a
command, an illegal word or a port access. -/
theorem everyStepKeepsTheInvariant : Obligations.EveryStepKeepsTheInvariant := by
  intro s s' h hstep
  have htaken (rest : List PortOp) : Inv (taken rest s) := { h with }
  rcases step_cases s with ⟨-, hs⟩ | ⟨_, w, rest, -, -, hs⟩ | ⟨op, rest, -, -, hs⟩ <;> rw [hs] at hstep
  · cases hstep
    exact h
  · rcases submit_cases w (taken rest s) with ⟨i, -, hw⟩ | ⟨-, hw⟩ <;> rw [hw] at hstep
    · exact exec_inv i _ s' (htaken rest) hstep
    · cases hstep
      exact rejectWord_inv _ (htaken rest)
  · cases hstep
    exact portAccess_inv op _ (htaken rest)

end Sys2Proof.Machine
end

section
/-! PROOFS. The host port's windows, its closed and bad addresses, and ignored command words (20_memory.md rules R62 to
R66, R77). -/

namespace Sys2Proof.Machine

/-! ### Ignored command words (R77, R230, R255) -/

/-- The decoder accepts the encoder's words only (R90). -/
theorem eq_encode_of_decode {w : Word} {i : Instr} (h : decode w = .ok i) : w = encode i := by
  have hsplit : zeroField w ++ opcodeField w = w := by
    ext k hk
    simp only [zeroField, opcodeField, BitVec.getElem_append, BitVec.getElem_extractLsb']
    split
    · simp [BitVec.getLsbD_eq_getElem hk]
    · simp [show 8 + (k - 8) = k by omega, BitVec.getLsbD_eq_getElem hk]
  unfold decode at h
  split at h
  case isTrue hz =>
    split at h
    case h_1 r hr =>
      cases h
      have hop : r.opcode = opcodeField w := by simpa using List.find?_some hr
      have hrow : r.opcode = opcodeOf r.instr :=
        (by decide : ∀ r ∈ opcodeMap, r.opcode = opcodeOf r.instr) r (List.mem_of_find?_eq_some hr)
      rw [← hsplit, hz, ← hop, hrow]
      rfl
    case h_2 => cases h
  case isFalse => cases h

theorem exec_ignored (i : Instr) (s : State) (h : s.busy = true ∨ (s.err = true ∧ i ≠ .ack)) :
    exec i s = .next s := by
  by_cases hi : i = .ack
  · subst hi
    exact runAck_ignored s (h.resolve_right (fun he => he.2 rfl))
  · rw [exec_eq_runCommand i hi]
    exact runCommand_ignored _ s (h.imp_right And.left)

theorem submit_ignored (w : Word) (s : State) (h : s.busy = true ∨ (s.err = true ∧ w ≠ encode .ack)) :
    submit w s = .next s := by
  rcases submit_cases w s with ⟨i, hdec, hsub⟩ | ⟨-, hsub⟩ <;> rw [hsub]
  · refine exec_ignored i s (h.imp_right (And.imp_right (fun hw hi => hw ?_)))
    rw [eq_encode_of_decode hdec, hi]
  · rw [rejectWord_ignored s (h.imp_right And.left)]

/-- Settles O5: a submitted word is a command, which is ignored unless it is ACK's, or is rejected, and then nothing
happens either. -/
theorem commandWritesIgnoredWhileBusyOrErr : Obligations.CommandWritesIgnoredWhileBusyOrErr := by
  intro s w rest hport h
  rw [step_command s w rest hport]
  exact submit_ignored w (taken rest s) h

/-! ### The port while a command runs (R77) -/

theorem read32At_busy (s : State) (l : Loc) (hb : s.busy = true) (hs : l ≠ .reg .status) (hc : l ≠ .reg .ctrl) :
    s.read32At l = s.replyFreeWord := by
  unfold State.read32At
  rw [if_pos hb]
  cases l with
  | reg r =>
    cases r with
    | status => exact absurd rfl hs
    | ctrl => exact absurd rfl hc
    | _ => rfl
  | _ => rfl

/-- The two registers that stay open answer as they do in an idle engine. -/
theorem read32At_open (s : State) (r : Reg) (hr : r.openWhileBusy = true) :
    s.read32At (.reg r) = s.replyWord (s.readReg r) := by
  unfold State.read32At
  dsimp only
  rw [if_pos hr, ite_self]

theorem write32At_busy (v : Word) (s : State) (l : Loc) (hb : s.busy = true) (hc : l ≠ .reg .ctrl) :
    s.write32At v l = s := by
  cases l with
  | reg r =>
    cases r with
    | ctrl => exact absurd rfl hc
    | status => exact ite_self s
    | _ => exact if_pos (by rw [hb]; rfl)
  | _ => rfl

theorem write8At_busy (b : Byte) (s : State) (l : Loc) (hb : s.busy = true) : s.write8At b l = s := if_pos hb

theorem read8At_busy (s : State) (l : Loc) (hb : s.busy = true) : s.read8At l = s.replyFreeByte := if_pos hb

theorem locate32_ne_reg {a : Word} {r : Reg} (h : a ≠ regOffset r) : locate32 a ≠ .reg r :=
  fun hl => h ((locate32_eq_reg a r).mp hl)

/-- Settles O52: the two open registers answer and take a write as in an idle engine, and every other location is closed. -/
theorem busyPortIsClosed : Obligations.BusyPortIsClosed := by
  intro s rest hb
  have hb' : (taken rest s).busy = true := hb
  have hread (r : Reg) (hr : r.openWhileBusy = true) (hport : s.port = scriptRD r :: rest) :
      step s = .next (State.replyWord (s.readReg r) (taken rest s)) := by
    rw [step_access s _ rest hport rfl, scriptRD, portAccess, locate32_regOffset, read32At_open _ r hr]
    cases r <;> rfl
  refine ⟨hread .status rfl, hread .ctrl rfl, fun v hport => ?_, fun a hs hc hport => ?_, fun a hport => ?_,
    fun a v hc hport => ?_, fun a b hport => ?_⟩
  · rw [step_write32 s _ v rest hport (by decide), locate32_regOffset, State.write32At]
    simp [Reg.openWhileBusy, State.writeReg]
  · rw [step_access s _ rest hport rfl, portAccess, read32At_busy _ _ hb' (locate32_ne_reg hs) (locate32_ne_reg hc)]
    rfl
  · rw [step_access s _ rest hport rfl, portAccess, read8At_busy _ _ hb']
    rfl
  · by_cases hcmd : a = regOffset .cmd
    · subst hcmd
      exact commandWritesIgnoredWhileBusyOrErr s v rest hport (.inl hb)
    · rw [step_write32 s a v rest hport hcmd, write32At_busy v _ _ hb' (locate32_ne_reg hc)]
  · rw [step_access s _ rest hport rfl, portAccess, write8At_busy b _ _ hb']

/-! ### Addresses that name nothing (R66) -/

theorem locate32_unmapped (a : Word)
    (h : a.toNat % 4 ≠ 0 ∨ (0x24 ≤ a.toNat ∧ a.toNat < 0x400) ∨ (0xC00 ≤ a.toNat ∧ a.toNat < 0x2000) ∨
      (0x3FF0 ≤ a.toNat ∧ a.toNat < 0x4000) ∨ 0x6000 ≤ a.toNat) : locate32 a = .unmapped := by
  have hnode : NNODE = 511 := rfl
  have hsym : NSYM = 256 := rfl
  unfold locate32
  dsimp only
  split_ifs
  · rfl
  · have hreg : regAt (a.toNat / 4) = none := by
      obtain ⟨k, hk⟩ := Nat.exists_eq_add_of_le' (show 9 ≤ a.toNat / 4 by omega)
      rw [hk]
      rfl
    rw [hreg]
  · omega
  · omega
  · rfl
  · omega
  · rfl
  · omega
  · rfl

theorem locate8_unmapped (p : Params) (a : Word) (hi : ¬ (0x10000000 ≤ a.toNat ∧ a.toNat < 0x10000000 + p.ibufCap))
    (ho : ¬ (0x20000000 ≤ a.toNat ∧ a.toNat < 0x20000000 + p.obufCap)) : locate8 p a = .unmapped :=
  (if_neg hi).trans (if_neg ho)

theorem read32At_unmapped (s : State) (hb : s.busy = false) : s.read32At .unmapped = s.replyWord 0 := by
  unfold State.read32At
  simp [hb]

/-- Settles O51: such an address names nothing, where an idle engine reads 0 and writes nothing. -/
theorem badAccessesReadZeroAndWriteNothing : Obligations.BadAccessesReadZeroAndWriteNothing := by
  intro s rest a v b hb _
  refine ⟨fun ha => ?_, fun ⟨hi, ho⟩ => ?_⟩
  · have hloc := locate32_unmapped a ha
    have hcmd : a ≠ regOffset .cmd := fun h => by
      rw [h, locate32_regOffset] at hloc
      cases hloc
    refine ⟨fun hport => ?_, fun hport => ?_⟩
    · rw [step_access s _ rest hport rfl, portAccess, hloc, read32At_unmapped (taken rest s) hb]
      rfl
    · rw [step_write32 s a v rest hport hcmd, hloc]
      rfl
  · have hloc := locate8_unmapped s.params a hi ho
    refine ⟨fun hport => ?_, fun hport => ?_⟩
    · rw [step_access s _ rest hport rfl, portAccess, hloc, State.read8At, if_neg (by simp [hb])]
      rfl
    · rw [step_access s _ rest hport rfl, portAccess, hloc, write8At_elsewhere b _ .unmapped (fun _ => nofun)]

/-! ### The buffer windows (R64, R65) -/

theorem Params.caps_le {p : Params} (h : p.wf = true) : p.ibufCap ≤ 2 ^ 28 ∧ p.obufCap ≤ 2 ^ 28 := by
  simp only [Params.wf, Bool.and_eq_true, decide_eq_true_eq] at h
  exact ⟨h.1.1.2, h.2⟩

theorem locate8_obuf (p : Params) (a : Word) (hp : p.wf = true) (h1 : 0x20000000 ≤ a.toNat)
    (h2 : a.toNat < 0x20000000 + p.obufCap) : locate8 p a = .obufByte (a.toNat - 0x20000000) := by
  have hcap := Params.caps_le hp
  exact (if_neg (by omega)).trans (if_pos ⟨h1, h2⟩)

/-- The `IBUF` window's addresses, within the capacity (R62). -/
theorem locate8_ibufAddr (p : Params) (i : Nat) (hp : p.wf = true) (hi : i < p.ibufCap) :
    locate8 p (ibufAddr i) = .ibufByte i := by
  have hcap := Params.caps_le hp
  have ha : (ibufAddr i).toNat = 0x10000000 + i := by
    rw [ibufAddr, BitVec.toNat_ofNat]
    omega
  rw [locate8_ibuf p _ (by omega) (by omega), ha, Nat.add_sub_cancel_left]

/-- The `OBUF` window's addresses, within the capacity (R62). -/
theorem locate8_obufAddr (p : Params) (i : Nat) (hp : p.wf = true) (hi : i < p.obufCap) :
    locate8 p (obufAddr i) = .obufByte i := by
  have hcap := Params.caps_le hp
  have ha : (obufAddr i).toNat = 0x20000000 + i := by
    rw [obufAddr, BitVec.toNat_ofNat]
    omega
  rw [locate8_obuf p _ hp (by omega) (by omega), ha, Nat.add_sub_cancel_left]

theorem read8At_ibuf (s : State) (i : Nat) (hb : s.busy = false) :
    s.read8At (.ibufByte i) = s.replyByte (s.ibufByte i) := by
  simp [State.read8At, hb]

theorem read8At_obuf (s : State) (i : Nat) (hb : s.busy = false) : s.read8At (.obufByte i) = s.readObufByte i := by
  simp [State.read8At, hb]

theorem readObufByte_below (s : State) (i : Nat) (b : Byte) (hi : i < s.olen.toNat) (h : s.obuf.read? i = some b) :
    s.readObufByte i = s.replyByte b := by
  rw [State.readObufByte, if_pos hi, h]

theorem readObufByte_above (s : State) (i : Nat) (hi : s.olen.toNat ≤ i) : s.readObufByte i = s.replyFreeByte :=
  if_neg (not_lt.mpr hi)

/-- Settles O50: the windows' addresses name the buffers' bytes, and `OBUF` takes no write. -/
theorem bufferWindowsMoveSingleBytes : Obligations.BufferWindowsMoveSingleBytes := by
  intro s rest i hb hp
  refine ⟨fun b hi hport => ?_, fun hi hport => ?_, fun b hi hfit hbyte hport => ?_, fun hlo hi hport => ?_,
    fun b hi hport => ?_⟩
  · have hstep : step s = .next { taken rest s with ibuf := s.ibuf.write i b } := by
      rw [step_access s _ rest hport rfl, scriptWB, portAccess, locate8_ibufAddr s.params i hp hi, State.write8At,
        if_neg (by simp [hb])]
    refine ⟨_, hstep, rfl, fun a => ?_⟩
    rw [State.ibufByte_write (taken rest s)]
    exact if_congr eq_comm rfl rfl
  · rw [step_access s _ rest hport rfl, portAccess, locate8_ibufAddr s.params i hp hi, read8At_ibuf (taken rest s) i hb]
    rfl
  · rw [step_access s _ rest hport rfl, scriptRB, portAccess, locate8_obufAddr s.params i hp (hi.trans_le hfit),
      read8At_obuf (taken rest s) i hb, readObufByte_below (taken rest s) i b hi hbyte]
    rfl
  · rw [step_access s _ rest hport rfl, scriptRB, portAccess, locate8_obufAddr s.params i hp hi,
      read8At_obuf (taken rest s) i hb, readObufByte_above (taken rest s) i hlo]
    rfl
  · rw [step_access s _ rest hport rfl, portAccess, locate8_obufAddr s.params i hp hi,
      write8At_elsewhere b _ (.obufByte i) (fun _ => nofun)]

/-! ### The word windows' addresses (R62) -/

/-- A number below 2^32 is the address it makes. -/
theorem toNat_addr {n : Nat} (h : n < 2 ^ 32) : (BitVec.ofNat 32 n).toNat = n := Nat.mod_eq_of_lt h

theorem ofNat_eq_of_toNat {w n : Nat} {x : BitVec w} (h : n = x.toNat) : BitVec.ofNat w n = x := by
  rw [h, BitVec.ofNat_toNat, BitVec.setWidth_eq]

theorem locate32_hist (b : Byte) : locate32 (BitVec.ofNat 32 (0x400 + 4 * b.toNat)) = .histWord b := by
  have hb := b.isLt
  have hslot : BitVec.ofNat 8 ((0x400 + 4 * b.toNat - 0x400) / 4) = b := ofNat_eq_of_toNat (by omega)
  unfold locate32
  rw [toNat_addr (by omega)]
  dsimp only
  rw [if_neg (by omega), if_neg (by omega), if_pos (by omega), hslot]

theorem locate32_codeLen (b : Byte) : locate32 (BitVec.ofNat 32 (0x800 + 4 * b.toNat)) = .codeLenWord b := by
  have hb := b.isLt
  have hslot : BitVec.ofNat 8 ((0x800 + 4 * b.toNat - 0x800) / 4) = b := ofNat_eq_of_toNat (by omega)
  unfold locate32
  rw [toNat_addr (by omega)]
  dsimp only
  rw [if_neg (by omega), if_neg (by omega), if_neg (by omega), if_pos (by omega), hslot]

theorem locate32_node (i : NodeIdx) (k : Nat) (hi : i ≠ NULL) (hk : k < 4) :
    locate32 (BitVec.ofNat 32 (0x2000 + 16 * i.toNat + 4 * k)) = .nodeWord i k := by
  have hlt : i.toNat < 511 := by
    have := i.isLt
    have : i.toNat ≠ 511 := fun h => hi (BitVec.eq_of_toNat_eq h)
    omega
  have hentry : BitVec.ofNat 9 ((0x2000 + 16 * i.toNat + 4 * k - 0x2000) / 16) = i := ofNat_eq_of_toNat (by omega)
  have hword : (0x2000 + 16 * i.toNat + 4 * k - 0x2000) % 16 / 4 = k := by omega
  unfold locate32
  rw [toNat_addr (by omega)]
  dsimp only [NNODE]
  rw [if_neg (by omega), if_neg (by omega), if_neg (by omega), if_neg (by omega), if_neg (by omega), if_pos (by omega),
    hentry, hword]

theorem locate32_codeBits (b : Byte) (w : Nat) (hw : w < 8) :
    locate32 (BitVec.ofNat 32 (0x4000 + 32 * b.toNat + 4 * w)) = .codeBitsWord b w := by
  have hb := b.isLt
  have hslot : BitVec.ofNat 8 ((0x4000 + 32 * b.toNat + 4 * w - 0x4000) / 32) = b := ofNat_eq_of_toNat (by omega)
  have hword : (0x4000 + 32 * b.toNat + 4 * w - 0x4000) % 32 / 4 = w := by omega
  unfold locate32
  rw [toNat_addr (by omega)]
  dsimp only [NNODE, NSYM]
  rw [if_neg (by omega), if_neg (by omega), if_neg (by omega), if_neg (by omega), if_neg (by omega), if_neg (by omega),
    if_neg (by omega), if_pos (by omega), hslot, hword]

/-! ### The word windows' images (R63, R103, R104) -/

/-- A 32-bit read of a located address. -/
theorem step_read32 (s : State) (a : Word) (l : Loc) (rest : List PortOp) (hl : locate32 a = l)
    (h : s.port = .read32 a :: rest) : step s = .next ((taken rest s).read32At l) := by
  rw [step_access s _ rest h rfl, portAccess, hl]

/-- Word 0 of an entry's image (R103). -/
theorem nodeImage_zero (n : Node) : nodeImage n 0 = BitVec.ofNat 32 (n.sym.toNat + 2 ^ 16 * n.visited.toNat) := by
  apply BitVec.eq_of_toNat_eq
  have hs := n.sym.isLt
  have hv := n.visited.toNat_le
  simp only [nodeImage, toNat_append_eq_add, BitVec.toNat_ofNat, BitVec.toNat_ofBool]
  omega

/-- Word 1 of an entry's image (R103). -/
theorem nodeImage_one (n : Node) : nodeImage n 1 = BitVec.ofNat 32 n.freq.toNat := by simp [nodeImage]

/-- Word 2 of an entry's image (R103). -/
theorem nodeImage_two (n : Node) : nodeImage n 2 = BitVec.ofNat 32 (n.left.toNat + 2 ^ 16 * n.right.toNat) := by
  apply BitVec.eq_of_toNat_eq
  have hl := n.left.isLt
  have hr := n.right.isLt
  simp only [nodeImage, toNat_append_eq_add, BitVec.toNat_ofNat]
  omega

/-- Word 3 of an entry's image (R103). -/
theorem nodeImage_three (n : Node) : nodeImage n 3 = BitVec.ofNat 32 n.parent.toNat := by
  apply BitVec.eq_of_toNat_eq
  have hp := n.parent.isLt
  simp only [nodeImage, toNat_append_eq_add, BitVec.toNat_ofNat]
  omega

/-- Bit `31 − j` of CODEBITS word `w` is code bit `32w + j` (R104). -/
theorem getLsbD_codeBitsImage (c : Code) (w j : Nat) (hw : w < 8) (hj : j < 32) :
    (codeBitsImage c w).getLsbD (31 - j) = c.bits.getMsbD (32 * w + j) := by
  rw [codeBitsImage, BitVec.getLsbD_extractLsb', BitVec.getMsbD,
    show 32 * (7 - w) + (31 - j) = 256 - 1 - (32 * w + j) by omega]
  simp [show 31 - j < 32 by omega, show 32 * w + j < 256 by omega]

theorem readNodeWord_held (s : State) (i : NodeIdx) (k : Nat) (hi : i ≠ NULL)
    (h : s.tvalid = true ∧ i.toNat < s.ncount.toNat) :
    s.readNodeWord i k = s.replyWord (nodeImage (s.node.get i) k) := by
  rw [State.readNodeWord, if_pos h, nodeAt_of_ne _ i hi]

theorem readNodeWord_free (s : State) (i : NodeIdx) (k : Nat) (h : ¬ (s.tvalid = true ∧ i.toNat < s.ncount.toNat)) :
    s.readNodeWord i k = s.replyFreeWord := if_neg h

/-- Settles O49: each window's address names its word, whose image has the fields and bits where the statement says. -/
theorem windowReadsShowTheMemories : Obligations.WindowReadsShowTheMemories := by
  intro s rest hb
  have hidle : ¬ (taken rest s).busy = true := by simp [hb]
  refine ⟨fun b hport => ?_, fun b hport => ?_, fun b w hw hport => ?_, fun i k hi hk hport => ?_⟩
  · rw [step_read32 s _ _ rest (locate32_hist b) hport, State.read32At, if_neg hidle]
    rfl
  · rw [step_read32 s _ _ rest (locate32_codeLen b) hport, State.read32At, if_neg hidle]
    rfl
  · refine ⟨codeBitsImage (s.code.get b) w, ?_, fun j hj => getLsbD_codeBitsImage _ w j hw hj⟩
    rw [step_read32 s _ _ rest (locate32_codeBits b w hw) hport, State.read32At, if_neg hidle]
    rfl
  · have hstep : step s = .next ((taken rest s).readNodeWord i k) := by
      rw [step_read32 s _ _ rest (locate32_node i k hi hk) hport, State.read32At, if_neg hidle]
    refine ⟨fun h => ?_, fun h => ?_⟩
    · rw [hstep, readNodeWord_held (taken rest s) i k hi h]
      obtain rfl | rfl | rfl | rfl : k = 0 ∨ k = 1 ∨ k = 2 ∨ k = 3 := by omega
      · rw [nodeImage_zero]
        rfl
      · rw [nodeImage_one]
        rfl
      · rw [nodeImage_two]
        rfl
      · rw [nodeImage_three]
        rfl
    · rw [hstep, readNodeWord_free (taken rest s) i k h]
      rfl

end Sys2Proof.Machine
end

section
/-! PROOFS. What commands write and that none reads `OBUF` (20_memory.md rules R71, R73). -/

namespace Sys2Proof.Machine

/-! ### Each structure has its writers (R71) -/

/-- The commands that may write `OBUF`. -/
abbrev appending : List Instr := [.ser, .pack, .unpack, .wrsize, .compress, .decompress]

/-- The commands that may write `IPOS`. -/
abbrev advancing : List Instr := [.rdsize, .des, .unpack, .compress, .decompress]

/-- From `s` to `s'` the command `i` has written only the structures the table of R71 names for it. -/
structure WritesOnly (i : Instr) (s s' : State) : Prop where
  hist : i ∉ [Instr.hist, .compress] → s'.hist = s.hist
  code : i ∉ [Instr.gen, .compress] → s'.code = s.code
  tree : i ∉ [Instr.build, .des, .compress, .decompress] →
    s'.root = s.root ∧ s'.ncount = s.ncount ∧ s'.tvalid = s.tvalid
  node : i ∉ [Instr.build, .des, .gen, .compress, .decompress] → s'.node = s.node
  obuf : i ∉ appending → s'.obuf = s.obuf
  olen : i ∉ Instr.orst :: appending → s'.olen = s.olen
  nsize : i ∉ [Instr.rdsize, .compress, .decompress] → s'.nsize = s.nsize
  ipos : i ∉ advancing → s'.ipos = s.ipos

theorem WritesOnly.refl (i : Instr) (s : State) : WritesOnly i s s :=
  ⟨fun _ => rfl, fun _ => rfl, fun _ => ⟨rfl, rfl, rfl⟩, fun _ => rfl, fun _ => rfl, fun _ => rfl, fun _ => rfl,
    fun _ => rfl⟩

/-- The table leaves nothing out for COMPRESS. -/
theorem WritesOnly.compress (s s' : State) : WritesOnly .compress s s' := by
  constructor <;> exact absurd (by decide)

theorem Res.ends_of_forall {α : Type} {P : State → Prop} (hP : ∀ s, P s) (r : Res α) : r.ends P := by
  cases r with
  | ok a s => exact hP s
  | raise f s => exact hP s
  | stuck e => trivial

section
variable {i : Instr} {s t : State}

theorem obufAppend_writes (hi : i ∈ appending) (b : Byte) (h : WritesOnly i s t) :
    (obufAppend b t).ends (WritesOnly i s) := by
  unfold obufAppend
  split
  · exact h
  · exact { h with obuf := absurd hi, olen := absurd (List.mem_cons_of_mem _ hi) }

theorem obufAppendAll_writes (hi : i ∈ appending) (bs : List Byte) (h : WritesOnly i s t) :
    (obufAppendAll bs t).ends (WritesOnly i s) := by
  unfold obufAppendAll
  split
  · exact h
  · exact { h with obuf := absurd hi, olen := absurd (List.mem_cons_of_mem _ hi) }

theorem ibufNext_writes (hi : i ∈ advancing) (f : FaultCode) (h : WritesOnly i s t) :
    (ibufNext f t).ends (WritesOnly i s) := by
  unfold ibufNext
  split
  · exact h
  · exact { h with ipos := absurd hi }

theorem packBits_writes (bs : List Bool) (p : PackAcc) (h : WritesOnly .pack s t) :
    (packBits bs p t).ends (WritesOnly .pack s) := by
  induction bs generalizing p t with
  | nil => exact h
  | cons b bs ih =>
    unfold packBits
    split
    · exact Res.ends_bind (obufAppend_writes (by decide) _ h) (fun _ _ => ih _)
    · exact ih _ h

theorem packSymbols_writes (xs : List Byte) (p : PackAcc) (h : WritesOnly .pack s t) :
    (packSymbols xs p t).ends (WritesOnly .pack s) := by
  induction xs generalizing p t with
  | nil => exact h
  | cons x xs ih =>
    unfold packSymbols
    split
    · exact h
    · exact Res.ends_bind (packBits_writes _ p h) (fun p _ => ih p)

theorem flushBits_writes (p : PackAcc) (h : WritesOnly .pack s t) : (flushBits p t).ends (WritesOnly .pack s) := by
  unfold flushBits
  split
  · exact obufAppend_writes (by decide) _ h
  · exact h

theorem fetchBits_writes (hi : i ∈ advancing) (w : Walk) (h : WritesOnly i s t) :
    (fetchBits w t).ends (WritesOnly i s) := by
  unfold fetchBits
  split
  · exact Res.ends_bind (ibufNext_writes hi _ h) (fun _ _ hu => hu)
  · exact h

theorem consumeBit_writes (hi : i ∈ appending) (w : Walk) (h : WritesOnly i s t) :
    (consumeBit w t).ends (WritesOnly i s) := by
  unfold consumeBit
  split
  · trivial
  · dsimp only
    split
    · trivial
    · split
      · exact Res.ends_bind (obufAppend_writes hi _ h) (fun _ _ hu => hu)
      · exact h

theorem unpackLoop_writes (ha : i ∈ advancing) (ho : i ∈ appending) (k : Nat) (w : Walk) (h : WritesOnly i s t) :
    (unpackLoop k w t).ends (WritesOnly i s) := by
  induction k generalizing w t with
  | zero => trivial
  | succ k ih =>
    unfold unpackLoop
    split
    · exact Res.ends_bind (fetchBits_writes ha w h) (fun w _ hu =>
        Res.ends_bind (consumeBit_writes ho w hu) (fun w _ => ih w))
    · exact h

/-! ### The bodies' writes -/

theorem bodyHist_writes (s : State) : (bodyHist s).ends (WritesOnly .hist s) :=
  Res.ends_bind (checkIn_ends (WritesOnly.refl _ s)) (fun _ _ ht => { ht with hist := absurd (by decide) })

theorem bodyBuild_writes (s : State) : (bodyBuild s).ends (WritesOnly .build s) := by
  rw [bodyBuild_eq]
  generalize buildWith stableOrder .leftIsSecondToLast s.hist = r
  exact { WritesOnly.refl _ s with tree := absurd (by decide), node := absurd (by decide) }

theorem bodyGen_writes (s : State) : (bodyGen s).ends (WritesOnly .gen s) := by
  unfold bodyGen
  split
  · exact WritesOnly.refl _ s
  · split
    · exact WritesOnly.refl _ s
    · split
      · exact { WritesOnly.refl _ s with code := absurd (by decide), node := absurd (by decide) }
      · trivial

theorem bodySer_writes (s : State) : (bodySer s).ends (WritesOnly .ser s) := by
  unfold bodySer
  split
  · exact WritesOnly.refl _ s
  · split
    · exact obufAppendAll_writes (by decide) _ (WritesOnly.refl _ s)
    · trivial

theorem bodyPack_writes (s : State) : (bodyPack s).ends (WritesOnly .pack s) :=
  Res.ends_bind (checkIn_ends (WritesOnly.refl _ s)) (fun _ _ ht =>
    Res.ends_bind (packSymbols_writes _ _ ht) (fun p _ => flushBits_writes p))

theorem bodyDes_writes (hi : i ∈ [Instr.des, .decompress]) (h : WritesOnly i s t) :
    (bodyDes t).ends (WritesOnly i s) := by
  have htree := (by decide : [Instr.des, .decompress] ⊆ [.build, .des, .compress, .decompress]) hi
  have hnode := (by decide : [Instr.des, .decompress] ⊆ [.build, .des, .gen, .compress, .decompress]) hi
  have hipos := (by decide : [Instr.des, .decompress] ⊆ advancing) hi
  refine Res.ends_bind (checkIn_ends h) (fun _ u hu => ?_)
  have hframe := parse_frame 512 NULL u.dropTree
  cases hp : parse 512 NULL u.dropTree with
  | ok r v =>
    rw [hp] at hframe
    obtain ⟨ip, nc, nd, rfl⟩ := hframe
    exact { hu with tree := absurd htree, node := absurd hnode, ipos := absurd hipos }
  | raise f v =>
    rw [hp] at hframe
    obtain ⟨ip, nc, nd, rfl⟩ := hframe
    exact { hu with tree := absurd htree, node := absurd hnode, ipos := absurd hipos }
  | stuck e => trivial

theorem bodyUnpack_writes (ha : i ∈ advancing) (ho : i ∈ appending) (h : WritesOnly i s t) :
    (bodyUnpack t).ends (WritesOnly i s) := by
  unfold bodyUnpack
  split
  · exact h
  · refine Res.ends_bind (checkIn_ends h) (fun _ u hu => ?_)
    split
    · exact hu
    · exact unpackLoop_writes ha ho _ _ hu

theorem bodyRdsize_writes (hi : i ∈ [Instr.rdsize, .decompress]) (h : WritesOnly i s t) :
    (bodyRdsize t).ends (WritesOnly i s) := by
  have hnsize := (by decide : [Instr.rdsize, .decompress] ⊆ [.rdsize, .compress, .decompress]) hi
  have hipos := (by decide : [Instr.rdsize, .decompress] ⊆ advancing) hi
  refine Res.ends_bind (checkIn_ends h) (fun _ u hu => ?_)
  dsimp only
  split
  · exact hu
  · exact { hu with nsize := absurd hnsize, ipos := absurd hipos }

theorem bodyDecompress_writes (s : State) : (bodyDecompress s).ends (WritesOnly .decompress s) := by
  have hstart : WritesOnly .decompress s s.startDecompress :=
    { WritesOnly.refl _ s with olen := absurd (by decide), ipos := absurd (by decide) }
  exact Res.ends_andThen (bodyRdsize_writes (by decide) hstart) (fun _ ht =>
    Res.ends_andThen (bodyDes_writes (by decide) ht) (fun _ => bodyUnpack_writes (by decide) (by decide)))

end

/-- Every command's body writes its destinations only, whether it completes or raises a fault. -/
theorem bodyOf_writes (i : Instr) (s : State) : (bodyOf i s).ends (WritesOnly i s) := by
  have h := WritesOnly.refl i s
  cases i with
  | nop => exact h
  | ack => exact h
  | orst => exact { h with olen := absurd (by decide) }
  | hist => exact bodyHist_writes s
  | build => exact bodyBuild_writes s
  | gen => exact bodyGen_writes s
  | ser => exact bodySer_writes s
  | des => exact bodyDes_writes (by decide) h
  | pack => exact bodyPack_writes s
  | unpack => exact bodyUnpack_writes (by decide) (by decide) h
  | wrsize => exact obufAppendAll_writes (by decide) _ h
  | rdsize => exact bodyRdsize_writes (by decide) h
  | compress => exact Res.ends_of_forall (WritesOnly.compress s) _
  | decompress => exact bodyDecompress_writes s

/-- A fault puts the registers and `OBUF` back, so it changes no more than the body did. -/
theorem exec_writes (i : Instr) (s s' : State) (h : exec i s = .next s') : WritesOnly i s s' := by
  by_cases hi : i = .ack
  · subst hi
    cases hb : s.busy
    · rw [exec_ack, runAck_eq s hb] at h
      cases h
      exact { WritesOnly.refl _ s with }
    · rw [exec_ack, runAck_ignored s hb] at h
      cases h
      exact WritesOnly.refl _ s
  · rw [exec_eq_runCommand i hi] at h
    have hbody := bodyOf_writes i s.flagsAccepted
    rcases runCommand_cases _ s s' h with ⟨-, rfl⟩ | ⟨-, t, hok, rfl⟩ | ⟨-, f, t, hraise, rfl⟩
    · exact WritesOnly.refl i _
    · rw [hok] at hbody
      exact { (hbody : WritesOnly i s.flagsAccepted t) with }
    · rw [hraise] at hbody
      exact { (hbody : WritesOnly i s.flagsAccepted t) with
        obuf := fun _ => rfl, olen := fun _ => rfl, nsize := fun _ => rfl, ipos := fun _ => rfl }

/-- Settles O43: the bodies write their destinations only, completion only flags, and a fault puts registers and `OBUF`
back. -/
theorem commandsWriteOnlyTheirDestinations : Obligations.CommandsWriteOnlyTheirDestinations := by
  intro i s s' h
  obtain ⟨hhist, hcode, htree, hnode, hobuf, holen, hnsize, hipos⟩ := exec_writes i s s' h
  exact ⟨hhist, hcode, htree, hnode, hobuf, holen, hnsize, hipos⟩

/-! ### `OBUF` is never read (R73) -/

/-- The state with another content of `OBUF`. -/
def State.withObuf (m : Memory) (s : State) : State := { s with obuf := m }

@[simp] theorem State.withObuf_params (m : Memory) (s : State) : (s.withObuf m).params = s.params := rfl
@[simp] theorem State.withObuf_tvalid (m : Memory) (s : State) : (s.withObuf m).tvalid = s.tvalid := rfl
@[simp] theorem State.withObuf_ilen (m : Memory) (s : State) : (s.withObuf m).ilen = s.ilen := rfl
@[simp] theorem State.withObuf_ipos (m : Memory) (s : State) : (s.withObuf m).ipos = s.ipos := rfl
@[simp] theorem State.withObuf_olen (m : Memory) (s : State) : (s.withObuf m).olen = s.olen := rfl
@[simp] theorem State.withObuf_nsize (m : Memory) (s : State) : (s.withObuf m).nsize = s.nsize := rfl
@[simp] theorem State.withObuf_root (m : Memory) (s : State) : (s.withObuf m).root = s.root := rfl
@[simp] theorem State.withObuf_ncount (m : Memory) (s : State) : (s.withObuf m).ncount = s.ncount := rfl
@[simp] theorem State.withObuf_hist (m : Memory) (s : State) : (s.withObuf m).hist = s.hist := rfl
@[simp] theorem State.withObuf_node (m : Memory) (s : State) : (s.withObuf m).node = s.node := rfl
@[simp] theorem State.withObuf_code (m : Memory) (s : State) : (s.withObuf m).code = s.code := rfl
@[simp] theorem State.withObuf_inputInRange (m : Memory) (s : State) :
    (s.withObuf m).inputInRange = s.inputInRange := rfl
@[simp] theorem genStart_withObuf (m : Memory) (s : State) : genStart (s.withObuf m) = genStart s := rfl
@[simp] theorem unpackBound_withObuf (m : Memory) (s : State) : unpackBound (s.withObuf m) = unpackBound s := rfl

/-- From the contents `m0` and `m` of `OBUF`, `n0` and `n` have come by the same writes: each byte is the same in both or
untouched in both. -/
def SameWrites (m0 m n0 n : Memory) : Prop :=
  ∀ a, n.read? a = n0.read? a ∨ (n.read? a = m.read? a ∧ n0.read? a = m0.read? a)

theorem SameWrites.refl (m0 m : Memory) : SameWrites m0 m m0 m := fun _ => .inr ⟨rfl, rfl⟩

theorem SameWrites.write {m0 m n0 n : Memory} (h : SameWrites m0 m n0 n) (i : Nat) (b : Byte) :
    SameWrites m0 m (n0.write i b) (n.write i b) := by
  intro a
  rw [Memory.read?_write, Memory.read?_write]
  split
  · exact .inl rfl
  · exact h a

theorem SameWrites.writeAll {m0 m n0 n : Memory} (h : SameWrites m0 m n0 n) (i : Nat) (bs : List Byte) :
    SameWrites m0 m (n0.writeAll i bs) (n.writeAll i bs) := by
  intro a
  rw [Memory.read?_writeAll, Memory.read?_writeAll]
  split
  · exact .inl rfl
  · exact h a

/-- A body's result with another content of `OBUF`. -/
def Res.withObuf {α : Type} (m : Memory) : Res α → Res α
  | .ok a s => .ok a (s.withObuf m)
  | .raise f s => .raise f (s.withObuf m)
  | .stuck e => .stuck e

/-- `r'` ends as `r` does, in a state that differs in `OBUF` only, by the same writes from `m0` and `m`. -/
def Res.sameWrites {α : Type} (m0 m : Memory) (r r' : Res α) : Prop :=
  ∃ n, r' = r.withObuf n ∧ r.ends (fun s => SameWrites m0 m s.obuf n)

/-- The body `k` does the same whatever the content of `OBUF`. -/
def readsNoOutput {α : Type} (k : State → Res α) : Prop :=
  ∀ m0 m s n, SameWrites m0 m s.obuf n → (k s).sameWrites m0 m (k (s.withObuf n))

theorem readsNoOutput_bind {α β : Type} {r : State → Res α} {k : α → State → Res β} (hr : readsNoOutput r)
    (hk : ∀ a, readsNoOutput (k a)) : readsNoOutput (fun s => (r s).bind k) := by
  intro m0 m s n h
  obtain ⟨n', hn', h'⟩ := hr m0 m s n h
  dsimp only
  rw [hn']
  generalize r s = x at h' ⊢
  cases x with
  | ok a t => exact hk a m0 m t n' h'
  | raise f t => exact ⟨n', rfl, h'⟩
  | stuck e => exact ⟨n', rfl, trivial⟩

theorem readsNoOutput_andThen {r k : State → Res Unit} (hr : readsNoOutput r) (hk : readsNoOutput k) :
    readsNoOutput (fun s => (r s).andThen k) :=
  readsNoOutput_bind hr (fun _ => hk)

/-! ### No body reads `OBUF` -/

theorem checkIn_readsNoOutput : readsNoOutput checkIn := by
  intro m0 m s n h
  unfold checkIn
  rw [State.withObuf_inputInRange]
  split <;> exact ⟨n, rfl, h⟩

theorem ibufNext_readsNoOutput (f : FaultCode) : readsNoOutput (ibufNext f) := by
  intro m0 m s n h
  unfold ibufNext
  rw [State.withObuf_ipos, State.withObuf_ilen]
  split <;> exact ⟨n, rfl, h⟩

theorem obufAppend_readsNoOutput (b : Byte) : readsNoOutput (obufAppend b) := by
  intro m0 m s n h
  unfold obufAppend
  rw [State.withObuf_olen, State.withObuf_params]
  split
  · exact ⟨n, rfl, h⟩
  · exact ⟨_, rfl, h.write _ b⟩

theorem obufAppendAll_readsNoOutput (bs : List Byte) : readsNoOutput (obufAppendAll bs) := by
  intro m0 m s n h
  unfold obufAppendAll
  rw [State.withObuf_olen, State.withObuf_params]
  split
  · exact ⟨n, rfl, h⟩
  · exact ⟨_, rfl, h.writeAll _ bs⟩

theorem bodyHist_readsNoOutput : readsNoOutput bodyHist :=
  readsNoOutput_bind checkIn_readsNoOutput (fun _ _ _ _ n h => ⟨n, rfl, h⟩)

theorem bodyBuild_readsNoOutput : readsNoOutput bodyBuild := by
  intro m0 m s n h
  rw [bodyBuild_eq, bodyBuild_eq, State.withObuf_hist]
  generalize buildWith stableOrder .leftIsSecondToLast s.hist = r
  exact ⟨n, rfl, h⟩

theorem bodyGen_readsNoOutput : readsNoOutput bodyGen := by
  intro m0 m s n h
  unfold bodyGen
  rw [genStart_withObuf, State.withObuf_tvalid, State.withObuf_node, State.withObuf_root]
  split
  · exact ⟨n, rfl, h⟩
  · split
    · exact ⟨n, rfl, h⟩
    · cases genLoop genBound (genStart s) with
      | ok t => exact ⟨n, rfl, h⟩
      | error e => exact ⟨n, rfl, trivial⟩

theorem bodySer_readsNoOutput : readsNoOutput bodySer := by
  intro m0 m s n h
  unfold bodySer
  rw [State.withObuf_tvalid, State.withObuf_node, State.withObuf_root]
  split
  · exact ⟨n, rfl, h⟩
  · cases serBytes NNODE s.node s.root with
    | ok bs => exact obufAppendAll_readsNoOutput bs m0 m s n h
    | error e => exact ⟨n, rfl, trivial⟩

theorem packBits_readsNoOutput (bs : List Bool) (p : PackAcc) : readsNoOutput (packBits bs p) := by
  induction bs generalizing p with
  | nil => exact fun _ _ _ n h => ⟨n, rfl, h⟩
  | cons b bs ih =>
    intro m0 m s n h
    unfold packBits
    split
    · exact readsNoOutput_bind (obufAppend_readsNoOutput _) (fun _ => ih _) m0 m s n h
    · exact ih _ m0 m s n h

theorem packSymbols_readsNoOutput (xs : List Byte) (p : PackAcc) : readsNoOutput (packSymbols xs p) := by
  induction xs generalizing p with
  | nil => exact fun _ _ _ n h => ⟨n, rfl, h⟩
  | cons x xs ih =>
    intro m0 m s n h
    unfold packSymbols
    rw [State.withObuf_code]
    split
    · exact ⟨n, rfl, h⟩
    · exact readsNoOutput_bind (packBits_readsNoOutput _ p) ih m0 m s n h

theorem flushBits_readsNoOutput (p : PackAcc) : readsNoOutput (flushBits p) := by
  intro m0 m s n h
  unfold flushBits
  split
  · exact obufAppend_readsNoOutput _ m0 m s n h
  · exact ⟨n, rfl, h⟩

theorem bodyPack_readsNoOutput : readsNoOutput bodyPack :=
  readsNoOutput_bind checkIn_readsNoOutput (fun _ m0 m s n h =>
    readsNoOutput_bind (packSymbols_readsNoOutput s.payload .empty) flushBits_readsNoOutput m0 m s n h)

theorem parse_readsNoOutput (k : Nat) (p : NodeIdx) : readsNoOutput (parse k p) := by
  induction k generalizing p with
  | zero => exact fun _ _ _ n _ => ⟨n, rfl, trivial⟩
  | succ k ih =>
    refine readsNoOutput_bind (ibufNext_readsNoOutput _) (fun flag m0 m s n h => ?_)
    dsimp only
    rw [State.withObuf_ncount]
    split
    · exact ⟨n, rfl, h⟩
    · split
      · exact ⟨n, rfl, h⟩
      · split
        · refine readsNoOutput_bind (ibufNext_readsNoOutput _) (fun b _ _ t n h => ?_) m0 m (allocNode p s) n h
          exact ⟨n, rfl, h⟩
        · refine readsNoOutput_bind (ih _) (fun l m0 m t n h => ?_) m0 m (allocNode p s) n h
          refine readsNoOutput_bind (ih _) (fun r _ _ u n h => ?_) m0 m (t.updateNode _ _) n h
          exact ⟨n, rfl, h⟩

theorem bodyDes_readsNoOutput : readsNoOutput bodyDes :=
  readsNoOutput_bind checkIn_readsNoOutput (fun _ m0 m s n h => by
    obtain ⟨n', hn', h'⟩ := parse_readsNoOutput 512 NULL m0 m s.dropTree n h
    rw [show (s.withObuf n).dropTree = s.dropTree.withObuf n from rfl, hn']
    generalize parse 512 NULL s.dropTree = x at h' ⊢
    cases x <;> exact ⟨n', rfl, h'⟩)

theorem fetchBits_readsNoOutput (w : Walk) : readsNoOutput (fetchBits w) := by
  intro m0 m s n h
  unfold fetchBits
  split
  · refine readsNoOutput_bind (ibufNext_readsNoOutput _) (fun _ _ _ _ n h => ?_) m0 m s n h
    exact ⟨n, rfl, h⟩
  · exact ⟨n, rfl, h⟩

theorem consumeBit_readsNoOutput (w : Walk) : readsNoOutput (consumeBit w) := by
  intro m0 m s n h
  unfold consumeBit
  rw [State.withObuf_node]
  split
  · exact ⟨n, rfl, trivial⟩
  · dsimp only
    split
    · exact ⟨n, rfl, trivial⟩
    · split
      · refine readsNoOutput_bind (obufAppend_readsNoOutput _) (fun _ _ _ _ n h => ?_) m0 m s n h
        exact ⟨n, rfl, h⟩
      · exact ⟨n, rfl, h⟩

theorem unpackLoop_readsNoOutput (k : Nat) (w : Walk) : readsNoOutput (unpackLoop k w) := by
  induction k generalizing w with
  | zero => exact fun _ _ _ n _ => ⟨n, rfl, trivial⟩
  | succ k ih =>
    intro m0 m s n h
    unfold unpackLoop
    rw [State.withObuf_nsize]
    split
    · exact readsNoOutput_bind (fetchBits_readsNoOutput w)
        (fun w => readsNoOutput_bind (consumeBit_readsNoOutput w) ih) m0 m s n h
    · exact ⟨n, rfl, h⟩

theorem bodyUnpack_readsNoOutput : readsNoOutput bodyUnpack := by
  intro m0 m s n h
  unfold bodyUnpack
  rw [State.withObuf_tvalid]
  split
  · exact ⟨n, rfl, h⟩
  · refine readsNoOutput_bind checkIn_readsNoOutput (fun _ m0 m t n h => ?_) m0 m s n h
    rw [State.withObuf_nsize, State.withObuf_node, State.withObuf_root, unpackBound_withObuf]
    split
    · exact ⟨n, rfl, h⟩
    · exact unpackLoop_readsNoOutput _ _ m0 m t n h

theorem bodyRdsize_readsNoOutput : readsNoOutput bodyRdsize :=
  readsNoOutput_bind checkIn_readsNoOutput (fun _ m0 m s n h => by
    dsimp only
    rw [State.withObuf_ipos, State.withObuf_ilen]
    split <;> exact ⟨n, rfl, h⟩)

theorem bodyWrsize_readsNoOutput : readsNoOutput bodyWrsize :=
  fun m0 m s n h => obufAppendAll_readsNoOutput (sizeBytes s.nsize) m0 m s n h

theorem bodyCompress_readsNoOutput : readsNoOutput bodyCompress := by
  intro m0 m s n h
  have hbuild := bodyBuild_readsNoOutput
  unfold bodyCompress
  generalize bodyBuild = build at hbuild ⊢
  exact readsNoOutput_andThen bodyHist_readsNoOutput (readsNoOutput_andThen hbuild
    (readsNoOutput_andThen bodyGen_readsNoOutput (readsNoOutput_andThen bodyWrsize_readsNoOutput
      (readsNoOutput_andThen bodySer_readsNoOutput bodyPack_readsNoOutput)))) m0 m s.startCompress n h

theorem bodyDecompress_readsNoOutput : readsNoOutput bodyDecompress := by
  intro m0 m s n h
  exact readsNoOutput_andThen bodyRdsize_readsNoOutput
    (readsNoOutput_andThen bodyDes_readsNoOutput bodyUnpack_readsNoOutput) m0 m s.startDecompress n h

theorem bodyOf_readsNoOutput (i : Instr) : readsNoOutput (bodyOf i) := by
  cases i with
  | nop => exact fun _ _ _ n h => ⟨n, rfl, h⟩
  | ack => exact fun _ _ _ n h => ⟨n, rfl, h⟩
  | orst => exact fun _ _ _ n h => ⟨n, rfl, h⟩
  | hist => exact bodyHist_readsNoOutput
  | build => exact bodyBuild_readsNoOutput
  | gen => exact bodyGen_readsNoOutput
  | ser => exact bodySer_readsNoOutput
  | des => exact bodyDes_readsNoOutput
  | pack => exact bodyPack_readsNoOutput
  | unpack => exact bodyUnpack_readsNoOutput
  | wrsize => exact bodyWrsize_readsNoOutput
  | rdsize => exact bodyRdsize_readsNoOutput
  | compress => exact bodyCompress_readsNoOutput
  | decompress => exact bodyDecompress_readsNoOutput

/-- Settles O45: a body does the same whatever `OBUF` holds, and a fault puts that content back. -/
theorem outputBytesAreNeverRead : Obligations.OutputBytesAreNeverRead := by
  intro i s m
  show ∃ n, exec i (s.withObuf m) = mapNext (State.withObuf n) (exec i s) ∧
    ∀ s', exec i s = .next s' → SameWrites s.obuf m s'.obuf n
  have hsame : SameWrites s.obuf m s.obuf m := SameWrites.refl _ _
  by_cases hig : s.busy = true ∨ (s.err = true ∧ i ≠ .ack)
  · rw [exec_ignored i s hig, exec_ignored i (s.withObuf m) hig]
    refine ⟨m, rfl, fun s' hs' => ?_⟩
    cases hs'
    exact hsame
  · obtain ⟨hb, he⟩ := not_or.mp hig
    by_cases hi : i = .ack
    · subst hi
      have hb : s.busy = false := by simpa using hb
      rw [exec_ack, exec_ack, runAck_eq s hb, runAck_eq (s.withObuf m) hb]
      refine ⟨m, rfl, fun s' hs' => ?_⟩
      cases hs'
      exact hsame
    · have hr : s.ready := ⟨by simpa using hb, by simpa [hi] using he⟩
      obtain ⟨n, hn, hwrites⟩ := bodyOf_readsNoOutput i s.obuf m s.flagsAccepted m hsame
      rw [exec_eq_runCommand i hi, exec_eq_runCommand i hi, runCommand_ready _ s hr,
        runCommand_ready _ (s.withObuf m) hr,
        show (s.withObuf m).flagsAccepted = s.flagsAccepted.withObuf m from rfl]
      rw [hn]
      generalize bodyOf i s.flagsAccepted = r at hwrites ⊢
      cases r with
      | ok u t =>
        refine ⟨n, rfl, fun s' hs' => ?_⟩
        cases hs'
        exact hwrites
      | raise f t =>
        refine ⟨m, rfl, fun s' hs' => ?_⟩
        cases hs'
        exact hsame
      | stuck e => exact ⟨m, rfl, nofun⟩

end Sys2Proof.Machine
end

section
/-! PROOFS. The command words and the operations of LOAD (30_encoding.md rules R90 to R92, R107). -/

namespace Sys2Proof.Machine

/-! ### Decoder, encoder and well-formedness (R90, R91) -/

theorem encoding_statement (i : Instr) : Laws.Encoding.Statement i := by
  cases i with
  | nop => exact Laws.Encoding.nop
  | ack => exact Laws.Encoding.ack
  | orst => exact Laws.Encoding.orst
  | hist => exact Laws.Encoding.hist
  | build => exact Laws.Encoding.build
  | gen => exact Laws.Encoding.gen
  | ser => exact Laws.Encoding.ser
  | des => exact Laws.Encoding.des
  | pack => exact Laws.Encoding.pack
  | unpack => exact Laws.Encoding.unpack
  | wrsize => exact Laws.Encoding.wrsize
  | rdsize => exact Laws.Encoding.rdsize
  | compress => exact Laws.Encoding.compress
  | decompress => exact Laws.Encoding.decompress

theorem wf_encode (i : Instr) : CommandWord.wf (encode i) = true := (encoding_statement i).1

theorem decode_encode (i : Instr) : decode (encode i) = .ok i := (encoding_statement i).2.1

theorem decode_eq_ok_iff (w : Word) (i : Instr) : decode w = .ok i ↔ w = encode i :=
  ⟨eq_encode_of_decode, fun h => h ▸ decode_encode i⟩

theorem listedOpcodes_eq_map_opcodeOf : listedOpcodes = Instr.all.map opcodeOf := rfl

/-- A word whose bits 31:8 are 0 is its low byte with zeros above. -/
theorem zeros_append_setWidth {w : Word} (h : CommandWord.upperBitsZero w = true) : 0#24 ++ w.setWidth 8 = w := by
  have hupper : w.toNat / 2 ^ 8 = 0 := by simpa [CommandWord.upperBitsZero] using h
  apply BitVec.eq_of_toNat_eq
  rw [toNat_append_eq_add, BitVec.toNat_setWidth, BitVec.toNat_ofNat]
  omega

theorem exists_eq_encode_of_wf {w : Word} (h : CommandWord.wf w = true) : ∃ i, w = encode i := by
  obtain ⟨hupper, hlisted⟩ := Bool.and_eq_true_iff.mp h
  have hmem : w.setWidth 8 ∈ Instr.all.map opcodeOf := by
    rw [← listedOpcodes_eq_map_opcodeOf]
    exact List.contains_iff_mem.mp hlisted
  obtain ⟨i, -, hi⟩ := List.mem_map.mp hmem
  exact ⟨i, by rw [encode, hi, zeros_append_setWidth hupper]⟩

/-- Settles O2: the decoder accepts the encoder's words and no others, and so does the check of the two fields. -/
theorem decodeInvertsEncodeOnEveryWord : Obligations.DecodeInvertsEncodeOnEveryWord :=
  ⟨decode_eq_ok_iff, fun _ => ⟨exists_eq_encode_of_wf, fun ⟨i, hi⟩ => hi ▸ wf_encode i⟩⟩

/-- Settles O1: each word of the map is what `encode` gives for the command it names. -/
theorem opcodeMapWordsDecode : Obligations.OpcodeMapWordsDecode :=
  ⟨decode_encode .nop, decode_encode .ack, decode_encode .orst, decode_encode .hist, decode_encode .build,
    decode_encode .gen, decode_encode .ser, decode_encode .des, decode_encode .pack, decode_encode .unpack,
    decode_encode .wrsize, decode_encode .rdsize, decode_encode .compress, decode_encode .decompress⟩

/-- Settles O3: a word that is no encoding is no command, so it is rejected, which an engine that is ready answers with
the fault. -/
theorem illegalWordRaisesIllegalCmd : Obligations.IllegalWordRaisesIllegalCmd := by
  intro s w rest hready hport hillegal
  rw [step_command s w rest hport]
  rcases submit_cases w (taken rest s) with ⟨i, hdec, -⟩ | ⟨-, hsub⟩
  · exact absurd (eq_encode_of_decode hdec) (hillegal i)
  · rw [hsub, rejectWord_ready (taken rest s) hready]

/-! ### Runs of several steps -/

theorem run_succ {s t : State} (k : Nat) (h : step s = .next t) :
    Host.Core.run core (k + 1) s = Host.Core.run core k t := by
  have hstep : core.step s = .next t := h
  simp only [Host.Core.run, hstep]

/-- A run that gets through its first `j` steps goes on from where they led. -/
theorem run_add {s t : State} (j k : Nat) (h : Host.Core.run core j s = .next t) :
    Host.Core.run core (j + k) s = Host.Core.run core k t := by
  induction j generalizing s with
  | zero =>
    cases h
    rw [Nat.zero_add]
  | succ j ih =>
    rw [Nat.succ_add]
    cases hstep : core.step s with
    | next u =>
      rw [run_succ j hstep] at h
      rw [run_succ (j + k) hstep]
      exact ih h
    | fault r => simp [Host.Core.run, hstep] at h
    | refused r => simp [Host.Core.run, hstep] at h

/-! ### LOAD (R64, R107) -/

/-- A write of one byte in the `IBUF` window of an idle engine. -/
theorem step_scriptWB (s : State) (i : Nat) (b : Byte) (rest : List PortOp) (hb : s.busy = false)
    (hp : s.params.wf = true) (hi : i < s.params.ibufCap) (hport : s.port = scriptWB i b :: rest) :
    step s = .next { taken rest s with ibuf := s.ibuf.write i b } := by
  rw [step_access s _ rest hport rfl, scriptWB, portAccess, locate8_ibufAddr s.params i hp hi, State.write8At,
    if_neg (by simp [hb])]

@[simp] theorem length_scriptWBs (i : Nat) (bs : List Byte) : (scriptWBs i bs).length = bs.length := by
  induction bs generalizing i with
  | nil => rfl
  | cons b bs ih => rw [scriptWBs, List.length_cons, ih, List.length_cons]

theorem length_scriptLOAD (bs : List Byte) : (scriptLOAD bs).length = bs.length + 2 := by
  simp [scriptLOAD]

/-- From `s` to `s'` the bytes `bs` have been written to `IBUF` at consecutive indices from `i` on, and every other byte
reads as before. -/
def inputWritten (i : Nat) (bs : List Byte) (s s' : State) : Prop :=
  (∀ k (h : k < bs.length), s'.ibufByte (i + k) = bs[k]) ∧
  ∀ a, a < i ∨ i + bs.length ≤ a → s'.ibufByte a = s.ibufByte a

theorem inputWritten_nil {s s' : State} (i : Nat) (h : s'.ibufByte = s.ibufByte) : inputWritten i [] s s' :=
  ⟨nofun, fun a _ => congrFun h a⟩

/-- One byte, then the others after it. -/
theorem inputWritten_cons {s t s' : State} {i : Nat} {b : Byte} {bs : List Byte}
    (hfirst : ∀ a, t.ibufByte a = if i = a then b else s.ibufByte a) (hrest : inputWritten (i + 1) bs t s') :
    inputWritten i (b :: bs) s s' := by
  obtain ⟨hbytes, hother⟩ := hrest
  refine ⟨fun k hk => ?_, fun a ha => ?_⟩
  · cases k with
    | zero => simp [hother i (.inl (Nat.lt_succ_self i)), hfirst i]
    | succ k => simpa [Nat.add_assoc, Nat.add_comm 1 k] using hbytes k (Nat.lt_of_succ_lt_succ hk)
  · rw [List.length_cons] at ha
    rw [hother a (by omega), hfirst a, if_neg (by omega)]

/-- Consecutive writes that fit change `IBUF` only, and there only the bytes they name. -/
theorem run_scriptWBs (bs : List Byte) (i : Nat) (s : State) (rest : List PortOp) (hb : s.busy = false)
    (hp : s.params.wf = true) (hfit : i + bs.length ≤ s.params.ibufCap) (hport : s.port = scriptWBs i bs ++ rest) :
    ∃ r m, Host.Core.run core bs.length s = .next { s with port := rest, reply := r, ibuf := m } ∧
      inputWritten i bs s { s with port := rest, reply := r, ibuf := m } := by
  induction bs generalizing i s with
  | nil =>
    subst hport
    exact ⟨s.reply, s.ibuf, rfl, inputWritten_nil i rfl⟩
  | cons b bs ih =>
    rw [List.length_cons] at hfit
    have hstep := step_scriptWB s i b _ hb hp (by omega) hport
    obtain ⟨r, m, hrun, hwritten⟩ := ih (i + 1)
      { taken (scriptWBs (i + 1) bs ++ rest) s with ibuf := s.ibuf.write i b } hb hp
      (show i + 1 + bs.length ≤ s.params.ibufCap by omega) rfl
    exact ⟨r, m, (run_succ _ hstep).trans hrun, inputWritten_cons (fun a => s.ibufByte_write i a b) hwritten⟩

/-- The last two operations of LOAD: the input registers describe `n` bytes from index 0. -/
theorem run_writeIlen_writeIpos (s : State) (n : Word) (rest : List PortOp) (hb : s.busy = false)
    (hport : s.port = scriptWR .ilen n :: scriptWR .ipos 0 :: rest) :
    Host.Core.run core 2 s = .next { s with port := rest, reply := .none, ilen := n, ipos := 0 } := by
  have hilen := step_writeReg s .ilen n _ hb (by decide) hport
  have hipos := step_writeReg ((taken _ s).writeReg n .ilen) .ipos 0 rest hb (by decide) rfl
  rw [run_succ 1 hilen, run_succ 0 hipos]
  rfl

/-- Bytes written from index 0 are the whole payload once the input registers describe them. -/
theorem payload_of_inputWritten {bs : List Byte} {s s' : State} (h : inputWritten 0 bs s s') (hipos : s'.ipos = 0)
    (hilen : s'.ilen.toNat = bs.length) : s'.payload = bs := by
  refine List.ext_getElem (by simp [hipos, hilen]) (fun k _ hk => ?_)
  rw [State.payload_getElem, hipos]
  exact h.1 k hk

/-- Settles O54: the byte writes fill `IBUF` from index 0, and the two register writes describe them. -/
theorem loadFillsTheInput : Obligations.LoadFillsTheInput := by
  intro s bs rest hb hp hfit hport
  have hlen : bs.length < 2 ^ 32 := by
    have hcap := (Params.caps_le hp).1
    omega
  rw [scriptLOAD, List.append_assoc] at hport
  obtain ⟨r, m, hrun, hwritten⟩ := run_scriptWBs bs 0 s _ hb hp (by omega) hport
  have hload := (run_add _ 2 hrun).trans (run_writeIlen_writeIpos _ _ rest hb rfl)
  rw [length_scriptLOAD]
  exact ⟨_, hload, rfl, payload_of_inputWritten hwritten rfl (toNat_addr hlen),
    fun a ha => hwritten.2 a (.inr (by omega))⟩

end Sys2Proof.Machine
end

section
/-! PROOFS. What HIST counts: each slot is the number of occurrences of its byte, and the slots sum to the length of the
payload (40_histogram.md rules R120 to R122). -/

namespace Sys2Proof.Machine

/-! ### Commands that complete or fault from a ready state -/

section
variable {i : Instr} (hi : i ≠ .ack) {s : State} (hr : s.ready)
include hi hr

theorem exec_completes {t : State} (h : bodyOf i s.flagsAccepted = .ok () t) : exec i s = .next t.flagsCompleted :=
  (exec_eq_runCommand i hi s).trans (runCommand_completes (bodyOf i) s t hr h)

/-- A body that faults before it has changed anything leaves the fault flags only (R252 to R254). -/
theorem exec_faults_unchanged {f : FaultCode} (h : bodyOf i s.flagsAccepted = .raise f s.flagsAccepted) :
    exec i s = .next (s.faulted f) := by
  rw [exec_eq_runCommand i hi, runCommand_faults (bodyOf i) s _ f hr h, State.faulted, hr.1]
  rfl

end

theorem bodyHist_outOfRange (s : State) (h : ¬ (s.ilen.toNat ≤ s.params.ibufCap ∧ s.ipos.toNat ≤ s.ilen.toNat)) :
    bodyHist s = .raise .iRange s := by
  rw [bodyHist, checkIn_raise s h]
  rfl

/-- HIST in range sets `DONE` and replaces the histogram by the payload's, nothing else. -/
theorem exec_hist_inRange {s : State} (hr : s.ready)
    (h : s.ilen.toNat ≤ s.params.ibufCap ∧ s.ipos.toNat ≤ s.ilen.toNat) :
    exec .hist s = .next { s with done := true, hist := histogramOf s.payload } := by
  rw [exec_completes (i := .hist) (by decide) hr (bodyHist_inRange s.flagsAccepted (s.inputInRange_iff.mpr h)), hr.1]
  rfl

/-! ### The counts (R120) -/

/-- Each slot counts the occurrences of its byte, as a 32-bit word. -/
theorem get_histogramOf (xs : List Byte) (b : Byte) : (histogramOf xs).get b = BitVec.ofNat 32 (xs.count b) := by
  induction xs using List.reverseRecOn with
  | nil => exact Table.get_fill 8 0 b
  | append_singleton xs x ih =>
    rw [histogramOf_append, get_histBump, ih, List.count_append, List.count_singleton]
    by_cases hx : x = b
    · simp [hx, BitVec.ofNat_add]
    · simp [hx]

theorem histogramOf_eq_tabulate (xs : List Byte) :
    histogramOf xs = Table.tabulate 8 (fun b => BitVec.ofNat 32 (xs.count b)) :=
  Table.ext_get _ _ (fun b => by rw [get_histogramOf, Table.get_tabulate])

/-- Settles O9: HIST's table is the histogram of the payload, whose slots are the counts. -/
theorem histCountsThePayload : Obligations.HistCountsThePayload := by
  intro s hr
  refine ⟨fun hin => ?_, fun hout => ?_⟩
  · rw [exec_hist_inRange hr hin, histogramOf_eq_tabulate]
  · exact exec_faults_unchanged (by decide) hr (bodyHist_outOfRange s.flagsAccepted hout)

/-! ### The sum of the counts (R122) -/

/-- Every byte of a list is one of the 256 values, so the numbers of occurrences add up to the length. -/
theorem sum_count_bytes (xs : List Byte) : ∑ c ∈ Finset.range NSYM, xs.count (BitVec.ofNat 8 c) = xs.length := by
  have hcount : ∀ c ∈ Finset.range NSYM, xs.count (BitVec.ofNat 8 c) = (xs.map BitVec.toNat).count c := by
    intro c hc
    have hval : (BitVec.ofNat 8 c).toNat = c := Nat.mod_eq_of_lt (Finset.mem_range.mp hc)
    rw [← List.count_map_of_injective xs BitVec.toNat BitVec.toNat_injective, hval]
  have hbyte : ∀ c ∈ xs.map BitVec.toNat, c ∈ Finset.range NSYM := by
    intro c hc
    obtain ⟨b, -, rfl⟩ := List.mem_map.mp hc
    exact Finset.mem_range.mpr b.isLt
  calc ∑ c ∈ Finset.range NSYM, xs.count (BitVec.ofNat 8 c)
      = ∑ c ∈ Finset.range NSYM, (xs.map BitVec.toNat : Multiset Nat).count c :=
        Finset.sum_congr rfl (fun c hc => (hcount c hc).trans (Multiset.coe_count c _).symm)
    _ = (xs.map BitVec.toNat).length := Multiset.sum_count_eq_card hbyte
    _ = xs.length := List.length_map _

/-- Below 2^32 bytes no slot wraps, so the slots sum to the length. -/
theorem histSum_histogramOf (xs : List Byte) (h : xs.length < 2 ^ 32) : histSum (histogramOf xs) = xs.length := by
  have hslot (b : Byte) : ((histogramOf xs).get b).toNat = xs.count b := by
    rw [get_histogramOf, BitVec.toNat_ofNat, Nat.mod_eq_of_lt (List.count_le_length.trans_lt h)]
  simp only [histSum_eq_sum, hslot, sum_count_bytes]

theorem State.payload_length_lt (s : State) : s.payload.length < 2 ^ 32 := by
  rw [State.payload_length]
  have := s.ilen.isLt
  omega

/-- Settles O10: the slots sum to the payload's length, which a 32-bit `ILEN` bounds. -/
theorem histSumsToThePayloadLength : Obligations.HistSumsToThePayloadLength := by
  intro s hr hcap hpos
  have hlt := s.payload_length_lt
  have hsum := histSum_histogramOf s.payload hlt
  exact ⟨_, exec_hist_inRange hr ⟨hcap, hpos⟩, hsum.trans s.payload_length, hsum.trans_le (Nat.le_sub_one_of_lt hlt)⟩

end Sys2Proof.Machine
end

section
/-! PROOFS. The ordering function: it is the stable descending sort, and after the first ordering one insertion per
iteration does what a full ordering does (41_tree_builder.md rules R133 and R139). -/

namespace Sys2Proof.Machine

/-! ### Stability (R133) -/

/-- Insertion passes only entries of greater frequency, so that among those of equal frequency the new one is first. -/
theorem filter_freq_insertByFreq (f : Word) (x : WsEntry) (l : List WsEntry) :
    (insertByFreq x l).filter (fun y => decide (y.freq = f)) = (x :: l).filter (fun y => decide (y.freq = f)) := by
  induction l with
  | nil => rfl
  | cons y l ih =>
    rw [insertByFreq_cons]
    split
    case isTrue => rfl
    case isFalse hgreater =>
      rw [List.filter_cons, ih]
      by_cases hx : x.freq = f
      · have hy : y.freq ≠ f := fun hy => hgreater (by rw [hx, hy])
        simp [hx, hy]
      · simp [List.filter_cons, hx]

/-- Settles O14: the order conforms, and each insertion of the sort is stable. -/
theorem orderIsTheStableDescendingSort : Obligations.OrderIsTheStableDescendingSort := by
  refine ⟨stableOrder_conforming, fun ws f => ?_⟩
  induction ws with
  | nil => rfl
  | cons x ws ih => rw [stableOrder_cons, filter_freq_insertByFreq, List.filter_cons, List.filter_cons, ih]

/-! ### One insertion in place of a full ordering (R139) -/

/-- What is already descending stays as it is. -/
theorem stableOrder_eq_self {l : List WsEntry} (h : l.Pairwise (fun x y => y.freq.toNat ≤ x.freq.toNat)) :
    stableOrder l = l := by
  induction l with
  | nil => rfl
  | cons x l ih =>
    obtain ⟨hx, hl⟩ := List.pairwise_cons.mp h
    rw [stableOrder_cons, ih hl]
    cases l with
    | nil => rfl
    | cons y l => rw [insertByFreq_cons, if_pos (hx y (by simp))]

/-- An entry that stood before all others and one that stood behind them can be inserted in either order. -/
theorem insertByFreq_insertBeforeSmaller (x y : WsEntry) (l : List WsEntry) :
    insertByFreq x (insertBeforeSmaller y l) = insertBeforeSmaller y (insertByFreq x l) := by
  induction l with
  | nil =>
    rcases Nat.lt_or_ge x.freq.toNat y.freq.toNat with h | h
    · simp [insertBeforeSmaller, insertByFreq_cons, insertByFreq, h, Nat.not_le.mpr h]
    · simp [insertBeforeSmaller, insertByFreq_cons, insertByFreq, h, Nat.not_lt.mpr h]
  | cons z l ih =>
    by_cases hzy : z.freq.toNat < y.freq.toNat <;> by_cases hzx : z.freq.toNat ≤ x.freq.toNat
    · by_cases hyx : y.freq.toNat ≤ x.freq.toNat
      · simp [insertBeforeSmaller, insertByFreq_cons, hzy, hzx, hyx, Nat.not_lt.mpr hyx]
      · simp [insertBeforeSmaller, insertByFreq_cons, hzy, hzx, hyx, Nat.not_le.mp hyx]
    · have hyx : ¬ y.freq.toNat ≤ x.freq.toNat := by omega
      simp [insertBeforeSmaller, insertByFreq_cons, hzy, hzx, hyx]
    · have hxy : ¬ x.freq.toNat < y.freq.toNat := by omega
      simp [insertBeforeSmaller, insertByFreq_cons, hzy, hzx, hxy]
    · simp [insertBeforeSmaller, insertByFreq_cons, hzy, hzx, ih]

/-- Ordering with a new last entry is ordering without it and one insertion. -/
theorem stableOrder_append_singleton (l : List WsEntry) (y : WsEntry) :
    stableOrder (l ++ [y]) = insertBeforeSmaller y (stableOrder l) := by
  induction l with
  | nil => rfl
  | cons x l ih => rw [List.cons_append, stableOrder_cons, ih, insertByFreq_insertBeforeSmaller, stableOrder_cons]

/-- The entries that one iteration leaves alone are still in order. -/
theorem stableOrder_front {ws front : List WsEntry} {a b : WsEntry} (h : (stableOrder ws).reverse = b :: a :: front) :
    stableOrder front.reverse = front.reverse := by
  have hsplit : stableOrder ws = front.reverse ++ [a, b] := by simpa using congrArg List.reverse h
  have hsorted := (stableOrder_conforming ws).2
  rw [hsplit] at hsorted
  exact stableOrder_eq_self (List.pairwise_append.mp hsorted).1

/-- Settles O16, by induction on the number of iterations: the two loops combine the same two entries, and the one
insertion gives what the next ordering would. -/
theorem fullResortEqualsOneInsertion : Obligations.FullResortEqualsOneInsertion := by
  intro c k
  induction k with
  | zero => exact fun next ws nd => ⟨rfl, rfl⟩
  | succ k ih =>
    intro next ws nd
    rw [buildLoop, insertionLoop]
    match hr : (stableOrder ws).reverse with
    | b :: a :: front =>
      have hinsert := stableOrder_append_singleton front.reverse { idx := next, freq := a.freq + b.freq }
      rw [stableOrder_front hr, ← List.reverse_cons] at hinsert
      simp only [← hinsert]
      exact ih _ _ _
    | [b] => exact ⟨rfl, rfl⟩
    | [] => exact ⟨rfl, rfl⟩

end Sys2Proof.Machine
end

section
/-! PROOFS. The numbers BUILD writes: during the loop every internal node has the sum of its two children's frequencies,
the second-to-last child's no smaller, and the working set has the sum of the counts (41_tree_builder.md rules R130 to
R138). -/

namespace Sys2Proof.Machine

/-! ### One iteration -/

/-- Combining changes no more than the parent of an earlier entry. -/
theorem get_combine_earlier (c : ChildOrder) (a b : WsEntry) {next j : NodeIdx} (nd : Table Node 9)
    (hj : j.toNat < next.toNat) : ∃ p, (combine c a b next nd).get j = { nd.get j with parent := p } := by
  simp only [combine, get_nodeUpdate, get_nodeSet, (BitVec.ne_of_lt hj).symm, false_and, if_false]
  split_ifs <;> exact ⟨_, rfl⟩

/-- The last two entries of an ordered working set: the last one has no greater frequency (R132, R134). -/
theorem conformingOrder.last_two {order : List WsEntry → List WsEntry} (horder : conformingOrder order)
    {ws : List WsEntry} (h : 2 ≤ ws.length) :
    ∃ a b front, (order ws).reverse = b :: a :: front ∧ (b :: a :: front).Perm ws ∧ b.freq.toNat ≤ a.freq.toNat := by
  obtain ⟨hperm, hsorted⟩ := horder ws
  have hrev := (List.reverse_perm _).trans hperm
  have hlen := hrev.length_eq
  match hr : (order ws).reverse, hlen with
  | b :: a :: front, _ =>
    rw [← List.pairwise_reverse, hr] at hsorted
    exact ⟨a, b, front, rfl, hr ▸ hrev, List.rel_of_pairwise_cons hsorted (by simp)⟩
  | [b], hlen => simp at hlen; omega
  | [], hlen => simp at hlen; omega

/-! ### The invariant of the loop -/

/-- Entry `j` is an internal node over the earlier entries `x`, the second-to-last when they were combined, and `y`, the
last (R134, R135). -/
structure MadeOf (c : ChildOrder) (nd : Table Node 9) (j x y : NodeIdx) : Prop where
  earlier : x.toNat < j.toNat ∧ y.toNat < j.toNat
  sym : (nd.get j).sym = NOT_A_LEAF
  left : (nd.get j).left = (c.children x y).1
  right : (nd.get j).right = (c.children x y).2
  freq : (nd.get j).freq = (nd.get x).freq + (nd.get y).freq
  ordered : (nd.get y).freq.toNat ≤ (nd.get x).freq.toNat

/-- An internal node is not affected by a later combination. -/
theorem MadeOf.combine {c : ChildOrder} {nd : Table Node 9} {j x y : NodeIdx} (h : MadeOf c nd j x y) (a b : WsEntry)
    {next : NodeIdx} (hj : j.toNat < next.toNat) : MadeOf c (combine c a b next nd) j x y := by
  obtain ⟨hxj, hyj⟩ := h.earlier
  obtain ⟨_, hx⟩ := get_combine_earlier c a b nd (hxj.trans hj)
  obtain ⟨_, hy⟩ := get_combine_earlier c a b nd (hyj.trans hj)
  obtain ⟨_, hj⟩ := get_combine_earlier c a b nd hj
  exact {
    earlier := h.earlier
    sym := by rw [hj]; exact h.sym
    left := by rw [hj]; exact h.left
    right := by rw [hj]; exact h.right
    freq := by rw [hj, hx, hy]; exact h.freq
    ordered := by rw [hx, hy]; exact h.ordered }

/-- The node one iteration adds is of the two entries it combines. -/
theorem madeOf_combine_next (c : ChildOrder) {nd : Table Node 9} {a b : WsEntry} {next : NodeIdx} (hnext : next ≠ NULL)
    (ha : a.idx.toNat < next.toNat ∧ (nd.get a.idx).freq = a.freq)
    (hb : b.idx.toNat < next.toNat ∧ (nd.get b.idx).freq = b.freq) (hab : b.freq.toNat ≤ a.freq.toNat) :
    MadeOf c (combine c a b next nd) next a.idx b.idx := by
  obtain ⟨halt, hafreq⟩ := ha
  obtain ⟨hblt, hbfreq⟩ := hb
  have hnew := get_combine_next c a b next nd hnext (BitVec.ne_of_lt halt) (BitVec.ne_of_lt hblt)
  obtain ⟨_, ha⟩ := get_combine_earlier c a b nd halt
  obtain ⟨_, hb⟩ := get_combine_earlier c a b nd hblt
  exact {
    earlier := ⟨halt, hblt⟩
    sym := by rw [hnew]; rfl
    left := by rw [hnew]; rfl
    right := by rw [hnew]; rfl
    freq := by rw [hnew, ha, hb, hafreq, hbfreq]; rfl
    ordered := by rwa [ha, hb, hafreq, hbfreq] }

/-- What the arena and the working set have while the entries below `n` are in use. -/
structure Counted (hist : Table Word 8) (c : ChildOrder) (n : Nat) (ws : List WsEntry) (nd : Table Node 9) : Prop where
  start : 256 ≤ n
  /-- The leaf of a symbol is the symbol's entry, with its count (R131). -/
  leaf (b : Byte) : (nd.get (b.setWidth 9)).sym = b.setWidth 9 ∧ (nd.get (b.setWidth 9)).freq = hist.get b
  /-- All other entries are internal nodes (R134). -/
  internal (j : NodeIdx) : 256 ≤ j.toNat → j.toNat < n → ∃ x y, MadeOf c nd j x y
  /-- The working set has the frequencies of the arena (R43). -/
  entry : ∀ x ∈ ws, x.idx.toNat < n ∧ (nd.get x.idx).freq = x.freq
  /-- The working set has the node made last (R136). -/
  newest : n = 256 ∨ ∃ x ∈ ws, x.idx.toNat + 1 = n
  /-- The sum of the counts stays in the working set, unless it can wrap (R138). -/
  total : histSum hist < 2 ^ 32 → (ws.map (fun x => x.freq.toNat)).sum = histSum hist

/-- The order of the working set does not matter. -/
theorem Counted.perm {hist : Table Word 8} {c : ChildOrder} {n : Nat} {ws ws' : List WsEntry} {nd : Table Node 9}
    (h : Counted hist c n ws nd) (hp : ws'.Perm ws) : Counted hist c n ws' nd :=
  { h with
    entry := fun x hx => h.entry x (hp.mem_iff.mp hx)
    newest := h.newest.imp_right (fun ⟨x, hx, hn⟩ => ⟨x, hp.mem_iff.mpr hx, hn⟩)
    total := fun hlt => ((hp.map _).sum_eq).trans (h.total hlt) }

/-- One iteration adds the node of two entries and puts it in their place (R134). -/
theorem Counted.combine {hist : Table Word 8} {c : ChildOrder} {next : NodeIdx} {a b : WsEntry} {front : List WsEntry}
    {nd : Table Node 9} (h : Counted hist c next.toNat (b :: a :: front) nd) (hnext : next ≠ NULL)
    (hab : b.freq.toNat ≤ a.freq.toNat) :
    Counted hist c (next.toNat + 1) ({ idx := next, freq := a.freq + b.freq } :: front) (combine c a b next nd) := by
  have hmade := madeOf_combine_next c hnext (h.entry a (by simp)) (h.entry b (by simp)) hab
  refine {
    start := Nat.le_succ_of_le h.start
    leaf := fun s => ?leaf
    internal := fun j hj hjn => ?internal
    entry := fun x hx => ?entry
    newest := .inr ⟨_, List.mem_cons_self, rfl⟩
    total := fun hlt => ?total }
  case leaf =>
    have hs : (s.setWidth 9).toNat < next.toNat := lt_of_lt_of_le (by simp; omega) h.start
    obtain ⟨_, hget⟩ := get_combine_earlier c a b nd hs
    rw [hget]
    exact h.leaf s
  case internal =>
    rcases Nat.lt_succ_iff_lt_or_eq.mp hjn with hlt | heq
    · obtain ⟨x, y, hold⟩ := h.internal j hj hlt
      exact ⟨x, y, hold.combine a b hlt⟩
    · exact ⟨a.idx, b.idx, BitVec.eq_of_toNat_eq heq ▸ hmade⟩
  case entry =>
    rcases List.mem_cons.mp hx with rfl | hx
    · obtain ⟨ha, hb⟩ := hmade.earlier
      rw [get_combine_next c a b next nd hnext (BitVec.ne_of_lt ha) (BitVec.ne_of_lt hb)]
      exact ⟨Nat.lt_succ_self _, rfl⟩
    · obtain ⟨hxlt, hxfreq⟩ := h.entry x (by simp [hx])
      obtain ⟨_, hget⟩ := get_combine_earlier c a b nd hxlt
      rw [hget]
      exact ⟨Nat.lt_succ_of_lt hxlt, hxfreq⟩
  case total =>
    have hsum := h.total hlt
    simp only [List.map_cons, List.sum_cons, BitVec.toNat_add] at hsum ⊢
    rw [Nat.mod_eq_of_lt (by omega)]
    omega

/-- Before the first iteration there are the leaves only (R131). -/
theorem initial_counted (hist : Table Word 8) (c : ChildOrder) :
    Counted hist c 256 (initialWs hist) (initialArena hist) := by
  refine {
    start := Nat.le_refl _
    leaf := fun b => ?leaf
    internal := fun j hj hjn => absurd hjn (Nat.not_lt.mpr hj)
    entry := fun x hx => ?entry
    newest := .inl rfl
    total := fun _ => by simp [initialWs, histSum, Function.comp_def] }
  case leaf =>
    have hget := get_initialArena hist b.toNat b.isLt
    rw [BitVec.ofNat_toNat, BitVec.ofNat_toNat, BitVec.setWidth_eq] at hget
    rw [hget]
    exact ⟨rfl, rfl⟩
  case entry =>
    obtain ⟨s, hs, rfl⟩ := List.mem_map.mp hx
    have hs : s < 256 := List.mem_range.mp hs
    rw [get_initialArena hist s hs]
    exact ⟨by simp; omega, rfl⟩

/-- The loop of BUILD, run until one entry is left, keeps the invariant (R130, R136). -/
theorem buildLoop_counted {order : List WsEntry → List WsEntry} (horder : conformingOrder order) {hist : Table Word 8}
    {c : ChildOrder} (k : Nat) (next : NodeIdx) (ws : List WsEntry) (nd : Table Node 9)
    (h : Counted hist c next.toNat ws nd) (hlen : ws.length = k + 1) (hn : next.toNat + k = NNODE) :
    ∃ x, (buildLoop order c k next ws nd).1 = [x] ∧ Counted hist c NNODE [x] (buildLoop order c k next ws nd).2 := by
  induction k generalizing next ws nd with
  | zero =>
    obtain ⟨x, rfl⟩ := List.length_eq_one_iff.mp hlen
    exact ⟨x, rfl, hn ▸ h⟩
  | succ k ih =>
    obtain ⟨a, b, front, hr, hperm, hab⟩ := horder.last_two (ws := ws) (by omega)
    have hnext : next ≠ NULL := fun he => by
      rw [he] at hn
      simp at hn
    have hone : (next + 1).toNat = next.toNat + 1 := by
      rw [BitVec.toNat_add, show (1 : NodeIdx).toNat = 1 from rfl]
      have : NNODE = 511 := rfl
      omega
    have hstep := ((h.perm hperm).combine hnext hab).perm (List.reverse_perm _)
    have hlen' := hperm.length_eq
    rw [buildLoop, hr]
    exact ih (next + 1) _ _ (hone ▸ hstep) (by simp at hlen' ⊢; omega) (by omega)

/-! ### The tree BUILD leaves -/

section
variable {order : List WsEntry → List WsEntry} (horder : conformingOrder order) (c : ChildOrder) (hist : Table Word 8)
include horder

/-- The one entry left is the last node made (R136). -/
theorem buildWith_counted :
    ∃ x, (buildWith order c hist).1 = [x] ∧ x.idx = 510 ∧ Counted hist c NNODE [x] (buildWith order c hist).2 := by
  obtain ⟨x, hws, hcounted⟩ :=
    buildLoop_counted horder 255 256 _ _ (initial_counted hist c) (by simp [initialWs]) rfl
  refine ⟨x, hws, ?_, hcounted⟩
  obtain hn | ⟨y, hy, hn⟩ := hcounted.newest
  · cases hn
  · obtain rfl := List.mem_singleton.mp hy
    exact BitVec.eq_of_toNat_eq (Nat.succ.inj hn)

theorem rootOf_buildWith : rootOf (buildWith order c hist).1 = 510 := by
  obtain ⟨x, hws, hidx, -⟩ := buildWith_counted horder c hist
  rw [hws, rootOf, hidx]

end

section
variable {hist : Table Word 8} {c : ChildOrder} {ws : List WsEntry} {nd : Table Node 9}
  (h : Counted hist c NNODE ws nd) {t : ITree} {p : NodeIdx}
include h

/-- Every entry is a symbol's leaf or an internal node. -/
theorem Counted.leaf_or_internal {i : NodeIdx} (hi : i ≠ NULL) :
    (∃ b : Byte, i = b.setWidth 9) ∨ ∃ x y, MadeOf c nd i x y := by
  by_cases hlow : i.toNat < 256
  · exact .inl ⟨i.setWidth 8, BitVec.eq_of_toNat_eq (by simp; omega)⟩
  · have hlt : i.toNat < 511 := by
      have hne : i.toNat ≠ 511 := fun he => hi (BitVec.eq_of_toNat_eq he)
      omega
    exact .inr (h.internal i (Nat.not_lt.mp hlow) hlt)

/-- The leaf of a symbol is the symbol's entry (R131). -/
theorem Counted.idx_of_sym {i : NodeIdx} {s : Byte} (hi : i ≠ NULL) (hs : (nd.get i).sym = s.setWidth 9) :
    i = s.setWidth 9 := by
  obtain ⟨b, rfl⟩ | ⟨x, y, hmade⟩ := h.leaf_or_internal hi
  · rw [← hs, (h.leaf b).1]
  · exact absurd (hs.symm.trans hmade.sym) (sym_ne_notALeaf s)

theorem Counted.madeOf_of_notALeaf {i : NodeIdx} (hi : i ≠ NULL) (hs : (nd.get i).sym = NOT_A_LEAF) :
    ∃ x y, MadeOf c nd i x y := by
  obtain ⟨b, rfl⟩ | hmade := h.leaf_or_internal hi
  · exact absurd ((h.leaf b).1.symm.trans hs) (sym_ne_notALeaf b)
  · exact hmade

theorem Counted.freqsFrom (ht : t.heldBy nd p) : t.freqsFrom nd hist := by
  induction t generalizing p with
  | leaf i s =>
    obtain ⟨hi, hs, -⟩ := ht
    obtain rfl := h.idx_of_sym hi hs
    exact (h.leaf s).2
  | branch i l r ihl ihr =>
    obtain ⟨hi, hs, hleft, hright, -, hl, hr⟩ := ht
    obtain ⟨x, y, hmade⟩ := h.madeOf_of_notALeaf hi hs
    refine ⟨?_, ihl hl, ihr hr⟩
    rw [← hleft, ← hright, hmade.left, hmade.right, hmade.freq]
    cases c with
    | leftIsSecondToLast => rfl
    | leftIsLast => exact BitVec.add_comm _ _

theorem Counted.leftHeavy (hc : c = .leftIsSecondToLast) (ht : t.heldBy nd p) : t.leftHeavy nd := by
  induction t generalizing p with
  | leaf i s => trivial
  | branch i l r ihl ihr =>
    obtain ⟨hi, hs, hleft, hright, -, hl, hr⟩ := ht
    obtain ⟨x, y, hmade⟩ := h.madeOf_of_notALeaf hi hs
    refine ⟨?_, ihl hl, ihr hr⟩
    rw [← hleft, ← hright, hmade.left, hmade.right, hc]
    exact hmade.ordered

end

/-! ### The statements -/

/-- Settles O11: the body completes, and the root it takes from the working set is 510. -/
theorem buildCompletesWithRoot510 : Obligations.BuildCompletesWithRoot510 := by
  intro s hr
  rw [exec_completes (i := .build) (by decide) hr (bodyBuild_eq s.flagsAccepted), State.flagsAccepted_hist,
    rootOf_buildWith stableOrder_conforming, hr.1]
  generalize buildWith stableOrder .leftIsSecondToLast s.hist = r
  rfl

/-- Settles O12: the forest of the working set ends as one tree, whose 511 nodes are 256 leaves and 255 internal ones. -/
theorem buildMakesAFullTreeForEveryOrder : Obligations.BuildMakesAFullTreeForEveryOrder := by
  intro order c hist horder
  obtain ⟨t, hidx, hheld, hocc, hcovers⟩ := buildWith_tree (fun ws => (horder ws).1) c hist
  have hnodes : t.size = 511 := ITree.size_of_occupies hocc
  have hleaves := t.size_eq
  exact ⟨t, hidx, hheld, hocc, by omega, hcovers⟩

/-- Settles O13, by the loop's invariant; the one entry left has the sum of the counts. -/
theorem buildFrequenciesAreSums : Obligations.BuildFrequenciesAreSums := by
  intro order c hist horder hlt t _ hheld
  obtain ⟨x, -, hidx, hcounted⟩ := buildWith_counted horder c hist
  refine ⟨hcounted.freqsFrom hheld, ?_, hcounted.leaf⟩
  have hfreq := (hcounted.entry x (by simp)).2
  rw [← hidx, hfreq]
  simpa using hcounted.total hlt

/-- Settles O15: the left child is the second-to-last entry of an ordered working set. -/
theorem buildPutsTheHeavierChildLeft : Obligations.BuildPutsTheHeavierChildLeft := by
  intro hist t _ hheld
  obtain ⟨_, -, -, hcounted⟩ := buildWith_counted stableOrder_conforming .leftIsSecondToLast hist
  exact hcounted.leftHeavy rfl hheld

end Sys2Proof.Machine
end

section
/-! PROOFS. What GEN makes: the traversal walks the held tree in preorder, two passes per edge, records the path of every
leaf and leaves every node marked; past its two checks GEN ends with that code table and those marks
(42_code_generator.md rules R150 to R156). -/

namespace Sys2Proof.Machine

/-! ### Several passes of the loop -/

/-- From `t` the loop makes `n` passes that go on, to `t'`. -/
def GoesOn (n : Nat) (t t' : Traversal) : Prop := ∀ k, genLoop (n + k) t = genLoop k t'

theorem GoesOn.of_genStep {t t' : Traversal} (h : genStep t = .goOn t') : GoesOn 1 t t' := fun k => by
  rw [Nat.add_comm, genLoop, h]

theorem GoesOn.trans {m n : Nat} {t u v : Traversal} (h : GoesOn m t u) (h' : GoesOn n u v) : GoesOn (m + n) t v :=
  fun k => by rw [Nat.add_assoc, h, h']

theorem genLoop_of_finish {t t' : Traversal} (h : genStep t = .finish t') (k : Nat) : genLoop (k + 1) t = .ok t' := by
  rw [genLoop, h]

/-! ### Marks and codes of a subtree -/

/-- The arena with the entries of a list of indices marked visited. -/
def markAll (is : List NodeIdx) (nd : Table Node 9) : Table Node 9 :=
  nd.mapEntries (fun i n => if i ∈ is then { n with visited := true } else n)

theorem get_markAll (is : List NodeIdx) (nd : Table Node 9) (i : NodeIdx) :
    (markAll is nd).get i = if i ∈ is then { nd.get i with visited := true } else nd.get i :=
  Table.get_mapEntries nd _ i

theorem markAll_marksOnly (is : List NodeIdx) (nd : Table Node 9) : MarksOnly nd (markAll is nd) := by
  intro i
  rw [get_markAll]
  split
  · exact ⟨true, rfl⟩
  · exact ⟨(nd.get i).visited, rfl⟩

theorem markAll_markAll (is js : List NodeIdx) (nd : Table Node 9) :
    markAll js (markAll is nd) = markAll (is ++ js) nd := by
  refine Table.ext_get _ _ (fun i => ?_)
  by_cases hi : i ∈ is <;> by_cases hj : i ∈ js <;> simp [get_markAll, hi, hj]

theorem markVisited_eq_markAll (nd : Table Node 9) {i : NodeIdx} (hi : i ≠ NULL) :
    markVisited nd i = markAll [i] nd := by
  refine Table.ext_get _ _ (fun j => ?_)
  simp [get_markVisited, get_markAll, hi, eq_comm]

theorem markVisited_markAll (is : List NodeIdx) (nd : Table Node 9) {i : NodeIdx} (hi : i ≠ NULL) :
    markVisited (markAll is nd) i = markAll (i :: is) nd := by
  rw [markVisited_eq_markAll _ hi, markAll_markAll]
  refine Table.ext_get _ _ (fun j => ?_)
  simp [get_markAll, or_comm]

/-- The code table with the paths of a list of leaves recorded in turn, each below the node at the end of `pre`. -/
def recordPaths (pre : List Bool) (xs : List (Byte × List Bool)) (c : Table Code 8) : Table Code 8 :=
  xs.foldl (fun c x => c.set x.1 (Code.ofPath (pre ++ x.2))) c

theorem codeTableOf_eq_recordPaths (t : ITree) : codeTableOf t = recordPaths [] t.paths (Table.fill 8 Code.none) := rfl

/-- The leaves below a branch are those of the left subtree, then those of the right one. -/
theorem recordPaths_branch (pre : List Bool) (i : NodeIdx) (l r : ITree) (c : Table Code 8) :
    recordPaths pre (ITree.branch i l r).paths c =
      recordPaths (pre ++ [true]) r.paths (recordPaths (pre ++ [false]) l.paths c) := by
  simp [recordPaths, ITree.paths, List.foldl_append, List.foldl_map]

/-! ### One pass at a node of the tree -/

/-- At a leaf that is not marked: record the path, mark, climb (R152). -/
theorem genStep_leaf {nd : Table Node 9} {q i : NodeIdx} {s : Byte} (h : (ITree.leaf i s).heldBy nd q)
    (hv : (nd.get i).visited = false) (p : List Bool) (c : Table Code 8) :
    genStep ⟨i, p, nd, c⟩ = .goOn ⟨q, p.tail, markAll [i] nd, recordPaths p.reverse (ITree.leaf i s).paths c⟩ := by
  obtain ⟨hi, hs, -, -, hp⟩ := h
  have hleaf : (nd.get i).isLeaf = true := by simpa [Node.isLeaf, hs] using sym_ne_notALeaf s
  have hsym : (nd.get i).sym.toNat < NSYM := by
    have := s.isLt
    rw [hs, BitVec.toNat_setWidth]
    show s.toNat % 2 ^ 9 < 256
    omega
  rw [genStep, nodeAt_of_ne nd i hi]
  simp only [hleaf, hv, Bool.not_false, Bool.and_true, if_true, recordLeaf, if_pos hsym]
  simp [hp, hs, markVisited_eq_markAll nd hi, recordPaths, ITree.paths]

section
variable {nd : Table Node 9} {q i : NodeIdx} {l r : ITree} (h : (ITree.branch i l r).heldBy nd q) (p : List Bool)
  (c : Table Code 8)
include h

/-- At a branch the marks of its two children choose the case (R152). -/
theorem genStep_branch :
    genStep ⟨i, p, nd, c⟩ =
      if (nd.get l.idx).visited && (nd.get r.idx).visited then closeNode ⟨i, p, nd, c⟩ (nd.get i)
      else if !(nd.get l.idx).visited then .goOn ⟨l.idx, false :: p, nd, c⟩
      else .goOn ⟨r.idx, true :: p, nd, c⟩ := by
  obtain ⟨hi, hs, hl, hr, -, hel, her⟩ := h
  have hleaf : (nd.get i).isLeaf = false := by simp [Node.isLeaf, hs]
  rw [genStep, nodeAt_of_ne nd i hi]
  simp [hleaf, hl, hr, nodeAt_of_ne nd _ (l.idx_ne_null nd i hel), nodeAt_of_ne nd _ (r.idx_ne_null nd i her)]

theorem genStep_left (hl : (nd.get l.idx).visited = false) :
    genStep ⟨i, p, nd, c⟩ = .goOn ⟨l.idx, false :: p, nd, c⟩ := by simp [genStep_branch h, hl]

theorem genStep_right (hl : (nd.get l.idx).visited = true) (hr : (nd.get r.idx).visited = false) :
    genStep ⟨i, p, nd, c⟩ = .goOn ⟨r.idx, true :: p, nd, c⟩ := by simp [genStep_branch h, hl, hr]

theorem genStep_close (hl : (nd.get l.idx).visited = true) (hr : (nd.get r.idx).visited = true) (hq : q ≠ NULL) :
    genStep ⟨i, p, nd, c⟩ = .goOn ⟨q, p.tail, markVisited nd i, c⟩ := by
  have hp : (nd.get i).parent = q := ITree.parent_of_heldBy h
  simp [genStep_branch h, hl, hr, closeNode, hp, hq]

theorem genStep_finish (hl : (nd.get l.idx).visited = true) (hr : (nd.get r.idx).visited = true) (hq : q = NULL) :
    genStep ⟨i, p, nd, c⟩ = .finish ⟨i, p, markVisited nd i, c⟩ := by
  have hp : (nd.get i).parent = q := ITree.parent_of_heldBy h
  simp [genStep_branch h, hl, hr, closeNode, hp, hq]

end

/-! ### The traversal of a subtree -/

/-- The arena holds `t` under `q`, and no node of it is marked yet. -/
structure ITree.Fresh (nd : Table Node 9) (q : NodeIdx) (t : ITree) : Prop where
  held : t.heldBy nd q
  unmarked : ∀ i ∈ t.indices, (nd.get i).visited = false
  distinct : t.indices.Nodup

section
variable {nd : Table Node 9} {q i : NodeIdx} {l r : ITree} (h : (ITree.branch i l r).Fresh nd q)
include h

theorem ITree.Fresh.left : l.Fresh nd i := by
  obtain ⟨⟨-, -, -, -, -, hl, -⟩, hun, hd⟩ := h
  exact ⟨hl, fun j hj => hun j (by simp [ITree.indices, hj]), (List.nodup_append.mp (List.nodup_cons.mp hd).2).1⟩

/-- Marking the left subtree leaves the right one as it was. -/
theorem ITree.Fresh.right : r.Fresh (markAll l.indices nd) i := by
  obtain ⟨⟨-, -, -, -, -, -, hr⟩, hun, hd⟩ := h
  obtain ⟨-, hdr, hdisj⟩ := List.nodup_append.mp (List.nodup_cons.mp hd).2
  refine ⟨(markAll_marksOnly _ nd).heldBy hr, fun j hj => ?_, hdr⟩
  rw [get_markAll, if_neg (fun hjl => hdisj j hjl j hj rfl)]
  exact hun j (by simp [ITree.indices, hj])

end

/-- The traversal enters the unmarked subtree `t` and `2 · size − 1` passes later leaves it upwards, every leaf recorded
and every node marked, one path step shorter. -/
def ITree.Traversed (t : ITree) : Prop :=
  ∀ (nd : Table Node 9) (q : NodeIdx) (p : List Bool) (c : Table Code 8), t.Fresh nd q → q ≠ NULL →
    GoesOn (2 * t.size - 1) ⟨t.idx, p, nd, c⟩ ⟨q, p.tail, markAll t.indices nd, recordPaths p.reverse t.paths c⟩

theorem ITree.size_pos (t : ITree) : 0 < t.size := by
  have := t.size_eq
  have := t.leaves_pos
  omega

/-- With the subtrees of both children marked, both children are. -/
theorem visited_children (l r : ITree) (nd : Table Node 9) :
    ((markAll (l.indices ++ r.indices) nd).get l.idx).visited = true ∧
    ((markAll (l.indices ++ r.indices) nd).get r.idx).visited = true := by
  simp [get_markAll, l.idx_mem_indices, r.idx_mem_indices]

/-- Each child's subtree marked by its own traversal, the traversal is back at the branch (R152). -/
theorem goesOn_children {nd : Table Node 9} {q i : NodeIdx} {l r : ITree} (hl : l.Traversed) (hr : r.Traversed)
    (h : (ITree.branch i l r).Fresh nd q) (p : List Bool) (c : Table Code 8) :
    GoesOn (2 * (l.size + r.size)) ⟨i, p, nd, c⟩
      ⟨i, p, markAll (l.indices ++ r.indices) nd, recordPaths p.reverse (ITree.branch i l r).paths c⟩ := by
  have hi : i ≠ NULL := ITree.idx_ne_null nd q _ h.held
  have hdown := GoesOn.of_genStep (genStep_left h.held p c (h.left.unmarked _ l.idx_mem_indices))
  have hleft := hl nd i (false :: p) c h.left hi
  have hacross := GoesOn.of_genStep (genStep_right ((markAll_marksOnly l.indices nd).heldBy h.held) p
    (recordPaths (false :: p).reverse l.paths c) (by simp [get_markAll, l.idx_mem_indices])
    (h.right.unmarked _ r.idx_mem_indices))
  have hright := hr _ i (true :: p) (recordPaths (false :: p).reverse l.paths c) h.right hi
  have hall := ((hdown.trans hleft).trans hacross).trans hright
  have hcount : 1 + (2 * l.size - 1) + 1 + (2 * r.size - 1) = 2 * (l.size + r.size) := by
    have := l.size_pos
    have := r.size_pos
    omega
  rw [hcount, markAll_markAll] at hall
  rw [recordPaths_branch]
  simpa only [List.reverse_cons, List.tail_cons] using hall

theorem ITree.traversed (t : ITree) : t.Traversed := by
  induction t with
  | leaf i s =>
    intro nd q p c h _
    exact GoesOn.of_genStep (genStep_leaf h.held (h.unmarked i (by simp [ITree.indices])) p c)
  | branch i l r ihl ihr =>
    intro nd q p c h hq
    obtain ⟨hvl, hvr⟩ := visited_children l r nd
    have hclose := GoesOn.of_genStep (genStep_close ((markAll_marksOnly _ nd).heldBy h.held) p
      (recordPaths p.reverse (ITree.branch i l r).paths c) hvl hvr hq)
    have hi : i ≠ NULL := ITree.idx_ne_null nd q _ h.held
    rw [markVisited_markAll _ nd hi] at hclose
    have hcount : 2 * (l.size + r.size) + 1 = 2 * (ITree.branch i l r).size - 1 := by
      simp only [ITree.size]
      omega
    exact hcount ▸ (goesOn_children ihl ihr h p c).trans hclose

/-! ### The traversal of the whole tree -/

theorem ITree.mem_indices_iff {n : Nat} {t : ITree} (h : t.occupies n) (i : NodeIdx) : i ∈ t.indices ↔ i.toNat < n := by
  rw [← List.mem_range, ← h.mem_iff, List.mem_map_of_injective (fun _ _ => BitVec.eq_of_toNat_eq)]

theorem ITree.nodup_of_occupies {n : Nat} {t : ITree} (h : t.occupies n) : t.indices.Nodup :=
  (h.nodup_iff.mpr List.nodup_range).of_map _

section
variable {s : State} {t : ITree} (h : s.holdsTree t)
include h

theorem genStart_fresh : t.Fresh (clearVisited s.ncount.toNat s.node) NULL := by
  obtain ⟨-, -, hheld, hocc⟩ := h
  refine ⟨(clearVisited_marksOnly _ _).heldBy hheld, fun i hi => ?_, ITree.nodup_of_occupies hocc⟩
  rw [get_clearVisited, if_pos ((ITree.mem_indices_iff hocc i).mp hi)]

/-- The traversal is at the root again, all else done, after two passes per edge, and then it finishes (R153). -/
theorem genStart_goesOn (hb : t.isLeaf = false) :
    ∃ u, GoesOn (2 * (s.ncount.toNat - 1)) (genStart s) u ∧
      genStep u = .finish ⟨s.root, [], markAll t.indices (clearVisited s.ncount.toNat s.node), codeTableOf t⟩ := by
  have hfresh := genStart_fresh h
  obtain ⟨-, hidx, -, hocc⟩ := h
  have hsize := ITree.size_of_occupies hocc
  cases t with
  | leaf i b => cases hb
  | branch i l r =>
    have hi : i ≠ NULL := ITree.idx_ne_null _ _ _ hfresh.held
    have hedges : 2 * (l.size + r.size) = 2 * (s.ncount.toNat - 1) := by
      simp only [ITree.size] at hsize
      omega
    have hwalk := goesOn_children l.traversed r.traversed hfresh [] (Table.fill 8 Code.none)
    obtain ⟨hvl, hvr⟩ := visited_children l r (clearVisited s.ncount.toNat s.node)
    have hend := genStep_finish ((markAll_marksOnly _ _).heldBy hfresh.held) [] (codeTableOf (.branch i l r)) hvl hvr rfl
    rw [markVisited_markAll _ _ hi] at hend
    subst hidx
    rw [hedges] at hwalk
    exact ⟨_, hwalk, hend⟩

/-- Marks cleared and set again on the nodes of the tree are the entries in use marked (R42, R151). -/
theorem markAll_clearVisited :
    markAll t.indices (clearVisited s.ncount.toNat s.node) =
      s.node.mapEntries (fun i n => if i.toNat < s.ncount.toNat then { n with visited := true } else n) := by
  obtain ⟨-, -, -, hocc⟩ := h
  refine Table.ext_get _ _ (fun i => ?_)
  rw [get_markAll, get_clearVisited, Table.get_mapEntries]
  by_cases hi : i.toNat < s.ncount.toNat <;> simp [ITree.mem_indices_iff hocc, hi]

theorem isLeafAt_root : isLeafAt s.node s.root = t.isLeaf := by
  obtain ⟨-, hidx, hheld, -⟩ := h
  rw [← hidx, t.isLeafAt_idx s.node NULL hheld]

end

/-! ### GEN -/

/-- The state with the codes of `t` and every entry in use marked. -/
def State.withCodes (t : ITree) (s : State) : State :=
  { s with
    code := codeTableOf t
    node := s.node.mapEntries (fun i n => if i.toNat < s.ncount.toNat then { n with visited := true } else n) }

/-- GEN's body on a held tree with an internal root (R150). -/
theorem bodyGen_of_holdsTree {s : State} {t : ITree} (h : s.holdsTree t) (hb : t.isLeaf = false) :
    bodyGen s = .ok () (s.withCodes t) := by
  obtain ⟨u, hwalk, hend⟩ := genStart_goesOn h hb
  have ⟨htv, _, _, hocc⟩ := h
  have hn : t.size ≤ 511 := ITree.size_le_of_occupies hocc
  have hsize := ITree.size_of_occupies hocc
  have hbound : genBound = 2 * (s.ncount.toNat - 1) + ((1021 - 2 * (s.ncount.toNat - 1)) + 1) := by
    show 1022 = _
    omega
  rw [bodyGen_eq_endGen s htv ((isLeafAt_root h).trans hb), hbound, hwalk, genLoop_of_finish hend, endGen,
    markAll_clearVisited h]
  rfl

/-- Settles O17: the body records every path and marks every node, and completion sets `DONE`. -/
theorem genRecordsThePathOfEveryLeaf : Obligations.GenRecordsThePathOfEveryLeaf := by
  intro s t hr h hb
  rw [exec_completes (i := .gen) (by decide) hr (bodyGen_of_holdsTree (s := s.flagsAccepted) h hb), hr.1]
  rfl

/-- Settles O18: the two checks come before anything is written. -/
theorem genFaultsWithoutATree : Obligations.GenFaultsWithoutATree := by
  refine fun s hr => ⟨fun htv => ?_, fun t h hleaf => ?_⟩
  · exact exec_faults_unchanged (i := .gen) (by decide) hr (if_pos htv)
  · have ⟨htv, _⟩ := h
    have hroot : isLeafAt s.node s.root = true := (isLeafAt_root h).trans hleaf
    exact exec_faults_unchanged (i := .gen) (by decide) hr ((if_neg (by simp [htv])).trans (if_pos hroot))

/-- Settles O20: the walk along the edges, and one pass more to finish. -/
theorem genTakesTwoStepsPerEdge : Obligations.GenTakesTwoStepsPerEdge := by
  intro s t h hb
  obtain ⟨u, hwalk, hend⟩ := genStart_goesOn h hb
  exact ⟨⟨_, (hwalk 1).trans (genLoop_of_finish hend 0)⟩, hwalk 0⟩

/-- GEN's marks do not move the tree. -/
theorem State.holdsTree.withCodes {s : State} {t : ITree} (h : s.holdsTree t) : (s.withCodes t).holdsTree t := by
  obtain ⟨htv, hidx, hheld, hocc⟩ := h
  refine ⟨htv, hidx, MarksOnly.heldBy (fun i => ?_) hheld, hocc⟩
  rw [State.withCodes, Table.get_mapEntries]
  split
  · exact ⟨true, rfl⟩
  · exact ⟨_, rfl⟩

theorem State.withCodes_withCodes (t : ITree) (s : State) : (s.withCodes t).withCodes t = s.withCodes t := by
  have hmarks : ((s.withCodes t).withCodes t).node = (s.withCodes t).node := by
    refine Table.ext_get _ _ (fun i => ?_)
    simp only [State.withCodes, Table.get_mapEntries]
    split <;> rfl
  exact congrArg (fun nd => { s.withCodes t with node := nd }) hmarks

/-- Settles O21: GEN completes only on a tree with an internal root, and then its result holds the same tree and is
already what GEN on it gives. -/
theorem genTwiceIsGenOnce : Obligations.GenTwiceIsGenOnce := by
  intro s s' hr hinv hgen herr
  obtain ⟨hnoTree, hdegenerate⟩ := genFaultsWithoutATree s hr
  cases htv : s.tvalid with
  | false =>
    cases (hnoTree htv).symm.trans hgen
    cases herr
  | true =>
    obtain ⟨t, h⟩ := hinv.tree htv
    cases hb : t.isLeaf with
    | true =>
      cases (hdegenerate t h hb).symm.trans hgen
      cases herr
    | false =>
      cases (genRecordsThePathOfEveryLeaf s t hr h hb).symm.trans hgen
      exact (genRecordsThePathOfEveryLeaf { s.withCodes t with done := true } t hr h.withCodes hb).trans
        (congrArg (fun u => Host.Outcome.next { u with done := true }) (s.withCodes_withCodes t))

end Sys2Proof.Machine
end

section
/-! PROOFS. The codes of a tree: no path to a leaf is an initial part of another, their Kraft sum is 1, and on a tree over the
alphabet the code table GEN makes holds the path to each symbol's leaf (42_code_generator.md rule R154). -/

namespace Sys2Proof.Machine

/-! ### The paths of a tree -/

theorem ITree.mem_paths_branch {i : NodeIdx} {l r : ITree} {b : Byte} {p : List Bool} :
    (b, p) ∈ (ITree.branch i l r).paths ↔
      (∃ q, p = false :: q ∧ (b, q) ∈ l.paths) ∨ ∃ q, p = true :: q ∧ (b, q) ∈ r.paths := by
  simp [ITree.paths, and_comm, eq_comm]

theorem ITree.path_ne_nil {t : ITree} (hb : t.isLeaf = false) {b : Byte} {p : List Bool} (h : (b, p) ∈ t.paths) :
    p ≠ [] := by
  cases t with
  | leaf i s => cases hb
  | branch i l r => obtain ⟨q, rfl, -⟩ | ⟨q, rfl, -⟩ := ITree.mem_paths_branch.mp h <;> nofun

/-- A path that is an initial part of another leads to the same leaf. -/
theorem ITree.eq_of_path_prefix {t : ITree} {a b : Byte} {p q : List Bool} (hp : (a, p) ∈ t.paths)
    (hq : (b, q) ∈ t.paths) (h : p <+: q) : a = b ∧ p = q := by
  induction t generalizing p q with
  | leaf i s => exact Prod.mk.inj ((List.mem_singleton.mp hp).trans (List.mem_singleton.mp hq).symm)
  | branch i l r ihl ihr =>
    obtain ⟨p, rfl, hp'⟩ | ⟨p, rfl, hp'⟩ := ITree.mem_paths_branch.mp hp <;>
    obtain ⟨q, rfl, hq'⟩ | ⟨q, rfl, hq'⟩ := ITree.mem_paths_branch.mp hq <;>
    obtain ⟨hbit, hpq⟩ := List.cons_prefix_cons.mp h
    · exact (ihl hp' hq' hpq).imp_right (congrArg _)
    · cases hbit
    · cases hbit
    · exact (ihr hp' hq' hpq).imp_right (congrArg _)

/-- The Kraft sum of the paths, scaled by a power of two no path is too long for, is 1 (R154). -/
theorem ITree.kraft_sum (t : ITree) {d : Nat} (h : t.depth ≤ d) :
    (t.paths.map (fun x => 2 ^ (d - x.2.length))).sum = 2 ^ d := by
  induction t generalizing d with
  | leaf i s => simp [ITree.paths]
  | branch i l r ihl ihr =>
    simp only [ITree.depth] at h
    obtain ⟨d, rfl⟩ : ∃ e, d = e + 1 := ⟨d - 1, by omega⟩
    have hl := ihl (d := d) (by omega)
    have hr := ihr (d := d) (by omega)
    simp only [ITree.paths, List.map_append, List.map_map, List.sum_append, Function.comp_def, List.length_cons,
      Nat.add_sub_add_right, hl, hr]
    rw [pow_succ]
    omega

/-! ### The code table -/

/-- A symbol without a leaf in the list keeps its entry. -/
theorem get_recordPaths_of_notMem {xs : List (Byte × List Bool)} {b : Byte} (hb : b ∉ xs.map (fun x => x.1))
    (pre : List Bool) (c : Table Code 8) : (recordPaths pre xs c).get b = c.get b := by
  induction xs generalizing c with
  | nil => rfl
  | cons y ys ih =>
    obtain ⟨hy, hys⟩ := not_or.mp (fun h => hb (List.mem_cons.mpr h))
    rw [recordPaths, List.foldl_cons, ← recordPaths, ih hys, Table.get_set, if_neg (Ne.symm hy)]

/-- A symbol with one leaf in the list gets the path to it. -/
theorem get_recordPaths_of_mem {xs : List (Byte × List Bool)} (hd : (xs.map (fun x => x.1)).Nodup)
    {x : Byte × List Bool} (hx : x ∈ xs) (pre : List Bool) (c : Table Code 8) :
    (recordPaths pre xs c).get x.1 = Code.ofPath (pre ++ x.2) := by
  induction xs generalizing c with
  | nil => cases hx
  | cons y ys ih =>
    obtain ⟨hy, hys⟩ := List.nodup_cons.mp hd
    rw [recordPaths, List.foldl_cons, ← recordPaths]
    rcases List.mem_cons.mp hx with rfl | hx
    · rw [get_recordPaths_of_notMem hy, Table.get_set_self]
    · exact ih hys hx _

theorem get_codeTableOf {t : ITree} (hd : t.symbols.Nodup) {x : Byte × List Bool} (hx : x ∈ t.paths) :
    (codeTableOf t).get x.1 = Code.ofPath x.2 :=
  get_recordPaths_of_mem hd hx [] _

theorem Code.toNat_len_ofPath {p : List Bool} (h : p.length ≤ 255) : (Code.ofPath p).len.toNat = p.length :=
  Nat.mod_eq_of_lt (show p.length < 2 ^ 8 by omega)

/-! ### Trees over the alphabet (R35) -/

section
variable {t : ITree} (h : t.coversAlphabet)
include h

theorem ITree.coversAlphabet.nodup : t.symbols.Nodup := by
  refine h.nodup_iff.mpr (List.Nodup.map_on (fun a ha b hb hab => ?_) List.nodup_range)
  have := congrArg BitVec.toNat hab
  rwa [BitVec.toNat_ofNat, BitVec.toNat_ofNat, Nat.mod_eq_of_lt (List.mem_range.mp ha),
    Nat.mod_eq_of_lt (List.mem_range.mp hb)] at this

theorem ITree.coversAlphabet.exists_path (b : Byte) : ∃ p, (b, p) ∈ t.paths := by
  have hb : b ∈ t.symbols := h.mem_iff.mpr (List.mem_map.mpr ⟨b.toNat, List.mem_range.mpr b.isLt, by simp⟩)
  obtain ⟨x, hx, rfl⟩ := List.mem_map.mp hb
  exact ⟨x.2, hx⟩

/-- 256 symbols need more than a leaf. -/
theorem ITree.coversAlphabet.isLeaf : t.isLeaf = false := by
  cases t with
  | leaf i s => exact absurd h.length_eq (by simp [ITree.symbols, ITree.paths])
  | branch i l r => rfl

/-- The code of a symbol is the path to its leaf. -/
theorem ITree.coversAlphabet.code (hdepth : t.depth ≤ 255) {b : Byte} {p : List Bool} (hp : (b, p) ∈ t.paths) :
    ((codeTableOf t).get b).len.toNat = p.length ∧ ((codeTableOf t).get b).toBits = p := by
  have hlen : p.length ≤ 255 := (t.length_path_le _ hp).trans hdepth
  rw [get_codeTableOf h.nodup hp]
  exact ⟨Code.toNat_len_ofPath hlen, Code.toBits_ofPath p hlen⟩

/-- The Kraft sum over the symbols is that over the leaves. -/
theorem ITree.coversAlphabet.kraft_sum (hdepth : t.depth ≤ 255) :
    ((List.range NSYM).map (fun b => 2 ^ (255 - ((codeTableOf t).get (BitVec.ofNat 8 b)).len.toNat))).sum = 2 ^ 255 := by
  rw [← t.kraft_sum hdepth]
  calc ((List.range NSYM).map (fun b => 2 ^ (255 - ((codeTableOf t).get (BitVec.ofNat 8 b)).len.toNat))).sum
      = (t.symbols.map (fun b => 2 ^ (255 - ((codeTableOf t).get b).len.toNat))).sum := by
        rw [(h.map _).sum_eq, List.map_map, Function.comp_def]
    _ = (t.paths.map (fun x => 2 ^ (255 - x.2.length))).sum := by
        rw [ITree.symbols, List.map_map]
        refine congrArg List.sum (List.map_congr_left (fun x hx => ?_))
        show 2 ^ (255 - ((codeTableOf t).get x.1).len.toNat) = 2 ^ (255 - x.2.length)
        rw [(h.code hdepth hx).1]

end

/-- Settles O19: each code is the path to its symbol's leaf, and the paths have the three properties. -/
theorem genCodesArePrefixFreeAndComplete : Obligations.GenCodesArePrefixFreeAndComplete := by
  intro s t hr h hcovers
  have ⟨_, _, _, hocc⟩ := h
  have hdepth := ITree.depth_le_of_occupies hocc
  refine ⟨_, genRecordsThePathOfEveryLeaf s t hr h hcovers.isLeaf, rfl, fun b => ?_, fun a b hne hpre => hne ?_,
    hcovers.kraft_sum hdepth⟩
  · obtain ⟨p, hp⟩ := hcovers.exists_path b
    obtain ⟨hlen, hbits⟩ := hcovers.code hdepth hp
    exact ⟨hlen ▸ List.length_pos_iff.mpr (ITree.path_ne_nil hcovers.isLeaf hp), hbits.symm ▸ hp⟩
  · obtain ⟨p, hp⟩ := hcovers.exists_path a
    obtain ⟨q, hq⟩ := hcovers.exists_path b
    rw [(hcovers.code hdepth hp).2, (hcovers.code hdepth hq).2] at hpre
    exact (ITree.eq_of_path_prefix hp hq hpre).1

end Sys2Proof.Machine
end

section
/-! PROOFS. SER and DES: SER appends the held tree's bytes; `Parse` reads exactly the serialized trees that fit into the
arena and faults where a stream stops being one; what is read back has the bytes and the codes it had (43_tree_codec.md
rules R170 to R179). -/

namespace Sys2Proof.Machine

/-! ### SER (R170) -/

/-- SER's body on a held tree appends the tree's bytes. -/
theorem bodySer_of_holdsTree {s : State} {t : ITree} (h : s.holdsTree t) : bodySer s = obufAppendAll t.bytes s := by
  obtain ⟨htv, hidx, hheld, hocc⟩ := h
  have hdepth : t.depth < NNODE := (ITree.depth_le_of_occupies hocc).trans_lt (by decide)
  rw [bodySer, if_neg (by simp [htv]), ← hidx, serBytes_of_heldBy NNODE s.node NULL t hheld hdepth]

/-- SER where the tree's bytes have room. -/
theorem exec_ser_fits {s : State} {t : ITree} (hr : s.ready) (h : s.holdsTree t)
    (hroom : s.olen.toNat + t.bytes.length ≤ s.params.obufCap) :
    exec .ser s = .next { s with
      done := true
      obuf := s.obuf.writeAll s.olen.toNat t.bytes
      olen := s.olen + BitVec.ofNat 32 t.bytes.length } := by
  have hbody : bodySer s.flagsAccepted = obufAppendAll t.bytes s.flagsAccepted := bodySer_of_holdsTree h
  rw [obufAppendAll_fits t.bytes s.flagsAccepted hroom] at hbody
  rw [exec_completes (i := .ser) (by decide) hr hbody, hr.1]
  rfl

/-- Settles O22: without a tree nothing is done, and with one its bytes are appended all or not at all. -/
theorem serAppendsTheSerializedTree : Obligations.SerAppendsTheSerializedTree := by
  refine fun s hr hp ho => ⟨fun htv => ?_, fun t h hroom => ?_, fun t h hfull => ?_⟩
  · exact exec_faults_unchanged (i := .ser) (by decide) hr (if_pos htv)
  · exact ⟨_, exec_ser_fits hr h hroom, appended_writeAll t.bytes s hp hroom, rfl⟩
  · have hbody : bodySer s.flagsAccepted = obufAppendAll t.bytes s.flagsAccepted := bodySer_of_holdsTree h
    rw [obufAppendAll_raise t.bytes s.flagsAccepted ho hfull] at hbody
    exact ⟨_, exec_faults_unchanged (i := .ser) (by decide) hr hbody, rfl, fun _ _ => rfl⟩

/-! ### The next input byte, by what is left of the input -/

theorem ibufNext_of_payload_nil {s : State} (h : s.payload = []) (f : FaultCode) : ibufNext f s = .raise f s := by
  have := congrArg List.length h
  rw [State.payload_length, List.length_nil] at this
  exact ibufNext_raise f s (by omega)

section
variable {s : State} {b : Byte} {v : List Byte} (h : s.payload = b :: v)
include h

theorem ipos_lt_of_payload_cons : s.ipos.toNat < s.ilen.toNat := by
  have := congrArg List.length h
  rw [State.payload_length, List.length_cons] at this
  omega

theorem ibufNext_of_payload_cons (f : FaultCode) : ibufNext f s = .ok b s.advance := by
  have hlt := ipos_lt_of_payload_cons h
  rw [ibufNext_ok f s hlt, (List.cons.inj ((s.payload_cons hlt).symm.trans h)).1]
  rfl

theorem payload_advance : s.advance.payload = v :=
  (List.cons.inj ((s.payload_cons (ipos_lt_of_payload_cons h)).symm.trans h)).2

end

@[simp] theorem State.advance_ncount (s : State) : s.advance.ncount = s.ncount := rfl

/-- The rest of the input where the subtrees of an internal node, or the symbol of a leaf, are to be read. -/
theorem payload_allocNode_advance {s : State} {b : Byte} {v : List Byte} (h : s.payload = b :: v) (p : NodeIdx) :
    (allocNode p s.advance).payload = v := payload_advance h

theorem count_allocNode_advance {s : State} (hn : s.ncount.toNat < NNODE) (p : NodeIdx) :
    (allocNode p s.advance).ncount.toNat = s.ncount.toNat + 1 := allocNode_count (s := s.advance) hn p

/-! ### One node of `Parse`, by what is left of the input (R175, R176) -/

/-- Why `Parse` cannot put an entry number `m` into the arena when the rest of the input is the given one: the checks of
R176. -/
inductive NoNode (m : Nat) : List Byte → FaultCode → Prop
  | noFlag : NoNode m [] .treeTrunc
  | badFlag {b : Byte} (h0 : b ≠ 0x00) (h1 : b ≠ 0x01) (v : List Byte) : NoNode m (b :: v) .badFlag
  | arenaFull (hm : m = NNODE) {b : Byte} (hb : b = 0x00 ∨ b = 0x01) (v : List Byte) : NoNode m (b :: v) .alloc
  | noSymbol (hm : m < NNODE) : NoNode m [0x01] .treeTrunc

/-- Where no check fails, the rest of the input starts with a leaf or with the flag of an internal node. -/
theorem noNode_or_node {m : Nat} (hm : m ≤ NNODE) (w : List Byte) :
    (∃ f, NoNode m w f) ∨ m < NNODE ∧ ((∃ b v, w = 0x01 :: b :: v) ∨ ∃ v, w = 0x00 :: v) := by
  cases w with
  | nil => exact .inl ⟨_, .noFlag⟩
  | cons b v =>
    by_cases hb : b = 0x00 ∨ b = 0x01
    · obtain hfull | hfree := Nat.eq_or_lt_of_le hm
      · exact .inl ⟨_, .arenaFull hfull hb v⟩
      · obtain rfl | rfl := hb
        · exact .inr ⟨hfree, .inr ⟨v, rfl⟩⟩
        · cases v with
          | nil => exact .inl ⟨_, .noSymbol hfree⟩
          | cons c v => exact .inr ⟨hfree, .inl ⟨c, v, rfl⟩⟩
    · obtain ⟨h0, h1⟩ := not_or.mp hb
      exact .inl ⟨_, .badFlag h0 h1 v⟩

theorem parse_noNode {s : State} {f : FaultCode} (h : NoNode s.ncount.toNat s.payload f) (k : Nat) (p : NodeIdx) :
    ∃ s', parse (k + 1) p s = .raise f s' := by
  generalize hm : s.ncount.toNat = m at h
  generalize hw : s.payload = w at h
  rw [parse]
  cases h with
  | noFlag =>
    rw [ibufNext_of_payload_nil hw]
    exact ⟨_, rfl⟩
  | badFlag h0 h1 v =>
    rw [ibufNext_of_payload_cons hw, Res.bind_ok, if_pos ⟨h0, h1⟩]
    exact ⟨_, rfl⟩
  | arenaFull hfull hb v =>
    rw [ibufNext_of_payload_cons hw, Res.bind_ok, if_neg (not_and_or.mpr (by simpa using hb)),
      State.advance_ncount, if_pos (hm.trans hfull)]
    exact ⟨_, rfl⟩
  | noSymbol hfree =>
    rw [ibufNext_of_payload_cons hw, Res.bind_ok, if_neg (by simp), State.advance_ncount,
      if_neg (hm.trans_ne hfree.ne)]
    dsimp only
    rw [if_pos rfl, ibufNext_of_payload_nil (payload_allocNode_advance hw p)]
    exact ⟨_, rfl⟩

section
variable {s : State} (hn : s.ncount.toNat < NNODE)
include hn

theorem parse_leaf {b : Byte} {v : List Byte} (h : s.payload = 0x01 :: b :: v) (k : Nat) (p : NodeIdx) :
    parse (k + 1) p s = .ok (s.ncount.setWidth 9)
      ((allocNode p s.advance).advance.updateNode (s.ncount.setWidth 9) (fun n => { n with sym := b.setWidth 9 })) := by
  have hb := payload_allocNode_advance h p
  rw [parse, ibufNext_of_payload_cons h, Res.bind_ok, if_neg (by simp), State.advance_ncount, if_neg hn.ne]
  dsimp only
  rw [if_pos rfl, ibufNext_of_payload_cons hb]
  rfl

theorem parse_branch {v : List Byte} (h : s.payload = 0x00 :: v) (k : Nat) (p : NodeIdx) :
    parse (k + 1) p s =
      (parse k (s.ncount.setWidth 9) (allocNode p s.advance)).bind (fun l u =>
        (parse k (s.ncount.setWidth 9) (u.updateNode (s.ncount.setWidth 9) (fun n => { n with left := l }))).bind
          (fun r w =>
            .ok (s.ncount.setWidth 9) (w.updateNode (s.ncount.setWidth 9) (fun n => { n with right := r })))) := by
  rw [parse, ibufNext_of_payload_cons h, Res.bind_ok, if_neg (by simp), State.advance_ncount, if_neg hn.ne]
  rfl

end

/-! ### The tree that `Parse` reads -/

/-- Every entry in use has `freq` and `visited` 0 (R175). -/
def FreshEntries (s : State) : Prop :=
  ∀ j : NodeIdx, j.toNat < s.ncount.toNat → (s.node.get j).freq = 0 ∧ (s.node.get j).visited = false

theorem FreshEntries.allocNode {s : State} (h : FreshEntries s) (hn : s.ncount.toNat < NNODE) (p : NodeIdx) :
    FreshEntries (allocNode p s) := by
  intro j hj
  by_cases hnew : j = s.ncount.setWidth 9
  · rw [hnew, allocNode_get_self hn]
    exact ⟨rfl, rfl⟩
  · have hne : j.toNat ≠ s.ncount.toNat := fun he => hnew (BitVec.eq_of_toNat_eq (he.trans (toNat_nextFree hn).symm))
    rw [allocNode_count hn] at hj
    rw [allocNode_get_ne p s hnew]
    exact h j (by omega)

theorem FreshEntries.updateNode {s : State} (h : FreshEntries s) (i : NodeIdx) {f : Node → Node}
    (hf : ∀ n, (f n).freq = n.freq ∧ (f n).visited = n.visited) : FreshEntries (s.updateNode i f) := by
  intro j hj
  rw [State.updateNode_node, get_nodeUpdate]
  split
  · rw [(hf _).1, (hf _).2]
    exact h j hj
  · exact h j hj

/-- What `Parse` under the parent `p` has done when it completes with the entry `i`: the bytes of `t` are taken from the
input, and its nodes are in the arena. -/
structure ReadTree (s s' : State) (p i : NodeIdx) (t : ITree) : Prop extends Parsed s s' p i t where
  taken : s.payload = t.bytes ++ s'.payload
  ipos : s'.ipos = s.ipos + BitVec.ofNat 32 t.bytes.length
  fresh : FreshEntries s → FreshEntries s'

theorem readTree_leaf {s : State} (hn : s.ncount.toNat < NNODE) {b : Byte} {v : List Byte}
    (h : s.payload = 0x01 :: b :: v) (p j : NodeIdx) :
    ReadTree s
      ((allocNode p s.advance).advance.updateNode (s.ncount.setWidth 9) (fun n => { n with sym := b.setWidth 9 })) p
      (s.ncount.setWidth 9) (.leaf j b) := by
  have hb := payload_allocNode_advance h p
  obtain ⟨hroot, hheld, hcount, hfits, hbelow⟩ := parsed_leaf p b s hn
  refine ⟨⟨hroot, hheld, hcount, hfits, hbelow⟩, ?_, ?_, fun hs => ?_⟩
  · rw [State.updateNode_payload, payload_advance hb, h]
    rfl
  · exact BitVec.add_assoc s.ipos 1 1
  · exact FreshEntries.updateNode (hs.allocNode (s := s.advance) hn p) _ (fun n => ⟨rfl, rfl⟩)

theorem readTree_branch {s u w : State} {p l r : NodeIdx} {lt rt : ITree} (hn : s.ncount.toNat < NNODE) {v : List Byte}
    (h : s.payload = 0x00 :: v) (hl : ReadTree (allocNode p s.advance) u (s.ncount.setWidth 9) l lt)
    (hr : ReadTree (u.updateNode (s.ncount.setWidth 9) (fun n => { n with left := l })) w (s.ncount.setWidth 9) r rt)
    (j : NodeIdx) :
    ReadTree s (w.updateNode (s.ncount.setWidth 9) (fun n => { n with right := r })) p (s.ncount.setWidth 9)
      (.branch j lt rt) := by
  obtain ⟨hroot, hheld, hcount, hfits, hbelow⟩ := parsed_branch hn hl.toParsed hr.toParsed
  have hv : v = lt.bytes ++ u.payload := (payload_advance h).symm.trans hl.taken
  have hu : u.payload = rt.bytes ++ w.payload := hr.taken
  have hiposl : u.ipos = s.ipos + 1 + BitVec.ofNat 32 lt.bytes.length := hl.ipos
  have hiposr : w.ipos = u.ipos + BitVec.ofNat 32 rt.bytes.length := hr.ipos
  refine ⟨⟨hroot, hheld, hcount, hfits, hbelow⟩, ?_, ?_, fun hs => ?_⟩
  · rw [h, hv, hu, State.updateNode_payload, ITree.bytes, List.cons_append, List.append_assoc]
  · rw [State.updateNode_ipos, hiposr, hiposl, ITree.bytes, List.length_cons, List.length_append, Nat.add_comm _ 1,
      BitVec.ofNat_add, BitVec.ofNat_add, BitVec.add_assoc, BitVec.add_assoc]
    rfl
  · have hsl := hl.fresh (hs.allocNode (s := s.advance) hn p)
    exact (hr.fresh (hsl.updateNode _ (fun n => ⟨rfl, rfl⟩))).updateNode _ (fun n => ⟨rfl, rfl⟩)

/-- `Parse` reads a serialized tree that fits into the arena. -/
theorem parse_reads (t : ITree) {k : Nat} {s : State} {rest : List Byte} (h : s.payload = t.bytes ++ rest)
    (hfits : s.ncount.toNat + t.size ≤ NNODE) (hk : t.depth ≤ k) (p : NodeIdx) :
    ∃ i s', parse (k + 1) p s = .ok i s' ∧ ReadTree s s' p i t := by
  induction t generalizing k s rest p with
  | leaf j b => exact ⟨_, _, parse_leaf hfits h k p, readTree_leaf hfits h p j⟩
  | branch j l r ihl ihr =>
    simp only [ITree.size, ITree.depth] at hfits hk
    obtain ⟨k, rfl⟩ := Nat.exists_eq_add_of_le' (show 1 ≤ k by omega)
    have hn : s.ncount.toNat < NNODE := by omega
    have hcount := count_allocNode_advance hn p
    have hv := (payload_allocNode_advance h p).trans (List.append_assoc l.bytes r.bytes rest)
    obtain ⟨il, u, hl, hreadl⟩ := ihl (k := k) hv (by omega) (by omega) (s.ncount.setWidth 9)
    have hu : u.payload = r.bytes ++ rest := List.append_cancel_left (hreadl.taken.symm.trans hv)
    have hcountu := hreadl.count
    obtain ⟨ir, w, hr, hreadr⟩ := ihr (k := k)
      (s := u.updateNode (s.ncount.setWidth 9) (fun n => { n with left := il })) hu
      (by rw [State.updateNode_ncount]; omega) (by omega) (s.ncount.setWidth 9)
    exact ⟨_, _, by rw [parse_branch hn h, hl, Res.bind_ok, hr, Res.bind_ok], readTree_branch hn h hreadl hreadr j⟩

/-- `Parse` completes on nothing else. -/
theorem readTree_of_parse {k : Nat} {p i : NodeIdx} {s s' : State} (h : parse k p s = .ok i s')
    (hn : s.ncount.toNat ≤ NNODE) : ∃ t, ReadTree s s' p i t := by
  induction k generalizing p i s s' with
  | zero => cases h
  | succ k ih =>
    obtain ⟨f, hno⟩ | ⟨hfree, ⟨b, v, hw⟩ | ⟨v, hw⟩⟩ := noNode_or_node hn s.payload
    · obtain ⟨u, hu⟩ := parse_noNode hno k p
      cases h.symm.trans hu
    · cases h.symm.trans (parse_leaf hfree hw k p)
      exact ⟨_, readTree_leaf hfree hw p 0⟩
    · rw [parse_branch hfree hw] at h
      obtain ⟨l, u, hl, h⟩ := Res.bind_eq_ok _ _ _ _ h
      obtain ⟨r, w, hr, h⟩ := Res.bind_eq_ok _ _ _ _ h
      cases h
      obtain ⟨lt, hlt⟩ := ih hl ((count_allocNode_advance hfree p).trans_le hfree)
      obtain ⟨rt, hrt⟩ := ih hr hlt.fits
      exact ⟨_, readTree_branch hfree hw hlt hrt 0⟩

/-! ### The first check that fails (R176) -/

/-- The flag bytes of an internal node's subtrees: those of the left one, then those of the right one. -/
theorem ITree.flagStarts_branch_succ {j : NodeIdx} {l r : ITree} {m : Nat} {u : List Byte}
    (h : (ITree.branch j l r).flagStarts[m + 1]? = some u) :
    (∃ u', l.flagStarts[m]? = some u' ∧ u = 0x00 :: u') ∨
    ∃ m' u', m = l.size + m' ∧ r.flagStarts[m']? = some u' ∧ u = 0x00 :: (l.bytes ++ u') := by
  rw [ITree.flagStarts, List.getElem?_cons_succ, List.getElem?_append, List.length_map, ITree.length_flagStarts,
    List.getElem?_map, List.getElem?_map] at h
  split at h
  · obtain ⟨u', hu, rfl⟩ := Option.map_eq_some_iff.mp h
    exact .inl ⟨u', hu, rfl⟩
  · obtain ⟨u', hu, rfl⟩ := Option.map_eq_some_iff.mp h
    exact .inr ⟨m - l.size, u', by omega, hu, rfl⟩

/-- A check that fails at flag byte number `m` of a tree is the first that fails: the nodes before it are read. -/
theorem parse_raises (t : ITree) {m k : Nat} {u w : List Byte} {f : FaultCode} {s : State}
    (hm : t.flagStarts[m]? = some u) (h : s.payload = u ++ w) (hno : NoNode (s.ncount.toNat + m) w f)
    (hfits : s.ncount.toNat + m ≤ NNODE) (hk : m ≤ k) (p : NodeIdx) : ∃ s', parse (k + 1) p s = .raise f s' := by
  induction t generalizing m k u s p with
  | leaf j b =>
    cases m with
    | zero =>
      cases hm
      exact parse_noNode (h ▸ hno) k p
    | succ m => cases hm
  | branch j l r ihl ihr =>
    cases m with
    | zero =>
      cases hm
      exact parse_noNode (h ▸ hno) k p
    | succ m =>
      obtain ⟨k, rfl⟩ := Nat.exists_eq_add_of_le' (show 1 ≤ k by omega)
      have hn : s.ncount.toNat < NNODE := by omega
      have hcount := count_allocNode_advance hn p
      have hno : NoNode (s.ncount.toNat + 1 + m) w f := by rwa [Nat.add_assoc, Nat.add_comm 1]
      obtain ⟨u, hu, rfl⟩ | ⟨m, u, rfl, hu, rfl⟩ := ITree.flagStarts_branch_succ hm
      · obtain ⟨s', hl⟩ := ihl (k := k) hu (payload_allocNode_advance h p) (hcount ▸ hno) (by omega) (by omega)
          (s.ncount.setWidth 9)
        exact ⟨s', by rw [parse_branch hn h, hl, Res.bind_raise]⟩
      · have hv := (payload_allocNode_advance h p).trans (List.append_assoc l.bytes u w)
        have hdepth := l.depth_lt_leaves
        have hsize := l.size_eq
        obtain ⟨il, x, hl, hread⟩ := parse_reads l (k := k) hv (by omega) (by omega) (s.ncount.setWidth 9)
        have hx : x.payload = u ++ w := List.append_cancel_left (hread.taken.symm.trans hv)
        have hcountx : x.ncount.toNat = s.ncount.toNat + 1 + l.size := hcount ▸ hread.count
        have hno : NoNode (x.ncount.toNat + m) w f := by rwa [hcountx, Nat.add_assoc _ l.size]
        obtain ⟨s', hr⟩ := ihr (k := k) (s := x.updateNode (s.ncount.setWidth 9) (fun n => { n with left := il }))
          hu hx hno (by rw [State.updateNode_ncount]; omega) (by omega) (s.ncount.setWidth 9)
        exact ⟨s', by rw [parse_branch hn h, hl, Res.bind_ok, hr, Res.bind_raise]⟩

/-! ### DES (R174) -/

section
variable {s : State} (hcap : s.ilen.toNat ≤ s.params.ibufCap) (hpos : s.ipos.toNat ≤ s.ilen.toNat)
include hcap hpos

theorem bodyDes_of_parse_ok {i : NodeIdx} {u : State} (h : parse 512 NULL s.dropTree = .ok i u) :
    bodyDes s = .ok () { u with root := i, tvalid := true } := by
  rw [bodyDes, checkIn_ok s hcap hpos, Res.bind_ok, h]

theorem bodyDes_of_parse_raise {f : FaultCode} {u : State} (h : parse 512 NULL s.dropTree = .raise f u) :
    bodyDes s = .raise f u.dropTree := by
  rw [bodyDes, checkIn_ok s hcap hpos, Res.bind_ok, h]

/-- A body that completes has had a `Parse` that completes. -/
theorem parse_of_bodyDes_ok {u : State} (h : bodyDes s = .ok () u) : ∃ i v, parse 512 NULL s.dropTree = .ok i v := by
  rw [bodyDes, checkIn_ok s hcap hpos, Res.bind_ok] at h
  cases hp : parse 512 NULL s.dropTree with
  | ok i v => exact ⟨i, v, rfl⟩
  | raise f v => rw [hp] at h; cases h
  | stuck e => rw [hp] at h; cases h

/-- DES's body on a serialized tree that fits into the arena (R174, R175). -/
theorem bodyDes_reads {t : ITree} {rest : List Byte} (h : s.payload = t.bytes ++ rest) (hsize : t.size ≤ NNODE) :
    ∃ u, bodyDes s = .ok () u ∧
      u = { s with
        tvalid := true, root := 0
        ncount := BitVec.ofNat 10 t.size
        ipos := s.ipos + BitVec.ofNat 32 t.bytes.length
        node := u.node } ∧
      u.payload = rest ∧ u.holdsTree (t.renumber 0) ∧ FreshEntries u := by
  have hdepth : t.depth ≤ 511 := by
    have := t.depth_lt_leaves
    have := t.size_eq
    have : t.size ≤ 511 := hsize
    omega
  obtain ⟨i, v, hp, hread⟩ := parse_reads t (s := s.dropTree) h (by simpa using hsize) hdepth NULL
  have hrest : v.payload = rest := List.append_cancel_left (hread.taken.symm.trans h)
  have hcount : v.ncount.toNat = t.size := by simpa using hread.count
  have hframe := parse_frame 512 NULL s.dropTree
  rw [hp] at hframe
  obtain ⟨ip, nc, nd, rfl⟩ := hframe
  refine ⟨_, bodyDes_of_parse_ok hcap hpos hp, ?_, hrest, ⟨rfl, ?_, hread.held, hread.toParsed.occupies rfl⟩, ?_⟩
  · have hi : i = 0 := hread.root
    have hip : ip = s.ipos + BitVec.ofNat 32 t.bytes.length := hread.ipos
    have hnc : nc = BitVec.ofNat 10 t.size := by rw [← hcount, BitVec.ofNat_toNat, BitVec.setWidth_eq]
    rw [hi, hip, hnc]
    rfl
  · exact (t.idx_renumber 0).trans hread.root.symm
  · exact hread.fresh nofun

end

/-- DES in range on a serialized tree that fits into the arena. -/
theorem exec_des_reads {s : State} {t : ITree} {rest : List Byte} (hr : s.ready)
    (hcap : s.ilen.toNat ≤ s.params.ibufCap) (hpos : s.ipos.toNat ≤ s.ilen.toNat) (h : s.payload = t.bytes ++ rest)
    (hsize : t.size ≤ NNODE) :
    ∃ s', exec .des s = .next s' ∧
      s' = { s with
        done := true, tvalid := true, root := 0
        ncount := BitVec.ofNat 10 t.size
        ipos := s.ipos + BitVec.ofNat 32 t.bytes.length
        node := s'.node } ∧
      s'.holdsTree (t.renumber 0) ∧ FreshEntries s' := by
  obtain ⟨u, hbody, hu, -, htree, hfresh⟩ := bodyDes_reads (s := s.flagsAccepted) hcap hpos h hsize
  refine ⟨_, exec_completes (i := .des) (by decide) hr hbody, ?_, htree, hfresh⟩
  rw [hu, State.flagsCompleted, ← hr.1]
  rfl

/-- Settles O24: DES's body reads the tree, and the entries in use are the first `t.size`. -/
theorem desReadsTheSerializedTree : Obligations.DesReadsTheSerializedTree := by
  intro s t rest hr hcap hpos h hsize
  obtain ⟨s', hdes, hs', htree, hfresh⟩ := exec_des_reads hr hcap hpos h hsize
  have ⟨_, _, _, hocc⟩ := htree
  have hcount : t.size = s'.ncount.toNat := (t.size_renumber 0).symm.trans (ITree.size_of_occupies hocc)
  exact ⟨s', hdes, hs', htree, fun i hi => hfresh i (hcount ▸ hi)⟩

/-- The fault clauses of R176 are the checks of `Parse` at the `m`th node. -/
theorem NoNode.of_clause {p u : List Byte} {m : Nat} {f : FaultCode}
    (h : (f = .treeTrunc ∧ m ≤ NNODE ∧ p = u) ∨ (f = .treeTrunc ∧ m < NNODE ∧ p = u ++ [0x01]) ∨
      (f = .badFlag ∧ m ≤ NNODE ∧ ∃ b v, p = u ++ b :: v ∧ b ≠ 0x00 ∧ b ≠ 0x01) ∨
      (f = .alloc ∧ m = NNODE ∧ ∃ b v, p = u ++ b :: v ∧ (b = 0x00 ∨ b = 0x01))) :
    ∃ w, p = u ++ w ∧ NoNode m w f ∧ m ≤ NNODE := by
  obtain ⟨rfl, hm, rfl⟩ | ⟨rfl, hm, rfl⟩ | ⟨rfl, hm, b, v, rfl, h0, h1⟩ | ⟨rfl, hm, b, v, rfl, hb⟩ := h
  · exact ⟨[], p.append_nil.symm, .noFlag, hm⟩
  · exact ⟨_, rfl, .noSymbol hm, hm.le⟩
  · exact ⟨_, rfl, .badFlag h0 h1 v, hm⟩
  · exact ⟨_, rfl, .arenaFull hm hb v, hm.le⟩

/-- Settles O25: `Parse` starts with no entry in use and meets the failing check; its fault leaves no tree. -/
theorem desFaultsInPreorder : Obligations.DesFaultsInPreorder := by
  refine fun s hr => ⟨fun hout => ?_, fun hcap hpos t m u hm f hclause => ?_⟩
  · have hbody : bodyDes s.flagsAccepted = .raise .iRange s.flagsAccepted := by
      rw [bodyDes, checkIn_raise s.flagsAccepted hout, Res.bind_raise]
    exact exec_faults_unchanged (i := .des) (by decide) hr hbody
  · obtain ⟨w, hw, hno, hfits⟩ := NoNode.of_clause hclause
    obtain ⟨v, hp⟩ := parse_raises t (s := s.flagsAccepted.dropTree) hm hw (by simpa using hno) (by simpa using hfits)
      hfits NULL
    have hbody := bodyDes_of_parse_raise (s := s.flagsAccepted) hcap hpos hp
    have hframe := parse_frame 512 NULL s.flagsAccepted.dropTree
    rw [hp] at hframe
    obtain ⟨ip, nc, nd, rfl⟩ := hframe
    refine ⟨_, runCommand_faults bodyDes s _ f hr hbody, ?_⟩
    rw [State.faulted, hr.1]
    rfl

/-- Settles O26: a DES that completes has had a `Parse` that completes, which has read a tree. -/
theorem desAcceptsExactlyTheGrammar : Obligations.DesAcceptsExactlyTheGrammar := by
  refine fun s hr hcap hpos => ⟨fun ⟨s', hdes, hdone⟩ => ?_, fun ⟨t, rest, hsize, h⟩ => ?_⟩
  · obtain ⟨hidle, -⟩ | ⟨-, u, hbody, -⟩ | ⟨-, f, u, -, rfl⟩ := runCommand_cases bodyDes s s' hdes
    · simp [hr.1, hr.2] at hidle
    · obtain ⟨i, v, hp⟩ := parse_of_bodyDes_ok (s := s.flagsAccepted) hcap hpos hbody
      obtain ⟨t, hread⟩ := readTree_of_parse hp (Nat.zero_le _)
      have hcount : v.ncount.toNat = t.size := by simpa using hread.count
      exact ⟨t, v.payload, hcount ▸ hread.fits, hread.taken⟩
    · cases hdone
  · obtain ⟨s', hdes, hs', -⟩ := exec_des_reads hr hcap hpos h hsize
    exact ⟨s', hdes, by rw [hs']⟩

/-! ### SER, DES and SER again (R179) -/

/-- The code table is made from the paths, which do not say where the nodes stand. -/
theorem codeTableOf_renumber (t : ITree) (n : Nat) : codeTableOf (t.renumber n) = codeTableOf t := by
  rw [codeTableOf, ITree.paths_renumber, ← codeTableOf]

/-- Settles O27: the tree read back is the original with its nodes renumbered, which keeps the bytes and the codes. -/
theorem treeRoundTripKeepsTheCodes : Obligations.TreeRoundTripKeepsTheCodes := by
  intro s t hr hp h hroom
  refine ⟨_, t.bytes, exec_ser_fits hr h hroom, rfl, appended_writeAll t.bytes s hp hroom, ?_⟩
  intro r rest hready hpr hcap hpos hpayload
  have ⟨_, _, _, hocc⟩ := h
  obtain ⟨r1, hdes, hr1, htree, -⟩ := exec_des_reads hready hcap hpos hpayload (ITree.size_le_of_occupies hocc)
  have hready1 : r1.ready := by rw [hr1]; exact hready
  refine ⟨r1, hdes, by rw [hr1], fun hfits => ?_, fun hb => ?_⟩
  · have hroom1 : r1.olen.toNat + (t.renumber 0).bytes.length ≤ r1.params.obufCap := by
      rw [hr1, t.bytes_renumber]
      exact hfits
    have hp1 : r1.params.wf = true := by rw [hr1]; exact hpr
    have happended := appended_writeAll (t.renumber 0).bytes r1 hp1 hroom1
    refine ⟨_, exec_ser_fits hready1 htree hroom1, rfl, ?_⟩
    rwa [t.bytes_renumber] at happended ⊢
  · refine ⟨_, _, genRecordsThePathOfEveryLeaf _ t ⟨hr.1, hr.2⟩ h hb,
      genRecordsThePathOfEveryLeaf r1 _ hready1 htree ((t.isLeaf_renumber 0).trans hb), rfl, rfl,
      codeTableOf_renumber t 0⟩

end Sys2Proof.Machine
end

section
/-! PROOFS. BitPacker: what PACK's accumulator holds, that shifting bits in and flushing is appending the bytes of the
packed bitstream one by one, and what such appends do; PACK and WRSIZE (44_bit_packer.md rules R190 to R195). -/

namespace Sys2Proof.Machine

/-! ### Appends that touch the output stream only -/

/-- The state with another output stream. -/
def State.withOutput (n : Word) (m : Memory) (s : State) : State := { s with olen := n, obuf := m }

@[simp] theorem State.withOutput_params (n : Word) (m : Memory) (s : State) :
    (s.withOutput n m).params = s.params := rfl
@[simp] theorem State.withOutput_olen (n : Word) (m : Memory) (s : State) : (s.withOutput n m).olen = n := rfl
@[simp] theorem State.withOutput_obuf (n : Word) (m : Memory) (s : State) : (s.withOutput n m).obuf = m := rfl
@[simp] theorem State.withOutput_withOutput (n k : Word) (m l : Memory) (s : State) :
    (s.withOutput n m).withOutput k l = s.withOutput k l := rfl

theorem Res.bind_congr {α β : Type} {r : Res α} {k l : α → State → Res β}
    (h : ∀ a t, r = .ok a t → k a t = l a t) : r.bind k = r.bind l := by
  cases r with
  | ok a t => exact h a t rfl
  | raise f t => rfl
  | stuck e => rfl

theorem Res.bind_assoc {α β γ : Type} (r : Res α) (k : α → State → Res β) (l : β → State → Res γ) :
    (r.bind k).bind l = r.bind (fun a s => (k a s).bind l) := by
  cases r <;> rfl

/-- One byte appended, then the others. -/
theorem appended_cons {s t u : State} {b : Byte} {bs : List Byte} (h : appended s t [b]) (h' : appended t u bs) :
    appended s u (b :: bs) := by
  obtain ⟨hlen, hnew, hold⟩ := h
  obtain ⟨hlen', hnew', hold'⟩ := h'
  simp only [List.length_singleton] at hlen hnew hold
  refine ⟨by rw [hlen', hlen, List.length_cons]; omega, fun k hk => ?_, fun a ha => ?_⟩
  · cases k with
    | zero => rw [hold' _ (by omega)]; exact hnew 0 (by omega)
    | succ k =>
      rw [show s.olen.toNat + (k + 1) = t.olen.toNat + k by omega]
      exact hnew' k (by simpa using hk)
  · rw [List.length_cons] at ha
    rw [hold' a (by omega), hold a (by omega)]

/-- `ObufAppend` with room (R74). -/
theorem obufAppend_fits (b : Byte) (s : State) (hp : s.params.wf = true) (hroom : s.olen.toNat < s.params.obufCap) :
    ∃ n m, obufAppend b s = .ok () (s.withOutput n m) ∧ appended s (s.withOutput n m) [b] := by
  have hcap := (Params.caps_le hp).2
  refine ⟨s.olen + 1, s.obuf.write s.olen.toNat b, obufAppend_ok b s hroom.ne, ?_, fun k hk => ?_, fun a ha => ?_⟩
  · have hone : (1 : Word).toNat = 1 := rfl
    rw [State.withOutput_olen, BitVec.toNat_add, hone, List.length_singleton]
    omega
  · obtain rfl : k = 0 := by simpa using hk
    simp [Memory.read?_write]
  · rw [List.length_singleton] at ha
    rw [State.withOutput_obuf, Memory.read?_write, if_neg (by omega)]

/-- Appends in turn where all bytes have room. -/
theorem obufAppendEach_fits (bs : List Byte) (s : State) (hp : s.params.wf = true)
    (hroom : s.olen.toNat + bs.length ≤ s.params.obufCap) :
    ∃ n m, obufAppendEach bs s = .ok () (s.withOutput n m) ∧ appended s (s.withOutput n m) bs := by
  induction bs generalizing s with
  | nil => exact ⟨s.olen, s.obuf, rfl, rfl, nofun, fun _ _ => rfl⟩
  | cons b bs ih =>
    rw [List.length_cons] at hroom
    obtain ⟨n, m, hb, happ⟩ := obufAppend_fits b s hp (by omega)
    have hn : n.toNat = s.olen.toNat + 1 := happ.1
    obtain ⟨k, l, hbs, happ'⟩ := ih (s.withOutput n m) hp
      (by rw [State.withOutput_olen, State.withOutput_params]; omega)
    exact ⟨k, l, by rw [obufAppendEach, hb, Res.bind_ok, hbs, State.withOutput_withOutput], appended_cons happ happ'⟩

/-- Appends in turn where some byte finds no room. -/
theorem obufAppendEach_full (bs : List Byte) (s : State) (hp : s.params.wf = true)
    (ho : s.olen.toNat ≤ s.params.obufCap) (hfull : s.params.obufCap < s.olen.toNat + bs.length) :
    ∃ n m, obufAppendEach bs s = .raise .obufFull (s.withOutput n m) := by
  induction bs generalizing s with
  | nil => exact absurd ho (by simpa using hfull)
  | cons b bs ih =>
    rw [List.length_cons] at hfull
    rcases ho.eq_or_lt with heq | hlt
    · exact ⟨s.olen, s.obuf, by rw [obufAppendEach, obufAppend_raise b s heq]; rfl⟩
    · obtain ⟨n, m, hb, happ⟩ := obufAppend_fits b s hp hlt
      have hn : n.toNat = s.olen.toNat + 1 := happ.1
      obtain ⟨k, l, hbs⟩ := ih (s.withOutput n m) hp (by rw [State.withOutput_olen, State.withOutput_params]; omega)
        (by rw [State.withOutput_olen, State.withOutput_params]; omega)
      exact ⟨k, l, by rw [obufAppendEach, hb, Res.bind_ok, hbs, State.withOutput_withOutput]⟩

theorem obufAppendEach_append (bs cs : List Byte) (s : State) :
    obufAppendEach (bs ++ cs) s = (obufAppendEach bs s).bind (fun _ s => obufAppendEach cs s) := by
  induction bs generalizing s with
  | nil => rfl
  | cons b bs ih => simp only [List.cons_append, obufAppendEach, Res.bind_assoc, ih]

theorem obufAppendEach_singleton (b : Byte) (s : State) : obufAppendEach [b] s = obufAppend b s := by
  rw [obufAppendEach]
  cases obufAppend b s <;> rfl

/-! ### Commands whose body touches the output stream only -/

section
variable {i : Instr} (hi : i ≠ .ack) {s : State} (hr : s.ready) {n : Word} {m : Memory}
include hi hr

/-- A body that completes having appended some bytes. -/
theorem exec_completes_appended {bs : List Byte}
    (h : bodyOf i s.flagsAccepted = .ok () (s.flagsAccepted.withOutput n m))
    (happ : appended s.flagsAccepted (s.flagsAccepted.withOutput n m) bs) :
    ∃ s', exec i s = .next s' ∧ appended s s' bs ∧ s' = { s with done := true, olen := s'.olen, obuf := s'.obuf } := by
  refine ⟨_, exec_completes hi hr h, happ, ?_⟩
  rw [State.flagsCompleted, State.withOutput, State.flagsAccepted, hr.1]

/-- A fault takes back whatever was appended before it (R253). -/
theorem exec_faults_appending {f : FaultCode}
    (h : bodyOf i s.flagsAccepted = .raise f (s.flagsAccepted.withOutput n m)) :
    ∃ s', exec i s = .next s' ∧ faultsInto s s' f := by
  refine ⟨s.faulted f, ?_, rfl, fun _ _ => rfl⟩
  rw [exec_eq_runCommand i hi, runCommand_faults (bodyOf i) s _ f hr h, State.faulted, hr.1]
  rfl

end

/-! ### The packed bitstream, front first (R100, R101) -/

theorem length_packed (bits : List Bool) : (packed bits).length = (bits.length + 7) / 8 := by simp [packed]

/-- The packed bitstream from byte `n` on is that of the bits from bit `8n` on. -/
theorem packed_drop (bits : List Bool) (n : Nat) : packed (bits.drop (8 * n)) = (packed bits).drop n := by
  have hlen : (bits.length - 8 * n + 7) / 8 = (bits.length + 7) / 8 - n := by omega
  refine List.ext_getElem (by simp [length_packed, hlen]) (fun k _ _ => ?_)
  simp [packed, packedByte, Nat.mul_add, Nat.add_assoc]

theorem bitsToNat_replicate_false (n : Nat) : bitsToNat (List.replicate n false) = 0 := by
  induction n with
  | zero => rfl
  | succ n ih => rw [List.replicate_succ, bitsToNat_cons, ih]; simp

theorem ofNat_shiftLeft (w x k : Nat) : BitVec.ofNat w x <<< k = BitVec.ofNat w (x * 2 ^ k) := by
  apply BitVec.eq_of_toNat_eq
  simp [Nat.shiftLeft_eq]

/-- The first packed byte spells the first eight bits, zeros standing for those that are missing. -/
theorem packedByte_zero (bits : List Bool) :
    packedByte bits 0 = BitVec.ofNat 8 (bitsToNat ((bits ++ List.replicate 8 false).take 8)) := by
  have hbits : (List.range 8).map (fun m => bits.getD (8 * 0 + m) false) = (bits ++ List.replicate 8 false).take 8 := by
    refine List.ext_getElem (by simp) (fun k hk _ => ?_)
    have hk : k < 8 := by simpa using hk
    by_cases h : k < bits.length
    · simp [h]
    · simp [List.getElem_append, h, -List.reduceReplicate]
  rw [packedByte, hbits]

/-- Eight bits in front are one packed byte in front. -/
theorem packed_append {u : List Bool} (hu : u.length = 8) (v : List Bool) :
    packed (u ++ v) = BitVec.ofNat 8 (bitsToNat u) :: packed v := by
  have hpos : 0 < (packed (u ++ v)).length := by rw [length_packed, List.length_append]; omega
  have htail : packed v = (packed (u ++ v)).drop 1 := by rw [← packed_drop, List.drop_left' hu]
  have hhead : (packed (u ++ v))[0] = BitVec.ofNat 8 (bitsToNat u) := by
    simp only [packed, List.getElem_map, List.getElem_range]
    rw [packedByte_zero, List.append_assoc, List.take_left' hu]
  rw [htail, ← hhead, ← List.drop_eq_getElem_cons hpos, List.drop_zero]

/-- Fewer than eight bits are one byte, shifted up and zero-filled. -/
theorem packed_short {q : List Bool} (hq : q.length < 8) (hpos : 0 < q.length) :
    packed q = [BitVec.ofNat 8 (bitsToNat q) <<< (8 - q.length)] := by
  have hone : (q.length + 7) / 8 = 1 := by omega
  have hpad : (q ++ List.replicate 8 false).take 8 = q ++ List.replicate (8 - q.length) false := by
    rw [List.take_append, List.take_of_length_le hq.le, List.take_replicate, Nat.min_eq_left (by omega)]
  rw [packed, hone, List.range_one, List.map_singleton, packedByte_zero, hpad, bitsToNat_append,
    bitsToNat_replicate_false, Nat.add_zero, List.length_replicate, ofNat_shiftLeft]

/-- The bytes of a logical bitstream that all have their eight bits. -/
def wholeBytes (bits : List Bool) : List Byte := (packed bits).take (bits.length / 8)

/-- The bits after the last whole byte. -/
def restBits (bits : List Bool) : List Bool := bits.drop (8 * (bits.length / 8))

theorem length_wholeBytes (bits : List Bool) : (wholeBytes bits).length = bits.length / 8 := by
  rw [wholeBytes, List.length_take, length_packed]
  omega

theorem length_restBits (bits : List Bool) : (restBits bits).length < 8 := by
  rw [restBits, List.length_drop]
  omega

theorem packed_eq_wholeBytes_append (bits : List Bool) : packed bits = wholeBytes bits ++ packed (restBits bits) := by
  rw [restBits, packed_drop, wholeBytes, List.take_append_drop]

theorem wholeBytes_short {q : List Bool} (hq : q.length < 8) : wholeBytes q = [] := by
  rw [wholeBytes, Nat.div_eq_of_lt hq, List.take_zero]

theorem restBits_short {q : List Bool} (hq : q.length < 8) : restBits q = q := by
  rw [restBits, Nat.div_eq_of_lt hq, Nat.mul_zero, List.drop_zero]

theorem wholeBytes_append {u : List Bool} (hu : u.length = 8) (v : List Bool) :
    wholeBytes (u ++ v) = BitVec.ofNat 8 (bitsToNat u) :: wholeBytes v := by
  rw [wholeBytes, packed_append hu, List.length_append, hu, Nat.add_div_left _ (by decide), List.take_succ_cons,
    wholeBytes]

theorem restBits_append {u : List Bool} (hu : u.length = 8) (v : List Bool) : restBits (u ++ v) = restBits v := by
  rw [restBits, List.length_append, hu, Nat.add_div_left _ (by decide), Nat.mul_succ, Nat.add_comm, ← List.drop_drop,
    List.drop_left' hu, restBits]

/-! ### The accumulator (R190 to R192) -/

/-- The accumulator after the bits `q`, fewer than eight, since the last whole byte. -/
def PackAcc.holding (q : List Bool) : PackAcc := { acc := BitVec.ofNat 8 (bitsToNat q), cnt := q.length }

theorem PackAcc.holding_nil : PackAcc.holding [] = PackAcc.empty := rfl

theorem shiftIn_ofNat (q : List Bool) (b : Bool) :
    shiftIn (BitVec.ofNat 8 (bitsToNat q)) b = BitVec.ofNat 8 (bitsToNat (q ++ [b])) := by
  have hbits : bitsToNat (q ++ [b]) = bitsToNat q * 2 ^ 1 + b.toNat := by rw [bitsToNat_append]; cases b <;> rfl
  rw [hbits, shiftIn, BitVec.ofNat_add, ← ofNat_shiftLeft]
  cases b with
  | false => simp
  | true =>
    refine (BitVec.add_eq_or_of_and_eq_zero _ _ ?_).symm
    ext i hi
    simp +contextual

/-- The last byte is the packed form of the bits held (R192). -/
theorem flushBits_holding {q : List Bool} (hq : q.length < 8) (s : State) :
    flushBits (.holding q) s = obufAppendEach (packed q) s := by
  rcases q.length.eq_zero_or_pos with h | h
  · rw [List.eq_nil_of_length_eq_zero h]
    rfl
  · rw [packed_short hq h, obufAppendEach_singleton]
    exact if_pos h

/-- The eighth bit of a byte: the byte is appended. -/
theorem packBits_holding_eighth (b : Bool) (bs : List Bool) {q : List Bool} (hq : (q ++ [b]).length = 8) (s : State) :
    packBits (b :: bs) (.holding q) s =
      (obufAppend (BitVec.ofNat 8 (bitsToNat (q ++ [b]))) s).bind (fun _ s => packBits bs (.holding []) s) := by
  rw [← shiftIn_ofNat]
  exact if_pos (List.length_append.symm.trans hq)

/-- A bit before the eighth is held. -/
theorem packBits_holding_held (b : Bool) (bs : List Bool) {q : List Bool} (hq : (q ++ [b]).length ≠ 8) (s : State) :
    packBits (b :: bs) (.holding q) s = packBits bs (.holding (q ++ [b])) s := by
  rw [PackAcc.holding, PackAcc.holding, ← shiftIn_ofNat, List.length_append]
  exact if_neg (fun h => hq (List.length_append.trans h))

/-- Shifting bits in appends the whole bytes and holds the rest. -/
theorem packBits_holding (bs : List Bool) {q : List Bool} (hq : q.length < 8) (s : State) :
    packBits bs (.holding q) s =
      (obufAppendEach (wholeBytes (q ++ bs)) s).bind (fun _ s => .ok (.holding (restBits (q ++ bs))) s) := by
  induction bs generalizing q s with
  | nil => rw [List.append_nil, wholeBytes_short hq, restBits_short hq]; rfl
  | cons b bs ih =>
    have hlen : (q ++ [b]).length = q.length + 1 := List.length_append
    rw [List.append_cons]
    by_cases hfull : (q ++ [b]).length = 8
    · rw [packBits_holding_eighth b bs hfull, wholeBytes_append hfull, restBits_append hfull, obufAppendEach,
        Res.bind_assoc]
      exact Res.bind_congr (fun _ t _ => ih (by decide) t)
    · rw [packBits_holding_held b bs hfull, ih (by omega)]

/-- Shifting bits in from the start of a byte and flushing is appending the packed bitstream. -/
theorem packBits_bind_flushBits (bits : List Bool) (s : State) :
    (packBits bits .empty s).bind flushBits = obufAppendEach (packed bits) s := by
  rw [← PackAcc.holding_nil, packBits_holding bits (by simp), List.nil_append, Res.bind_assoc,
    packed_eq_wholeBytes_append bits, obufAppendEach_append]
  simp only [Res.bind_ok, flushBits_holding (length_restBits bits)]

/-! ### The codes of the payload (R190, R193) -/

theorem packBits_append (bs cs : List Bool) (p : PackAcc) (s : State) :
    packBits (bs ++ cs) p s = (packBits bs p s).bind (packBits cs) := by
  induction bs generalizing p s with
  | nil => rfl
  | cons b bs ih =>
    simp only [List.cons_append, packBits, ih]
    split
    · rw [Res.bind_assoc]
    · rfl

theorem code_of_packBits_ok {bs : List Bool} {p q : PackAcc} {s t : State} (h : packBits bs p s = .ok q t) :
    t.code = s.code := by
  have hw := packBits_writes bs p (WritesOnly.refl .pack s)
  rw [h] at hw
  exact hw.code (by decide)

/-- Bytes that have codes are packed by shifting in the bits of all of these. -/
theorem packSymbols_append {xs : List Byte} (ys : List Byte) (p : PackAcc) {s : State} (h : allCoded s.code xs) :
    packSymbols (xs ++ ys) p s = (packBits (codeBits s.code xs) p s).bind (packSymbols ys) := by
  induction xs generalizing p s with
  | nil => rfl
  | cons x xs ih =>
    obtain ⟨hx, hxs⟩ := List.forall_mem_cons.mp h
    have hbits : codeBits s.code (x :: xs) = (s.code.get x).toBits ++ codeBits s.code xs := List.flatMap_cons
    rw [List.cons_append, packSymbols, if_neg hx, hbits, packBits_append, Res.bind_assoc]
    refine Res.bind_congr (fun q t ht => ?_)
    rw [← code_of_packBits_ok ht] at hxs ⊢
    exact ih q hxs

section
variable {s : State} (hcap : s.ilen.toNat ≤ s.params.ibufCap) (hpos : s.ipos.toNat ≤ s.ilen.toNat)
include hcap hpos

/-- PACK's body where every payload byte has a code. -/
theorem bodyPack_allCoded (h : allCoded s.code s.payload) :
    bodyPack s = obufAppendEach (packed (codeBits s.code s.payload)) s := by
  have hsymbols := packSymbols_append [] .empty h
  rw [List.append_nil] at hsymbols
  rw [bodyPack, checkIn_ok s hcap hpos, Res.bind_ok, hsymbols, Res.bind_assoc, ← packBits_bind_flushBits]
  rfl

/-- PACK's body at the first payload byte without a code: the whole bytes before it are appended first. -/
theorem bodyPack_uncoded {xs ys : List Byte} {x : Byte} (hpay : s.payload = xs ++ x :: ys) (hxs : allCoded s.code xs)
    (hx : (s.code.get x).len = 0) :
    bodyPack s = (obufAppendEach (wholeBytes (codeBits s.code xs)) s).bind (fun _ t => .raise .noCode t) := by
  have hstop : ∀ q t, packBits (codeBits s.code xs) .empty s = .ok q t → packSymbols (x :: ys) q t = .raise .noCode t :=
    fun q t ht => if_pos (by rw [code_of_packBits_ok ht, hx])
  rw [bodyPack, checkIn_ok s hcap hpos, Res.bind_ok, hpay, packSymbols_append _ _ hxs, Res.bind_congr hstop,
    ← PackAcc.holding_nil, packBits_holding _ (by decide), List.nil_append, Res.bind_assoc, Res.bind_assoc]
  rfl

end

/-! ### The statements -/

/-- Settles O28: the body appends the packed codes byte by byte. -/
theorem packAppendsThePackedCodes : Obligations.PackAppendsThePackedCodes := by
  intro s hr hp ho hcap hpos hcoded
  have hbody := bodyPack_allCoded (s := s.flagsAccepted) hcap hpos hcoded
  refine ⟨fun hroom => ?_, fun hfull => ?_⟩
  · obtain ⟨n, m, heach, happ⟩ := obufAppendEach_fits _ s.flagsAccepted hp hroom
    exact exec_completes_appended (i := .pack) (by decide) hr (hbody.trans heach) happ
  · obtain ⟨n, m, heach⟩ := obufAppendEach_full _ s.flagsAccepted hp ho hfull
    exact exec_faults_appending (i := .pack) (by decide) hr (hbody.trans heach)

/-- Settles O29: out of range nothing is read; at the first byte without a code the whole bytes before it are appended,
or do not fit, before the fault. -/
theorem packFaultsInPayloadOrder : Obligations.PackFaultsInPayloadOrder := by
  intro s hr hp ho
  refine ⟨fun hout => ?_, fun hcap hpos xs ys x hpay hxs hx => ?_⟩
  · have hbody : bodyPack s.flagsAccepted = .raise .iRange s.flagsAccepted := by
      rw [bodyPack, checkIn_raise s.flagsAccepted hout, Res.bind_raise]
    exact exec_faults_unchanged (i := .pack) (by decide) hr hbody
  · have hbody := bodyPack_uncoded (s := s.flagsAccepted) hcap hpos hpay hxs hx
    rw [State.flagsAccepted_code] at hbody
    have hlen := length_wholeBytes (codeBits s.code xs)
    split
    · rename_i hroom
      rw [← hlen] at hroom
      obtain ⟨n, m, heach, -⟩ := obufAppendEach_fits _ s.flagsAccepted hp hroom
      rw [heach, Res.bind_ok] at hbody
      exact exec_faults_appending (i := .pack) (by decide) hr hbody
    · rename_i hfull
      rw [← hlen, not_le] at hfull
      obtain ⟨n, m, heach⟩ := obufAppendEach_full _ s.flagsAccepted hp ho hfull
      rw [heach, Res.bind_raise] at hbody
      exact exec_faults_appending (i := .pack) (by decide) hr hbody

/-- Settles O30: the body appends the four size bytes all or not at all. -/
theorem wrsizeAppendsLittleEndian : Obligations.WrsizeAppendsLittleEndian := by
  intro s hr hp ho
  refine ⟨fun hroom => ?_, fun hfull => ?_⟩
  · exact exec_completes_appended (i := .wrsize) (by decide) hr
      (obufAppendAll_fits (sizeBytes s.nsize) s.flagsAccepted hroom) (appended_writeAll _ s.flagsAccepted hp hroom)
  · have hbody : bodyWrsize s.flagsAccepted = .raise .obufFull s.flagsAccepted := obufAppendAll_raise _ _ ho hfull
    exact ⟨_, exec_faults_unchanged (i := .wrsize) (by decide) hr hbody, rfl, fun _ _ => rfl⟩

end Sys2Proof.Machine
end

section
/-! PROOFS. Decoder: the bits UNPACK has not consumed, one pass of its loop, the walk along the path of a leaf and along
those of several, and where it stops; UNPACK and RDSIZE (45_decoder.md rules R210 to R216). -/

namespace Sys2Proof.Machine

/-! ### RDSIZE (R215) -/

theorem toNat_sizeOfBytes (b0 b1 b2 b3 : Byte) : (sizeOfBytes b0 b1 b2 b3).toNat =
    b0.toNat + 2 ^ 8 * b1.toNat + 2 ^ 16 * b2.toNat + 2 ^ 24 * b3.toNat := by
  simp only [sizeOfBytes, toNat_append_eq_add]
  omega

theorem bodyRdsize_outOfRange {s : State} (h : ¬ (s.ilen.toNat ≤ s.params.ibufCap ∧ s.ipos.toNat ≤ s.ilen.toNat)) :
    bodyRdsize s = .raise .iRange s := by
  rw [bodyRdsize, checkIn_raise s h, Res.bind_raise]

section
variable {s : State} (hcap : s.ilen.toNat ≤ s.params.ibufCap) (hpos : s.ipos.toNat ≤ s.ilen.toNat)
include hcap hpos

theorem bodyRdsize_short (h : s.ilen.toNat - s.ipos.toNat < 4) : bodyRdsize s = .raise .shortRead s := by
  rw [bodyRdsize, checkIn_ok s hcap hpos, Res.bind_ok, if_pos h]

theorem bodyRdsize_inRange (h : 4 ≤ s.ilen.toNat - s.ipos.toNat) : bodyRdsize s = .ok () { s with
    nsize := sizeOfBytes (s.ibufByte s.ipos.toNat) (s.ibufByte (s.ipos.toNat + 1)) (s.ibufByte (s.ipos.toNat + 2))
      (s.ibufByte (s.ipos.toNat + 3))
    ipos := s.ipos + 4 } := by
  rw [bodyRdsize, checkIn_ok s hcap hpos, Res.bind_ok, if_neg (by omega)]

end

/-- Settles O33: both checks come before anything is written. -/
theorem rdsizeReadsLittleEndian : Obligations.RdsizeReadsLittleEndian := by
  refine fun s hr => ⟨fun hout => ?_, fun hcap hpos => ⟨fun hshort => ?_, fun hfour => ⟨_, ?_, toNat_sizeOfBytes ..⟩⟩⟩
  · exact exec_faults_unchanged (i := .rdsize) (by decide) hr (bodyRdsize_outOfRange (s := s.flagsAccepted) hout)
  · exact exec_faults_unchanged (i := .rdsize) (by decide) hr (bodyRdsize_short (s := s.flagsAccepted) hcap hpos hshort)
  · rw [exec_completes (i := .rdsize) (by decide) hr (bodyRdsize_inRange (s := s.flagsAccepted) hcap hpos hfour), hr.1]
    rfl

/-! ### The bits not yet consumed (R214) -/

/-- The state with `IPOS` at another place. -/
def State.readTo (p : Word) (s : State) : State := { s with ipos := p }

/-- The `k` low bits of a byte, most significant first. -/
def lowBits (y : Byte) : Nat → List Bool
  | 0 => []
  | k + 1 => y.getLsbD k :: lowBits y k

@[simp] theorem length_lowBits (y : Byte) (k : Nat) : (lowBits y k).length = k := by
  induction k with
  | zero => rfl
  | succ k ih => rw [lowBits, List.length_cons, ih]

theorem streamBits_cons (b : Byte) (bs : List Byte) : streamBits (b :: bs) = lowBits b 8 ++ streamBits bs := rfl

theorem length_streamBits (bs : List Byte) : (streamBits bs).length = 8 * bs.length := by
  induction bs with
  | nil => rfl
  | cons b bs ih =>
    rw [streamBits_cons, List.length_append, length_lowBits, ih, List.length_cons]
    omega

/-- With the `k` low bits of the current byte `y` left, the bits the walk has still to consume are `q`. -/
structure Unread (y : Byte) (k : Nat) (s : State) (q : List Bool) : Prop where
  lt_eight : k < 8
  ipos_le : s.ipos.toNat ≤ s.ilen.toNat
  bits : lowBits y k ++ streamBits s.payload = q

theorem unread_start {s : State} (h : s.ipos.toNat ≤ s.ilen.toNat) : Unread 0 0 s (streamBits s.payload) :=
  ⟨by decide, h, rfl⟩

theorem Unread.length {y : Byte} {k : Nat} {s : State} {q : List Bool} (h : Unread y k s q) :
    q.length = k + 8 * (s.ilen.toNat - s.ipos.toNat) := by
  rw [← h.bits, List.length_append, length_lowBits, length_streamBits, State.payload_length]

theorem fetchBits_unread_nil {w : Walk} {s : State} (h : Unread w.byte w.k s []) :
    fetchBits w s = .raise .bitsExhausted s := by
  have hlen := h.length
  rw [List.length_nil] at hlen
  rw [fetchBits, if_pos (by omega), ibufNext_raise _ s (by omega), Res.bind_raise]

/-- Where a bit is left the walk has it at hand after fetching, and behind it the bits that follow. -/
theorem fetchBits_unread_cons {w : Walk} {s : State} {b : Bool} {q : List Bool} (h : Unread w.byte w.k s (b :: q)) :
    ∃ y k p, fetchBits w s = .ok { w with byte := y, k := k + 1 } (s.readTo p) ∧ y.getLsbD k = b ∧
      Unread y k (s.readTo p) q := by
  obtain ⟨cur, em, y, k⟩ := w
  obtain ⟨hlt, hle, hbits⟩ := h
  dsimp only at hlt hbits
  cases k with
  | succ k =>
    obtain ⟨hb, hq⟩ := List.cons.inj hbits
    exact ⟨y, k, s.ipos, rfl, hb, by omega, hle, hq⟩
  | zero =>
    cases hpay : s.payload with
    | nil => rw [hpay] at hbits; cases hbits
    | cons x v =>
      rw [hpay] at hbits
      obtain ⟨hb, hq⟩ := List.cons.inj hbits
      have hpos := ipos_lt_of_payload_cons hpay
      refine ⟨x, 7, s.ipos + 1, ?_, hb, by decide, ?_, ?_⟩
      · rw [fetchBits, if_pos rfl, ibufNext_of_payload_cons hpay, Res.bind_ok]
        rfl
      · exact (toNat_add_one_of_lt _ _ hpos).le.trans hpos
      · exact (congrArg (fun v => lowBits x 7 ++ streamBits v) (payload_advance hpay)).trans hq

/-- `IPOS` is past the last byte of which a bit has been consumed (R214). -/
theorem ipos_of_unread {s : State} (hpos : s.ipos.toNat ≤ s.ilen.toNat) {c q : List Bool}
    (hbits : streamBits s.payload = c ++ q) {y : Byte} {k : Nat} {p n : Word} {m : Memory}
    (hu : Unread y k ((s.readTo p).withOutput n m) q) :
    p = s.ipos + BitVec.ofNat 32 ((c.length + 7) / 8) := by
  have hall := congrArg List.length hbits
  rw [length_streamBits, State.payload_length, List.length_append, hu.length] at hall
  have hle : p.toNat ≤ s.ilen.toNat := hu.ipos_le
  have hk := hu.lt_eight
  change 8 * (s.ilen.toNat - s.ipos.toNat) = c.length + (k + 8 * (s.ilen.toNat - p.toNat)) at hall
  apply BitVec.eq_of_toNat_eq
  rw [BitVec.toNat_add, BitVec.toNat_ofNat]
  omega

/-! ### One pass of the loop (R210, R211) -/

/-- The subtree a bit selects. -/
def ITree.select (l r : ITree) (bit : Bool) : ITree := if bit then r else l

theorem ITree.mem_paths_select {i : NodeIdx} {l r : ITree} {b : Byte} {bit : Bool} {c : List Bool} :
    (b, bit :: c) ∈ (ITree.branch i l r).paths ↔ (b, c) ∈ (l.select r bit).paths := by
  rw [ITree.mem_paths_branch]
  cases bit <;> simp [ITree.select]

/-- The arena's child entry is the selected subtree. -/
theorem ITree.heldBy_select {nd : Table Node 9} {p i : NodeIdx} {l r : ITree} (h : (ITree.branch i l r).heldBy nd p)
    (bit : Bool) : nodeAt nd i = some (nd.get i) ∧ (nd.get i).child bit = (l.select r bit).idx ∧
      (l.select r bit).heldBy nd i := by
  obtain ⟨hi, -, hl, hr, -, hheldl, hheldr⟩ := h
  refine ⟨nodeAt_of_ne nd i hi, ?_⟩
  cases bit with
  | false => exact ⟨hl, hheldl⟩
  | true => exact ⟨hr, hheldr⟩

theorem obufAppend_root {b : Byte} {s t : State} (h : obufAppend b s = .ok () t) : t.root = s.root := by
  have hw := obufAppend_writes (i := .unpack) (by decide) b (WritesOnly.refl .unpack s)
  rw [h] at hw
  exact (hw.tree (by decide)).1

section
variable {s : State} {cur : NodeIdx} {em k : Nat} {y : Byte} {p : NodeIdx} {l r : ITree}
  (h : (ITree.branch cur l r).heldBy s.node p)
include h

/-- A bit that leads to an internal node. -/
theorem consumeBit_toBranch (hb : (l.select r (y.getLsbD k)).isLeaf = false) :
    consumeBit ⟨cur, em, y, k + 1⟩ s = .ok ⟨(l.select r (y.getLsbD k)).idx, em, y, k⟩ s := by
  obtain ⟨hnode, hchild, hheld⟩ := ITree.heldBy_select h (y.getLsbD k)
  have hleaf := (isLeaf_get_idx hheld).trans hb
  rw [consumeBit, hnode]
  dsimp only
  rw [Nat.add_sub_cancel, hchild, nodeAt_of_ne _ _ (ITree.idx_ne_null _ _ _ hheld)]
  dsimp only
  rw [if_neg (by simp [hleaf])]

/-- A bit that leads to a leaf: the symbol is emitted and the walk starts again at the root. -/
theorem consumeBit_toLeaf {j : NodeIdx} {b : Byte} (hb : l.select r (y.getLsbD k) = .leaf j b) :
    consumeBit ⟨cur, em, y, k + 1⟩ s = (obufAppend b s).bind (fun _ t => .ok ⟨s.root, em + 1, y, k⟩ t) := by
  obtain ⟨hnode, hchild, hheld⟩ := ITree.heldBy_select h (y.getLsbD k)
  rw [hb] at hchild hheld
  have hleaf : (s.node.get j).isLeaf = true := isLeaf_get_idx hheld
  obtain ⟨hne, hsym, -⟩ := hheld
  rw [consumeBit, hnode]
  dsimp only
  rw [Nat.add_sub_cancel, hchild, ITree.idx, nodeAt_of_ne _ _ hne]
  dsimp only
  rw [if_pos hleaf, hsym, setWidth_setWidth_sym]
  exact Res.bind_congr (fun _ t ht => by rw [obufAppend_root ht])

end

/-- The walk stands at the subtree `u`, has emitted `e` symbols and has the bits `q` before it. -/
structure Walk.At (w : Walk) (s : State) (u : ITree) (e : Nat) (q : List Bool) : Prop where
  held : ∃ p, u.heldBy s.node p
  cur : w.cur = u.idx
  em : w.em = e
  unread : Unread w.byte w.k s q

theorem Walk.At.withOutput {w : Walk} {s : State} {u : ITree} {e : Nat} {q : List Bool} (hw : w.At s u e q) (n : Word)
    (m : Memory) : w.At (s.withOutput n m) u e q := ⟨hw.held, hw.cur, hw.em, { hw.unread with }⟩

theorem unpackLoop_done {w : Walk} {s : State} {u : ITree} {q : List Bool} (hw : w.At s u s.nsize.toNat q) (n : Nat) :
    unpackLoop (n + 1) w s = .ok () s := by
  rw [unpackLoop, if_neg (by rw [hw.em]; exact lt_irrefl _)]

section
variable {w : Walk} {s : State} {u : ITree} {e : Nat} (he : e < s.nsize.toNat)
include he

theorem unpackLoop_noBit (hw : w.At s u e []) (n : Nat) : unpackLoop (n + 1) w s = .raise .bitsExhausted s := by
  rw [unpackLoop, if_pos (by rw [hw.em]; exact he), fetchBits_unread_nil hw.unread, Res.bind_raise]

variable {b : Byte} {bit : Bool} {q : List Bool} (hw : w.At s u e (bit :: q))
include hw

/-- A bit that is not the last of a path leads to the subtree with the rest of the path. -/
theorem unpackLoop_bit {c : List Bool} (hc : (b, bit :: c) ∈ u.paths) (hne : c ≠ []) :
    ∃ v w' p, w'.At (s.readTo p) v e q ∧ (b, c) ∈ v.paths ∧
      ∀ n, unpackLoop (n + 1) w s = unpackLoop n w' (s.readTo p) := by
  obtain ⟨⟨p, hheld⟩, hcur, hem, hunread⟩ := hw
  cases u with
  | leaf i x => simp [ITree.paths] at hc
  | branch i l r =>
    obtain ⟨y, k, ip, hfetch, rfl, hrest⟩ := fetchBits_unread_cons hunread
    have hc := ITree.mem_paths_select.mp hc
    have hb : (l.select r (y.getLsbD k)).isLeaf = false := by
      cases hsel : l.select r (y.getLsbD k) with
      | leaf j x => rw [hsel] at hc; exact absurd (Prod.mk.inj (List.mem_singleton.mp hc)).2 hne
      | branch j l' r' => rfl
    obtain ⟨-, -, hsub⟩ := ITree.heldBy_select hheld (y.getLsbD k)
    refine ⟨_, ⟨_, w.em, y, k⟩, ip, ⟨⟨i, hsub⟩, rfl, hem, hrest⟩, hc, fun n => ?_⟩
    rw [unpackLoop, if_pos (by rw [hem]; exact he), hfetch, Res.bind_ok, hcur]
    exact congrArg (Res.bind · _) (consumeBit_toBranch (s := s.readTo ip) hheld hb)

/-- The last bit of a path emits the leaf's symbol and leads back to the root. -/
theorem unpackLoop_lastBit {t : ITree} (h : s.holdsTree t) (hc : (b, [bit]) ∈ u.paths) :
    ∃ w' p, w'.At (s.readTo p) t (e + 1) q ∧
      ∀ n, unpackLoop (n + 1) w s = (obufAppend b (s.readTo p)).bind (fun _ s' => unpackLoop n w' s') := by
  obtain ⟨⟨p, hheld⟩, hcur, hem, hunread⟩ := hw
  obtain ⟨-, hroot, ht, -⟩ := h
  cases u with
  | leaf i x => simp [ITree.paths] at hc
  | branch i l r =>
    obtain ⟨y, k, ip, hfetch, rfl, hrest⟩ := fetchBits_unread_cons hunread
    have hc := ITree.mem_paths_select.mp hc
    obtain ⟨j, hb⟩ : ∃ j, l.select r (y.getLsbD k) = .leaf j b := by
      cases hsel : l.select r (y.getLsbD k) with
      | leaf j x => rw [hsel] at hc; exact ⟨j, by rw [(Prod.mk.inj (List.mem_singleton.mp hc)).1]⟩
      | branch j l' r' => rw [hsel] at hc; exact absurd rfl (ITree.path_ne_nil rfl hc)
    refine ⟨⟨s.root, w.em + 1, y, k⟩, ip, ⟨⟨NULL, ht⟩, hroot.symm, by rw [hem], hrest⟩, fun n => ?_⟩
    rw [unpackLoop, if_pos (by rw [hem]; exact he), hfetch, Res.bind_ok, hcur]
    refine (congrArg (Res.bind · _) (consumeBit_toLeaf (s := s.readTo ip) hheld hb)).trans ?_
    rw [Res.bind_assoc]
    rfl

end

/-! ### Paths (R210 to R212) -/

/-- The bits of a path, consumed one by one, emit the symbol of its leaf. -/
theorem unpackLoop_path {t : ITree} {b : Byte} {c rest : List Bool} (hne : c ≠ []) {e : Nat} {w : Walk} {s : State}
    {u : ITree} (h : s.holdsTree t) (he : e < s.nsize.toNat) (hw : w.At s u e (c ++ rest)) (hc : (b, c) ∈ u.paths) :
    ∃ w' p, w'.At (s.readTo p) t (e + 1) rest ∧
      ∀ n, unpackLoop (n + c.length) w s = (obufAppend b (s.readTo p)).bind (fun _ s' => unpackLoop n w' s') := by
  induction c generalizing w s u with
  | nil => exact absurd rfl hne
  | cons bit c ih =>
    by_cases hlast : c = []
    · subst hlast
      exact unpackLoop_lastBit he hw h hc
    · obtain ⟨v, w1, p, hw1, hv, hstep⟩ := unpackLoop_bit he hw hc hlast
      obtain ⟨w2, p', hw2, hloop⟩ := ih hlast (s := s.readTo p) h he hw1 hv
      exact ⟨w2, p', hw2, fun n => (hstep _).trans (hloop n)⟩

/-- Bits that end before a path does exhaust the input (R216). -/
theorem unpackLoop_exhausted {b : Byte} {q y : List Bool} (hy : y ≠ []) {e : Nat} {w : Walk} {s : State} {u : ITree}
    (he : e < s.nsize.toNat) (hw : w.At s u e q) (hc : (b, q ++ y) ∈ u.paths) :
    ∃ p, unpackLoop (q.length + 1) w s = .raise .bitsExhausted (s.readTo p) := by
  induction q generalizing w s u with
  | nil => exact ⟨s.ipos, unpackLoop_noBit he hw 0⟩
  | cons bit q ih =>
    obtain ⟨v, w', p, hw', hv, hstep⟩ := unpackLoop_bit he hw hc (by simp [hy])
    obtain ⟨p', hloop⟩ := ih (s := s.readTo p) he hw' hv
    exact ⟨p', (hstep _).trans hloop⟩

/-- The paths of several leaves, one after another, emit their symbols, where these have room. -/
theorem unpackLoop_paths {t : ITree} {ks : List (Byte × List Bool)} (hks : ∀ x ∈ ks, x ∈ t.paths ∧ x.2 ≠ [])
    {rest : List Bool} {e : Nat} {w : Walk} {s : State} (h : s.holdsTree t) (hp : s.params.wf = true)
    (he : e + ks.length ≤ s.nsize.toNat) (hroom : s.olen.toNat + ks.length ≤ s.params.obufCap)
    (hw : w.At s t e (ks.flatMap (fun x => x.2) ++ rest)) :
    ∃ w' p n m, w'.At ((s.readTo p).withOutput n m) t (e + ks.length) rest ∧
      appended s ((s.readTo p).withOutput n m) (ks.map (fun x => x.1)) ∧
      ∀ k, unpackLoop (k + (ks.flatMap (fun x => x.2)).length) w s = unpackLoop k w' ((s.readTo p).withOutput n m) := by
  induction ks generalizing e w s with
  | nil => exact ⟨w, s.ipos, s.olen, s.obuf, hw, ⟨rfl, nofun, fun _ _ => rfl⟩, fun _ => rfl⟩
  | cons x ks ih =>
    obtain ⟨⟨hx, hne⟩, hks⟩ := List.forall_mem_cons.mp hks
    rw [List.length_cons] at he hroom
    rw [List.flatMap_cons, List.append_assoc] at hw
    obtain ⟨w1, p, hw1, hpath⟩ := unpackLoop_path hne h (by omega) hw hx
    obtain ⟨n, m, hfit, happ⟩ := obufAppend_fits x.1 (s.readTo p) hp (show s.olen.toNat < s.params.obufCap by omega)
    have hn : n.toNat = s.olen.toNat + 1 := happ.1
    obtain ⟨w2, p', n', m', hw2, happ', hloop⟩ := ih hks (s := (s.readTo p).withOutput n m) h hp
      (show e + 1 + ks.length ≤ s.nsize.toNat by omega) (show n.toNat + ks.length ≤ s.params.obufCap by omega)
      (hw1.withOutput n m)
    refine ⟨w2, p', n', m', ?_, appended_cons happ happ', fun k => ?_⟩
    · rw [List.length_cons, Nat.add_comm ks.length, ← Nat.add_assoc]
      exact hw2
    · rw [List.flatMap_cons, List.length_append, Nat.add_comm x.2.length, ← Nat.add_assoc, hpath, hfit, Res.bind_ok]
      exact hloop k

/-! ### The body of UNPACK -/

section
variable {s : State} {t : ITree} (h : s.holdsTree t) (hcap : s.ilen.toNat ≤ s.params.ibufCap)
  (hpos : s.ipos.toNat ≤ s.ilen.toNat)
include h hcap hpos

theorem bodyUnpack_degenerate (hleaf : t.isLeaf = true) (hn : 0 < s.nsize.toNat) :
    bodyUnpack s = .raise .degenerate s := by
  have ⟨htv, _⟩ := h
  rw [bodyUnpack, if_neg (by simp [htv]), checkIn_ok s hcap hpos, Res.bind_ok,
    if_pos ⟨hn, (isLeafAt_root h).trans hleaf⟩]

/-- UNPACK's body on a held tree is the walk from the root over the payload's bits. -/
theorem bodyUnpack_of_holdsTree (hroot : t.isLeaf = false ∨ s.nsize.toNat = 0) :
    bodyUnpack s = unpackLoop ((streamBits s.payload).length + 1) ⟨s.root, 0, 0, 0⟩ s := by
  have ⟨htv, _⟩ := h
  have hbound : unpackBound s = (streamBits s.payload).length + 1 := by
    rw [unpackBound, length_streamBits, State.payload_length]
  rw [bodyUnpack, if_neg (by simp [htv]), checkIn_ok s hcap hpos, Res.bind_ok, hbound, if_neg]
  rintro ⟨hn, hleaf⟩
  rw [isLeafAt_root h] at hleaf
  rcases hroot with hb | hz
  · exact absurd (hleaf.symm.trans hb) nofun
  · omega

/-- UNPACK's body up to the point where the leading paths are consumed and their symbols appended. -/
theorem bodyUnpack_paths (hp : s.params.wf = true) (hroot : t.isLeaf = false ∨ s.nsize.toNat = 0)
    {ks : List (Byte × List Bool)} (hks : ∀ x ∈ ks, x ∈ t.paths) (hn : ks.length ≤ s.nsize.toNat)
    (hroom : s.olen.toNat + ks.length ≤ s.params.obufCap) {q : List Bool}
    (hbits : streamBits s.payload = ks.flatMap (fun x => x.2) ++ q) :
    ∃ w p n m, w.At ((s.readTo p).withOutput n m) t ks.length q ∧
      appended s ((s.readTo p).withOutput n m) (ks.map (fun x => x.1)) ∧
      bodyUnpack s = unpackLoop (q.length + 1) w ((s.readTo p).withOutput n m) := by
  have hpaths : ∀ x ∈ ks, x ∈ t.paths ∧ x.2 ≠ [] := by
    rcases hroot with hb | hz
    · exact fun x hx => ⟨hks x hx, ITree.path_ne_nil hb (hks x hx)⟩
    · rw [List.eq_nil_of_length_eq_zero (by omega : ks.length = 0)]
      nofun
  have ⟨_, hidx, hheld, _⟩ := h
  have hstart : Walk.At ⟨s.root, 0, 0, 0⟩ s t 0 (ks.flatMap (fun x => x.2) ++ q) :=
    ⟨⟨NULL, hheld⟩, hidx.symm, rfl, hbits ▸ unread_start hpos⟩
  obtain ⟨w, p, n, m, hw, happ, hloop⟩ := unpackLoop_paths hpaths h hp (by omega) hroom hstart
  rw [Nat.zero_add] at hw
  refine ⟨w, p, n, m, hw, happ, ?_⟩
  rw [bodyUnpack_of_holdsTree h hcap hpos hroot, ← hloop, hbits, List.length_append]
  congr 1
  omega

end

/-! ### The statements -/

/-- A fault takes back whatever was read and appended before it (R253). -/
theorem exec_faults_moving {i : Instr} (hi : i ≠ .ack) {s : State} (hr : s.ready) {f : FaultCode} {p n : Word}
    {m : Memory} (h : bodyOf i s.flagsAccepted = .raise f ((s.flagsAccepted.readTo p).withOutput n m)) :
    ∃ s', exec i s = .next s' ∧ faultsInto s s' f := by
  refine ⟨s.faulted f, ?_, rfl, fun _ _ => rfl⟩
  rw [exec_eq_runCommand i hi, runCommand_faults (bodyOf i) s _ f hr h, State.faulted, hr.1]
  rfl

/-- Settles O31: the walk consumes the paths and emits their symbols, and then has emitted `NSIZE` of them. -/
theorem unpackDecodesNsizeSymbols : Obligations.UnpackDecodesNsizeSymbols := by
  intro s t ks hr hp h hroot hcap hpos hks hn ⟨q, hq⟩ hroom
  have hroot : t.isLeaf = false ∨ s.nsize.toNat = 0 := hroot.imp_right (fun he => by rw [← hn, he]; rfl)
  obtain ⟨w, p, n, m, hw, happ, hbody⟩ :=
    bodyUnpack_paths (s := s.flagsAccepted) h hcap hpos hp hroot hks hn.le hroom hq.symm
  rw [unpackLoop_done (hn ▸ hw)] at hbody
  have hip : p = s.ipos + BitVec.ofNat 32 (((ks.flatMap (fun x => x.2)).length + 7) / 8) :=
    ipos_of_unread (s := s.flagsAccepted) hpos hq.symm hw.unread
  refine ⟨_, exec_completes (i := .unpack) (by decide) hr hbody, happ, ?_⟩
  rw [← hip, State.flagsCompleted, State.withOutput, State.readTo, State.flagsAccepted, hr.1]

section
variable {s : State} {t : ITree} (hr : s.ready) (hp : s.params.wf = true) (h : s.holdsTree t)
  (hcap : s.ilen.toNat ≤ s.params.ibufCap) (hpos : s.ipos.toNat ≤ s.ilen.toNat) (hb : t.isLeaf = false)
  {ks : List (Byte × List Bool)} (hks : ∀ x ∈ ks, x ∈ t.paths)
include hr hp h hcap hpos hb hks

/-- UNPACK where the input ends between two paths or inside one. -/
theorem exec_unpack_exhausted {q y : List Bool} {b : Byte}
    (hbits : streamBits s.payload = ks.flatMap (fun x => x.2) ++ q) (hc : (b, q ++ y) ∈ t.paths) (hy : y ≠ [])
    (hn : ks.length < s.nsize.toNat) (hroom : s.olen.toNat + ks.length ≤ s.params.obufCap) :
    ∃ s', exec .unpack s = .next s' ∧ faultsInto s s' .bitsExhausted := by
  obtain ⟨w, p, n, m, hw, -, hbody⟩ :=
    bodyUnpack_paths (s := s.flagsAccepted) h hcap hpos hp (.inl hb) hks hn.le hroom hbits
  obtain ⟨p', hloop⟩ := unpackLoop_exhausted hy (s := (s.flagsAccepted.readTo p).withOutput n m) hn hw hc
  exact exec_faults_moving (i := .unpack) (p := p') (by decide) hr (hbody.trans hloop)

/-- UNPACK where the room ends before the symbols do: the first symbol without room is the one after those that fit. -/
theorem exec_unpack_full (ho : s.olen.toNat ≤ s.params.obufCap)
    (hbits : ks.flatMap (fun x => x.2) <+: streamBits s.payload)
    (hn : ks.length ≤ s.nsize.toNat) (hfull : s.params.obufCap < s.olen.toNat + ks.length) :
    ∃ s', exec .unpack s = .next s' ∧ faultsInto s s' .obufFull := by
  obtain ⟨q, hq⟩ := hbits
  obtain ⟨xs, x, ys, rfl, hxs⟩ : ∃ xs x ys, ks = xs ++ x :: ys ∧ s.olen.toNat + xs.length = s.params.obufCap := by
    have hlt : s.params.obufCap - s.olen.toNat < ks.length := by omega
    refine ⟨ks.take (s.params.obufCap - s.olen.toNat), ks[s.params.obufCap - s.olen.toNat], _,
      (List.take_append_drop _ ks).symm.trans (congrArg _ (List.drop_eq_getElem_cons hlt)), ?_⟩
    rw [List.length_take]
    omega
  obtain ⟨hxs_mem, hx, -⟩ : (∀ z ∈ xs, z ∈ t.paths) ∧ x ∈ t.paths ∧ ∀ z ∈ ys, z ∈ t.paths := by
    simpa [or_imp, forall_and] using hks
  rw [List.length_append, List.length_cons] at hn
  rw [List.flatMap_append, List.flatMap_cons, List.append_assoc, List.append_assoc] at hq
  obtain ⟨w, p, n, m, hw, happ, hbody⟩ := bodyUnpack_paths (s := s.flagsAccepted) h hcap hpos hp (.inl hb) hxs_mem
    (show xs.length ≤ s.nsize.toNat by omega) hxs.le hq.symm
  obtain ⟨w', p', -, hpath⟩ := unpackLoop_path (ITree.path_ne_nil hb hx)
    (s := (s.flagsAccepted.readTo p).withOutput n m) h (show xs.length < s.nsize.toNat by omega) hw hx
  have hlen : n.toNat = s.params.obufCap := by
    rw [← hxs, ← List.length_map (as := xs) (fun x => x.1)]
    exact happ.1
  have hraise := obufAppend_raise x.1 (((s.flagsAccepted.readTo p).withOutput n m).readTo p') hlen
  rw [List.length_append, Nat.add_comm x.2.length, Nat.add_right_comm, hpath, hraise, Res.bind_raise] at hbody
  exact exec_faults_moving (i := .unpack) (p := p') (by decide) hr hbody

end

/-- Settles O32: the three checks come before anything is read; then the walk stops where a bit or room is missing. -/
theorem unpackFaultsInOrder : Obligations.UnpackFaultsInOrder := by
  intro s hr hp ho
  refine ⟨fun htv => ?_, fun htv hout => ?_, fun t h hcap hpos => ⟨fun hleaf hn => ?_, fun ks hb hks => ⟨?_, ?_⟩⟩⟩
  · exact exec_faults_unchanged (i := .unpack) (by decide) hr (if_pos htv)
  · have hbody : bodyUnpack s.flagsAccepted = .raise .iRange s.flagsAccepted := by
      rw [bodyUnpack, if_neg (by simp [htv]), checkIn_raise s.flagsAccepted hout, Res.bind_raise]
    exact exec_faults_unchanged (i := .unpack) (by decide) hr hbody
  · exact exec_faults_unchanged (i := .unpack) (by decide) hr
      (bodyUnpack_degenerate (s := s.flagsAccepted) h hcap hpos hleaf hn)
  · exact fun _ _ _ hbits hc hy hn hroom => exec_unpack_exhausted hr hp h hcap hpos hb hks hbits hc hy hn hroom
  · exact fun hbits hn hfull => exec_unpack_full hr hp h hcap hpos hb hks ho hbits hn hfull

end Sys2Proof.Machine
end

section
/-! PROOFS. The control commands, the flags at completion, and that no command and no step stops the machine
(46_control_composite.md rules R231 to R234, 70_reset_and_hazards.md rule R297). -/

namespace Sys2Proof.Machine

/-! ### Control commands and completion (R231 to R234) -/

/-- Settles O6: the body does nothing, and completion sets `DONE`. -/
theorem nopOnlySetsDone : Obligations.NopOnlySetsDone := by
  intro s hr
  rw [exec_completes (i := .nop) (by decide) hr (t := s.flagsAccepted) rfl, State.flagsCompleted, State.flagsAccepted,
    ← hr.1]

/-- Settles O8: the body empties the output stream, and completion sets `DONE`. -/
theorem orstEmptiesTheOutput : Obligations.OrstEmptiesTheOutput := by
  intro s hr
  rw [exec_completes (i := .orst) (by decide) hr (t := s.flagsAccepted.resetOlen) rfl, State.flagsCompleted, ← hr.1]
  rfl

/-- Settles O7: ACK clears the outcome flags, on which `irq` depends, and `ERR` keeps every other command out. -/
theorem ackClearsTheOutcome : Obligations.AckClearsTheOutcome := by
  refine ⟨fun s hb => ?_, fun i s _ he hi => exec_ignored i s (.inr ⟨he, hi⟩)⟩
  have hack : exec .ack s = .next s.flagsAcknowledged := runAck_eq s hb
  refine ⟨by rw [hack, State.flagsAcknowledged, ← hb], fun s' h => ?_⟩
  cases hack.symm.trans h
  simp [State.irq]

/-- Settles O40: a command other than ACK that was accepted has completed, which sets `DONE`, or has set `ERR`. -/
theorem completionSetsDone : Obligations.CompletionSetsDone := by
  intro i s s' hr h herr
  by_cases hi : i = .ack
  · subst hi
    cases (runAck_eq s hr.1).symm.trans h
    exact ⟨rfl, rfl⟩
  · rw [exec_eq_runCommand i hi] at h
    rw [if_neg hi]
    rcases runCommand_cases _ s s' h with ⟨hignored, -⟩ | ⟨-, t, -, rfl⟩ | ⟨-, f, t, -, rfl⟩
    · simp [hr.1, hr.2] at hignored
    · exact ⟨rfl, rfl⟩
    · cases herr

/-! ### Bodies that do not stop the machine -/

/-- A body that completes or raises a fault. -/
def Res.answers {α : Type} : Res α → Prop
  | .ok _ _ => True
  | .raise _ _ => True
  | .stuck _ => False

theorem Res.answers_bind {α β : Type} {r : Res α} {k : α → State → Res β} (h : r.answers)
    (hk : ∀ a s, r = .ok a s → (k a s).answers) : (r.bind k).answers := by
  cases r with
  | ok a s => exact hk a s rfl
  | raise f s => trivial
  | stuck e => exact h

/-- The second body may need what the first one leaves. -/
theorem Res.answers_andThen {P : State → Prop} {r : Res Unit} {k : State → Res Unit} (h : r.answers) (hr : r.ends P)
    (hk : ∀ s, P s → (k s).answers) : (r.andThen k).answers :=
  Res.answers_bind h (fun _ s hs => hk s (by rwa [hs] at hr))

theorem checkIn_answers (s : State) : (checkIn s).answers := by
  unfold checkIn
  split <;> trivial

theorem obufAppend_answers (b : Byte) (s : State) : (obufAppend b s).answers := by
  unfold obufAppend
  split <;> trivial

theorem obufAppendAll_answers (bs : List Byte) (s : State) : (obufAppendAll bs s).answers := by
  unfold obufAppendAll
  split <;> trivial

theorem bodyHist_answers (s : State) : (bodyHist s).answers :=
  Res.answers_bind (checkIn_answers s) (fun _ _ _ => trivial)

theorem bodyRdsize_answers (s : State) : (bodyRdsize s).answers :=
  Res.answers_bind (checkIn_answers s) (fun _ t _ => by
    dsimp only
    split <;> trivial)

/-! ### PACK -/

theorem packBits_answers (bs : List Bool) (p : PackAcc) (s : State) : (packBits bs p s).answers := by
  induction bs generalizing p s with
  | nil => trivial
  | cons b bs ih =>
    unfold packBits
    split
    · exact Res.answers_bind (obufAppend_answers _ s) (fun _ t _ => ih _ t)
    · exact ih _ s

theorem packSymbols_answers (xs : List Byte) (p : PackAcc) (s : State) : (packSymbols xs p s).answers := by
  induction xs generalizing p s with
  | nil => trivial
  | cons x xs ih =>
    unfold packSymbols
    split
    · trivial
    · exact Res.answers_bind (packBits_answers _ p s) (fun q t _ => ih q t)

theorem flushBits_answers (p : PackAcc) (s : State) : (flushBits p s).answers := by
  unfold flushBits
  split
  · exact obufAppend_answers _ s
  · trivial

theorem bodyPack_answers (s : State) : (bodyPack s).answers :=
  Res.answers_bind (checkIn_answers s) (fun _ t _ =>
    Res.answers_bind (packSymbols_answers _ _ t) (fun q u _ => flushBits_answers q u))

/-! ### GEN and SER: a tree that is held is walked to its end -/

/-- The tree `TVALID` marks. -/
theorem StoreInv.exists_tree {s : State} (h : StoreInv s) (htv : s.tvalid = true) : ∃ t, s.holdsTree t :=
  (h.trees.tree htv).imp (fun _ ht => ⟨htv, ht⟩)

theorem bodyGen_answers {s : State} (h : StoreInv s) : (bodyGen s).answers := by
  cases htv : s.tvalid with
  | false =>
    rw [bodyGen, if_pos htv]
    trivial
  | true =>
    obtain ⟨t, ht⟩ := h.exists_tree htv
    cases hleaf : t.isLeaf with
    | true =>
      rw [bodyGen, if_neg (by simp [htv]), if_pos ((isLeafAt_root ht).trans hleaf)]
      trivial
    | false =>
      rw [bodyGen_of_holdsTree ht hleaf]
      trivial

theorem bodySer_answers {s : State} (h : StoreInv s) : (bodySer s).answers := by
  cases htv : s.tvalid with
  | false =>
    rw [bodySer, if_pos htv]
    trivial
  | true =>
    obtain ⟨t, ht⟩ := h.exists_tree htv
    rw [bodySer_of_holdsTree ht]
    exact obufAppendAll_answers _ s

/-! ### DES: the arena is full before the nesting bound is met (R177) -/

/-- Each level of `Parse` has taken an arena entry, so one level more than entries are left is enough. -/
theorem parse_answers {k : Nat} {s : State} (hn : s.ncount.toNat ≤ NNODE) (hk : NNODE < s.ncount.toNat + k)
    (p : NodeIdx) : (parse k p s).answers := by
  induction k generalizing s p with
  | zero => omega
  | succ k ih =>
    obtain ⟨f, hno⟩ | ⟨hfree, ⟨b, v, hleaf⟩ | ⟨v, hbranch⟩⟩ := noNode_or_node hn s.payload
    · obtain ⟨u, hu⟩ := parse_noNode hno k p
      rw [hu]
      trivial
    · rw [parse_leaf hfree hleaf]
      trivial
    · have hcount := count_allocNode_advance hfree p
      rw [parse_branch hfree hbranch]
      refine Res.answers_bind (ih (hcount.trans_le hfree) (by omega) _) (fun l u hl => ?_)
      obtain ⟨t, ht⟩ := parse_parsed hl (hcount.trans_le hfree)
      have hu := ht.count
      refine Res.answers_bind (ih (s := u.updateNode _ _) ht.fits ?_ _) (fun _ _ _ => trivial)
      rw [State.updateNode_ncount]
      omega

theorem bodyDes_answers (s : State) : (bodyDes s).answers :=
  Res.answers_bind (checkIn_answers s) (fun _ t _ => by
    have hparse : (parse 512 NULL t.dropTree).answers := parse_answers (by simp) (by simp) NULL
    cases hp : parse 512 NULL t.dropTree with
    | ok r u => trivial
    | raise f u => trivial
    | stuck e =>
      rw [hp] at hparse
      exact hparse)

/-! ### UNPACK: every pass consumes a bit (R297) -/

theorem ITree.exists_mem_paths (t : ITree) : ∃ b c, (b, c) ∈ t.paths := by
  have hpos : 0 < t.paths.length := by
    rw [t.length_paths]
    exact t.leaves_pos
  obtain ⟨x, hx⟩ := List.exists_mem_of_length_pos hpos
  exact ⟨x.1, x.2, hx⟩

/-- Below an internal node there is a leaf on either side. -/
theorem ITree.exists_mem_paths_cons {u : ITree} (hu : u.isLeaf = false) (bit : Bool) :
    ∃ b c, (b, bit :: c) ∈ u.paths := by
  cases u with
  | leaf i s => cases hu
  | branch i l r =>
    obtain ⟨b, c, hc⟩ := (l.select r bit).exists_mem_paths
    exact ⟨b, c, ITree.mem_paths_select.mpr hc⟩

theorem ITree.isLeaf_of_path_ne_nil {u : ITree} {b : Byte} {c : List Bool} (hc : (b, c) ∈ u.paths) (hne : c ≠ []) :
    u.isLeaf = false := by
  cases u with
  | leaf i s => exact absurd (Prod.mk.inj (List.mem_singleton.mp hc)).2 hne
  | branch i l r => rfl

theorem obufAppend_eq_ok {b : Byte} {s t : State} (h : obufAppend b s = .ok () t) : ∃ n m, t = s.withOutput n m := by
  unfold obufAppend at h
  split at h
  · cases h
  · cases h
    exact ⟨_, _, rfl⟩

theorem unpackLoop_emitted {w : Walk} {s : State} {u : ITree} {e : Nat} {q : List Bool} (he : ¬ e < s.nsize.toNat)
    (hw : w.At s u e q) (n : Nat) : unpackLoop (n + 1) w s = .ok () s := by
  rw [unpackLoop, if_neg (by rw [hw.em]; exact he)]

/-- On a held tree with an internal root the walk ends or exhausts the input within one pass more than there are bits. -/
theorem unpackLoop_answers {t : ITree} (ht : t.isLeaf = false) {q : List Bool} {w : Walk} {s : State} {u : ITree}
    {e : Nat} (h : s.holdsTree t) (hu : u.isLeaf = false) (hw : w.At s u e q) :
    (unpackLoop (q.length + 1) w s).answers := by
  induction q generalizing w s u e with
  | nil =>
    by_cases he : e < s.nsize.toNat
    · rw [unpackLoop_noBit he hw]
      trivial
    · rw [unpackLoop_emitted he hw]
      trivial
  | cons bit q ih =>
    by_cases he : e < s.nsize.toNat
    · obtain ⟨b, c, hc⟩ := u.exists_mem_paths_cons hu bit
      by_cases hlast : c = []
      · subst hlast
        obtain ⟨w', p, hw', hstep⟩ := unpackLoop_lastBit he hw h hc
        rw [hstep]
        refine Res.answers_bind (obufAppend_answers b _) (fun _ s' hs' => ?_)
        obtain ⟨n, m, rfl⟩ := obufAppend_eq_ok hs'
        exact ih (s := (s.readTo p).withOutput n m) h ht (hw'.withOutput n m)
      · obtain ⟨v, w', p, hw', hv, hstep⟩ := unpackLoop_bit he hw hc hlast
        rw [hstep]
        exact ih (s := s.readTo p) h (ITree.isLeaf_of_path_ne_nil hv hlast) hw'
    · rw [unpackLoop_emitted he hw]
      trivial

theorem bodyUnpack_answers {s : State} (h : StoreInv s) : (bodyUnpack s).answers := by
  cases htv : s.tvalid with
  | false =>
    rw [bodyUnpack, if_pos htv]
    trivial
  | true =>
    obtain ⟨t, ht⟩ := h.exists_tree htv
    by_cases hin : s.ilen.toNat ≤ s.params.ibufCap ∧ s.ipos.toNat ≤ s.ilen.toNat
    · obtain ⟨hcap, hpos⟩ := hin
      have ⟨_, hidx, hheld, _⟩ := ht
      have hstart : Walk.At ⟨s.root, 0, 0, 0⟩ s t 0 (streamBits s.payload) :=
        ⟨⟨NULL, hheld⟩, hidx.symm, rfl, unread_start hpos⟩
      by_cases hn : s.nsize.toNat = 0
      · rw [bodyUnpack_of_holdsTree ht hcap hpos (.inr hn), unpackLoop_emitted (by omega) hstart]
        trivial
      · cases hleaf : t.isLeaf with
        | true =>
          rw [bodyUnpack_degenerate ht hcap hpos hleaf (Nat.pos_of_ne_zero hn)]
          trivial
        | false =>
          rw [bodyUnpack_of_holdsTree ht hcap hpos (.inl hleaf)]
          exact unpackLoop_answers hleaf ht hleaf hstart
    · rw [bodyUnpack, if_neg (by simp [htv]), checkIn_raise s hin]
      trivial

/-! ### The composites, every command, every step -/

theorem bodyCompress_answers {s : State} (h : StoreInv s) : (bodyCompress s).answers := by
  have hs : StoreInv s.startCompress := { h with output := h.output.empty }
  have hbuild (t : State) : (bodyBuild t).answers := trivial
  have hkeeps := bodyBuild_inv
  unfold bodyCompress
  generalize bodyBuild = build at hbuild hkeeps ⊢
  refine Res.answers_andThen (bodyHist_answers _) (bodyHist_inv _ hs) (fun t ht => ?_)
  refine Res.answers_andThen (hbuild t) (hkeeps t ht) (fun t ht => ?_)
  refine Res.answers_andThen (bodyGen_answers ht) (bodyGen_inv t ht) (fun t ht => ?_)
  refine Res.answers_andThen (obufAppendAll_answers _ t) (bodyWrsize_inv t ht) (fun t ht => ?_)
  exact Res.answers_andThen (bodySer_answers ht) (bodySer_inv t ht) (fun t _ => bodyPack_answers t)

theorem bodyDecompress_answers {s : State} (h : StoreInv s) : (bodyDecompress s).answers := by
  have hs : StoreInv s.startDecompress := { h with output := h.output.empty }
  refine Res.answers_andThen (bodyRdsize_answers _) (bodyRdsize_inv _ hs) (fun t ht => ?_)
  exact Res.answers_andThen (bodyDes_answers t) (bodyDes_inv t ht) (fun t ht => bodyUnpack_answers ht)

/-- No command's body stops the machine in a state whose store meets the invariant. -/
theorem bodyOf_answers (i : Instr) {s : State} (h : StoreInv s) : (bodyOf i s).answers := by
  cases i with
  | nop => trivial
  | ack => trivial
  | orst => trivial
  | hist => exact bodyHist_answers s
  | build => trivial
  | gen => exact bodyGen_answers h
  | ser => exact bodySer_answers h
  | des => exact bodyDes_answers s
  | pack => exact bodyPack_answers s
  | unpack => exact bodyUnpack_answers h
  | wrsize => exact obufAppendAll_answers _ s
  | rdsize => exact bodyRdsize_answers s
  | compress => exact bodyCompress_answers h
  | decompress => exact bodyDecompress_answers h

/-- A command whose body stops nothing answers a next state, by its completion or its fault. -/
theorem settle_answers (s : State) {r : Res Unit} (h : r.answers) : ∃ s', settle s r = .next s' := by
  cases r with
  | ok u t => exact ⟨_, rfl⟩
  | raise f t => exact ⟨_, rfl⟩
  | stuck e => exact absurd h id

theorem exec_answers (i : Instr) {s : State} (h : StoreInv s) : ∃ s', exec i s = .next s' := by
  by_cases hig : s.busy = true ∨ (s.err = true ∧ i ≠ .ack)
  · exact ⟨s, exec_ignored i s hig⟩
  · obtain ⟨hb, he⟩ := not_or.mp hig
    by_cases hi : i = .ack
    · subst hi
      exact ⟨_, runAck_eq s (by simpa using hb)⟩
    · rw [exec_eq_runCommand i hi, runCommand_ready _ s ⟨by simpa using hb, by simpa [hi] using he⟩]
      exact settle_answers s (bodyOf_answers i { h with })

/-- Settles O60: a step is idle, a port access, a rejected word or a command, whose body completes or faults. -/
theorem noStepStopsTheMachine : Obligations.NoStepStopsTheMachine := by
  intro s h
  have hstore : StoreInv s := ((inv_iff s).mp h).2
  rcases step_cases s with ⟨-, hs⟩ | ⟨_, w, rest, -, -, hs⟩ | ⟨op, rest, -, -, hs⟩ <;> rw [hs]
  · exact ⟨s, rfl⟩
  · rcases submit_cases w (taken rest s) with ⟨i, -, hw⟩ | ⟨-, hw⟩ <;> rw [hw]
    · exact exec_answers i { hstore with }
    · exact ⟨_, rfl⟩
  · exact ⟨_, rfl⟩

end Sys2Proof.Machine
end

section
/-! PROOFS. The composites are their parts: as long as the parts complete, one accepted command and separately issued
commands run the same bodies; after a fault the later parts are ignored (46_control_composite.md rules R235 to R239). -/

namespace Sys2Proof.Machine

theorem Res.andThen_assoc (r : Res Unit) (k l : State → Res Unit) :
    (r.andThen k).andThen l = r.andThen (fun s => (k s).andThen l) :=
  Res.bind_assoc r _ _

/-- Completion and the next acceptance undo each other while a command runs (R230, R231). -/
theorem flagsAccepted_flagsCompleted {s : State} (hb : s.busy = true) (hd : s.done = false) :
    s.flagsCompleted.flagsAccepted = s := by
  cases s
  cases hb
  cases hd
  rfl

/-- A composite accepted in `s` has come to the result `r` of its body's first parts, and these parts, issued as separate
commands, have come to the outcome `o`. -/
inductive RunsAsParts (s : State) : Res Unit → Host.Outcome State Fault Refusal → Prop
  | completed {t : State} (h : SameHostSide s.flagsAccepted t) : RunsAsParts s (.ok () t) (.next t.flagsCompleted)
  | faulted {t u : State} (f : FaultCode) (h : t.ilen = s.ilen) : RunsAsParts s (.raise f u) (.next (takeFault t f u))
  | stopped (e : Fault) : RunsAsParts s (.stuck e) (.fault e)

/-- One part, issued in a state from which its body runs as in the composite. -/
theorem runsAsParts_exec {s t : State} {i : Instr} (hi : i ≠ .ack) (ht : t.ready)
    (h : SameHostSide s.flagsAccepted t.flagsAccepted) : RunsAsParts s (bodyOf i t.flagsAccepted) (exec i t) := by
  rw [exec_eq_runCommand i hi, runCommand_ready _ t ht]
  have hkeeps := bodyOf_keeps i t.flagsAccepted
  generalize bodyOf i t.flagsAccepted = r at hkeeps ⊢
  cases r with
  | ok a u => exact .completed (h.trans hkeeps)
  | raise f u => exact .faulted f h.ilen
  | stuck e => exact .stopped e

section
variable {s : State} (hr : s.ready)
include hr

/-- One part more. -/
theorem RunsAsParts.andThen {r : Res Unit} {o : Host.Outcome State Fault Refusal} (h : RunsAsParts s r o) {i : Instr}
    (hi : i ≠ .ack) : RunsAsParts s (r.andThen (bodyOf i)) (thenExec o i) := by
  cases h with
  | @completed t h =>
    have hback : t.flagsCompleted.flagsAccepted = t := flagsAccepted_flagsCompleted h.busy h.done
    have hready : t.flagsCompleted.ready := ⟨rfl, h.err.trans hr.2⟩
    have hpart := runsAsParts_exec hi hready (hback.symm ▸ h)
    rwa [hback] at hpart
  | @faulted t u f h =>
    have hignored : exec i (takeFault t f u) = .next (takeFault t f u) := exec_ignored i _ (.inr ⟨rfl, hi⟩)
    rw [Res.andThen_raise, thenExec, hignored]
    exact .faulted f h
  | stopped e => exact .stopped e

/-- Where all parts have run, the composite gives what they give, or faults as they do and rolls back to its own
acceptance (R239). -/
theorem RunsAsParts.runCommand {body : State → Res Unit} {o : Host.Outcome State Fault Refusal} {s' : State}
    (h : RunsAsParts s (body s.flagsAccepted) o) (ho : o = .next s') :
    (s'.err = false → runCommand body s = .next s') ∧
    (s'.err = true → ∃ u, runCommand body s = .next u ∧ rolledBackTo s s' u) := by
  rw [runCommand_ready body s hr]
  generalize body s.flagsAccepted = r at h ⊢
  cases h with
  | @completed t h =>
    cases ho
    have herr : t.flagsCompleted.err = false := h.err.trans hr.2
    exact ⟨fun _ => rfl, fun he => absurd (herr.symm.trans he) nofun⟩
  | @faulted t u f h =>
    cases ho
    refine ⟨nofun, fun _ => ⟨_, rfl, ?_, fun _ _ => rfl⟩⟩
    rw [takeFault, takeFault, State.flagsFaulted, State.flagsFaulted, h]
  | stopped e => cases ho

end

/-- Settles O37: COMPRESS's body is the bodies of its parts in sequence. -/
theorem compressEqualsItsParts : Obligations.CompressEqualsItsParts := by
  intro s s' hr h
  have hhist := runsAsParts_exec (s := s) (i := .hist) (by decide) (t := s.startCompress) hr
    ⟨rfl, rfl, rfl, rfl, rfl, rfl, rfl, rfl, rfl, rfl, rfl, rfl⟩
  have hall := ((((hhist.andThen hr (i := .build) (by decide)).andThen hr (i := .gen) (by decide)).andThen hr
    (i := .wrsize) (by decide)).andThen hr (i := .ser) (by decide)).andThen hr (i := .pack) (by decide)
  simp only [Res.andThen_assoc] at hall
  exact RunsAsParts.runCommand hr (body := bodyCompress) hall h

/-- Settles O38: DECOMPRESS's body is the bodies of its parts in sequence. -/
theorem decompressEqualsItsParts : Obligations.DecompressEqualsItsParts := by
  intro s s' hr h
  have hrdsize := runsAsParts_exec (s := s) (i := .rdsize) (by decide) (t := s.startDecompress) hr
    ⟨rfl, rfl, rfl, rfl, rfl, rfl, rfl, rfl, rfl, rfl, rfl, rfl⟩
  have hall := (hrdsize.andThen hr (i := .des) (by decide)).andThen hr (i := .unpack) (by decide)
  simp only [Res.andThen_assoc] at hall
  exact RunsAsParts.runCommand hr (body := bodyDecompress) hall h

end Sys2Proof.Machine
end

section
/-! PROOFS. COMPRESS: what its producing parts leave, and that its appending parts append the size field, the serialized
tree and the packed codes, all or not at all (46_control_composite.md rule R235). -/

namespace Sys2Proof.Machine

/-! ### Appends in sequence -/

theorem appended_append {s t u : State} {bs cs : List Byte} (h : appended s t bs) (h' : appended t u cs) :
    appended s u (bs ++ cs) := by
  obtain ⟨hlen, hnew, hold⟩ := h
  obtain ⟨hlen', hnew', hold'⟩ := h'
  refine ⟨by rw [hlen', hlen, List.length_append]; omega, fun k hk => ?_, fun a ha => ?_⟩
  · by_cases hlt : k < bs.length
    · rw [List.getElem_append_left hlt, hold' _ (.inl (by omega))]
      exact hnew k hlt
    · rw [List.length_append] at hk
      rw [List.getElem_append_right (by omega), ← hnew' (k - bs.length) (by omega)]
      congr 1
      omega
  · rw [List.length_append] at ha
    rw [hold' a (by omega), hold a (by omega)]

/-- What has been appended to the empty output stream is the output. -/
theorem output_of_appended {s s' : State} {bs : List Byte} (h : appended s s' bs) (h0 : s.olen = 0) :
    s'.output = bs := by
  obtain ⟨hlen, hnew, -⟩ := h
  have hstart : s.olen.toNat = 0 := by rw [h0]; rfl
  rw [hstart, Nat.zero_add] at hlen
  simp only [hstart, Nat.zero_add] at hnew
  refine List.ext_getElem (by simp [State.output, hlen]) (fun k _ hk => ?_)
  simp [State.output, hnew k hk]

/-- A body that starts in `s` appends `bs` where they fit and faults with `F_OBUF_FULL` where they do not, and touches
nothing but the output stream. -/
structure AppendsOrFull (bs : List Byte) (s : State) (r : Res Unit) : Prop where
  fits : s.olen.toNat + bs.length ≤ s.params.obufCap →
    ∃ n m, r = .ok () (s.withOutput n m) ∧ appended s (s.withOutput n m) bs
  full : s.params.obufCap < s.olen.toNat + bs.length → ∃ n m, r = .raise .obufFull (s.withOutput n m)

section
variable {s : State} (hp : s.params.wf = true) (ho : s.olen.toNat ≤ s.params.obufCap)
include hp ho

theorem obufAppendAll_appends (bs : List Byte) : AppendsOrFull bs s (obufAppendAll bs s) :=
  ⟨fun h => ⟨_, _, obufAppendAll_fits bs s h, appended_writeAll bs s hp h⟩,
    fun h => ⟨s.olen, s.obuf, obufAppendAll_raise bs s ho h⟩⟩

theorem obufAppendEach_appends (bs : List Byte) : AppendsOrFull bs s (obufAppendEach bs s) :=
  ⟨obufAppendEach_fits bs s hp, obufAppendEach_full bs s hp ho⟩

end

/-- Two bodies that append, in sequence. -/
theorem AppendsOrFull.andThen {bs cs : List Byte} {s : State} {r : Res Unit} {k : State → Res Unit}
    (h : AppendsOrFull bs s r)
    (hk : ∀ n m, n.toNat ≤ s.params.obufCap → AppendsOrFull cs (s.withOutput n m) (k (s.withOutput n m))) :
    AppendsOrFull (bs ++ cs) s (r.andThen k) := by
  by_cases hroom : s.olen.toNat + bs.length ≤ s.params.obufCap
  · obtain ⟨n, m, hr, happ⟩ := h.fits hroom
    have hn : n.toNat = s.olen.toNat + bs.length := happ.1
    obtain ⟨hfits, hfull⟩ := hk n m (by omega)
    rw [State.withOutput_olen, State.withOutput_params, hn] at hfits hfull
    rw [hr, Res.andThen_ok]
    refine ⟨fun hall => ?_, fun hall => ?_⟩ <;> rw [List.length_append, ← Nat.add_assoc] at hall
    · obtain ⟨n', m', hk, happ'⟩ := hfits hall
      exact ⟨n', m', hk, appended_append happ happ'⟩
    · exact hfull hall
  · obtain ⟨n, m, hr⟩ := h.full (not_le.mp hroom)
    rw [hr, Res.andThen_raise]
    refine ⟨fun hall => absurd hall ?_, fun _ => ⟨n, m, rfl⟩⟩
    rw [List.length_append]
    omega

/-! ### Trees over the alphabet and their codes -/

theorem ITree.coversAlphabet.leaves {t : ITree} (h : t.coversAlphabet) : t.leaves = 256 := by
  simpa [ITree.symbols] using h.length_eq

/-- The serialized tree of 256 symbols has 767 bytes (R98). -/
theorem ITree.coversAlphabet.length_bytes {t : ITree} (h : t.coversAlphabet) : t.bytes.length = 767 := by
  have hbytes := t.length_bytes
  have hleaves := h.leaves
  omega

theorem ITree.coversAlphabet.depth_le {t : ITree} (h : t.coversAlphabet) : t.depth ≤ 255 := by
  have hdepth := t.depth_lt_leaves
  have hleaves := h.leaves
  omega

/-- No code is empty (R154). -/
theorem ITree.coversAlphabet.allCoded {t : ITree} (h : t.coversAlphabet) (xs : List Byte) :
    allCoded (codeTableOf t) xs := by
  intro x _ hlen
  obtain ⟨p, hp⟩ := h.exists_path x
  have hplen := (h.code h.depth_le hp).1
  rw [hlen] at hplen
  exact ITree.path_ne_nil h.isLeaf hp (List.eq_nil_of_length_eq_zero hplen.symm)

/-- A code has at most 255 bits (R38). -/
theorem length_codeBits_le (c : Table Code 8) (xs : List Byte) : (codeBits c xs).length ≤ 255 * xs.length := by
  induction xs with
  | nil => exact Nat.le_refl 0
  | cons x xs ih =>
    have hcode : (c.get x).toBits.length = (c.get x).len.toNat := by simp [Code.toBits]
    have hlt := (c.get x).len.isLt
    rw [show codeBits c (x :: xs) = (c.get x).toBits ++ codeBits c xs from List.flatMap_cons, List.length_append,
      List.length_cons, hcode]
    omega

/-! ### The artifact (R95) -/

/-- The size field, the serialized tree and the packed codes (R95). -/
def artifact (t : ITree) (payload : List Byte) : List Byte :=
  sizeBytes (BitVec.ofNat 32 payload.length) ++ t.bytes ++ packed (codeBits (codeTableOf t) payload)

theorem ITree.coversAlphabet.length_artifact {t : ITree} (h : t.coversAlphabet) (payload : List Byte) :
    (artifact t payload).length = 771 + ((codeBits (codeTableOf t) payload).length + 7) / 8 := by
  rw [artifact, List.length_append, List.length_append, h.length_bytes, length_packed]
  rfl

@[simp] theorem State.length_input (s : State) : s.input.length = s.ilen.toNat := by simp [State.input]

/-- The size field of an engine's own input is `ILEN`. -/
theorem artifact_input (t : ITree) (s : State) :
    artifact t s.input = sizeBytes s.ilen ++ t.bytes ++ packed (codeBits (codeTableOf t) s.input) := by
  simp [artifact]

/-- The state of a COMPRESS after HIST and BUILD: the histogram of the input and a tree in the arena `nd` (R235). -/
def State.built (nd : Table Node 9) (s : State) : State :=
  { s.startCompress with hist := histogramOf s.input, node := nd, root := 510, ncount := 511, tvalid := true }

/-- The state of a COMPRESS before its first append: the tree `t` of the arena `nd` and its codes besides (R235). -/
def State.coded (t : ITree) (nd : Table Node 9) (s : State) : State := (s.built nd).withCodes t

/-- The appending parts of COMPRESS, after HIST, BUILD and GEN (R235). -/
theorem appends_artifact {t : ITree} {nd : Table Node 9} {s : State} (hp : s.params.wf = true)
    (ht : (s.coded t nd).holdsTree t) (hcovers : t.coversAlphabet)
    (hin : s.ilen.toNat ≤ s.params.ibufCap) :
    AppendsOrFull (artifact t s.input) (s.coded t nd)
      ((bodyWrsize (s.coded t nd)).andThen (fun u => (bodySer u).andThen bodyPack)) := by
  rw [artifact_input, List.append_assoc]
  refine (obufAppendAll_appends (s := s.coded t nd) hp (Nat.zero_le _) _).andThen (fun n m hn => ?_)
  have hser : bodySer ((s.coded t nd).withOutput n m) = obufAppendAll t.bytes _ := bodySer_of_holdsTree ht
  rw [hser]
  refine (obufAppendAll_appends (s := (s.coded t nd).withOutput n m) hp hn _).andThen (fun n' m' hn' => ?_)
  rw [State.withOutput_withOutput]
  have hpayload : ((s.coded t nd).withOutput n' m').payload = s.input := State.payload_eq_input _ rfl
  have hpack := bodyPack_allCoded (s := (s.coded t nd).withOutput n' m') hin (Nat.zero_le _)
    (hcovers.allCoded _)
  rw [hpack, hpayload]
  exact obufAppendEach_appends (s := (s.coded t nd).withOutput n' m') hp hn' _

/-- COMPRESS's body in range: a full tree over the alphabet, its codes, then the appends of its artifact (R235). -/
theorem bodyCompress_inRange {s : State} (hp : s.params.wf = true) (hin : s.ilen.toNat ≤ s.params.ibufCap) :
    ∃ t nd, t.coversAlphabet ∧ (s.coded t nd).holdsTree t ∧
      AppendsOrFull (artifact t s.input) (s.coded t nd) (bodyCompress s) := by
  obtain ⟨t, hidx, hheld, hocc, hcovers⟩ :=
    buildWith_tree (fun ws => (stableOrder_conforming ws).1) .leftIsSecondToLast (histogramOf s.input)
  have hhist := bodyHist_inRange s.startCompress ((State.inputInRange_iff _).mpr ⟨hin, Nat.zero_le _⟩)
  rw [State.payload_eq_input s.startCompress rfl, State.startCompress_input] at hhist
  have hbuild := bodyBuild_eq { s.startCompress with hist := histogramOf s.input }
  dsimp only at hbuild
  rw [rootOf_buildWith stableOrder_conforming] at hbuild hidx
  unfold bodyCompress
  generalize buildWith stableOrder .leftIsSecondToLast (histogramOf s.input) = r at hbuild hheld
  generalize bodyBuild = build at hbuild ⊢
  have hbuilt : (s.built r.2).holdsTree t := ⟨rfl, hidx, hheld, hocc⟩
  have hgen := bodyGen_of_holdsTree hbuilt hcovers.isLeaf
  rw [State.built] at hgen
  rw [hhist, Res.andThen_ok, hbuild, Res.andThen_ok, hgen, Res.andThen_ok]
  exact ⟨t, r.2, hcovers, hbuilt.withCodes, appends_artifact hp hbuilt.withCodes hcovers hin⟩

/-! ### The command -/

/-- A body that faults, inside the life of the command (R252). -/
theorem exec_faults {i : Instr} (hi : i ≠ .ack) {s t : State} (hr : s.ready) {f : FaultCode}
    (h : bodyOf i s.flagsAccepted = .raise f t) : exec i s = .next (takeFault s f t) :=
  (exec_eq_runCommand i hi s).trans (runCommand_faults (bodyOf i) s t f hr h)

/-- COMPRESS in range: it completes with the artifact where this fits, and else leaves the tree, its codes and the
histogram behind and rolls everything else back (R235, R239). -/
theorem exec_compress_inRange {s : State} (hr : s.ready) (hp : s.params.wf = true)
    (hin : s.ilen.toNat ≤ s.params.ibufCap) :
    ∃ t nd, t.coversAlphabet ∧ (s.coded t nd).holdsTree t ∧
      ((artifact t s.input).length ≤ s.params.obufCap →
        ∃ n m, exec .compress s = .next { (s.coded t nd).withOutput n m with done := true } ∧
          appended s.startCompress (s.startCompress.withOutput n m) (artifact t s.input)) ∧
      (s.params.obufCap < (artifact t s.input).length →
        exec .compress s = .next { s.faulted .obufFull with
          tvalid := true, root := 510, ncount := 511, hist := histogramOf s.input
          node := (s.coded t nd).node, code := codeTableOf t }) := by
  obtain ⟨t, nd, hcovers, htree, hfits, hfull⟩ := bodyCompress_inRange (s := s.flagsAccepted) hp hin
  refine ⟨t, nd, hcovers, htree, fun hroom => ?_, fun hroom => ?_⟩
  · obtain ⟨n, m, hbody, happ⟩ := hfits ((Nat.zero_add _).trans_le hroom)
    refine ⟨n, m, ?_, happ⟩
    rw [exec_completes (i := .compress) (by decide) hr hbody]
    show _ = Host.Outcome.next { (s.coded t nd).withOutput n m with busy := s.busy, done := true }
    rw [hr.1]
    rfl
  · obtain ⟨n, m, hbody⟩ := hfull (hroom.trans_eq (Nat.zero_add _).symm)
    rw [exec_faults (i := .compress) (by decide) hr hbody, State.faulted, hr.1]
    rfl

/-- Settles O34: the body's appends make the artifact, or do not fit, which is a fault. -/
theorem compressProducesTheArtifact : Obligations.CompressProducesTheArtifact := by
  intro s hr hp
  refine ⟨fun hout => ?_, fun hin => ?_⟩
  · have hbody : bodyCompress s.flagsAccepted = .raise .iRange s.flagsAccepted.startCompress := by
      rw [bodyCompress, bodyHist_outOfRange s.flagsAccepted.startCompress (fun h => absurd h.1 (not_le.mpr hout)),
        Res.andThen_raise]
    rw [exec_faults (i := .compress) (by decide) hr hbody, State.faulted, hr.1]
    rfl
  · obtain ⟨t, nd, hcovers, htree, hfits, hfull⟩ := exec_compress_inRange hr hp hin
    have hlen := hcovers.length_artifact s.input
    have hhist := histogramOf_eq_tabulate s.input
    refine ⟨t, hcovers, hcovers.leaves, ?_⟩
    by_cases hroom : (artifact t s.input).length ≤ s.params.obufCap
    · obtain ⟨n, m, hexec, happ⟩ := hfits hroom
      refine ⟨_, hexec, htree, rfl, rfl, rfl, hhist, fun _ => ⟨?_, ?_, rfl⟩, fun hno => ?_⟩
      · exact (output_of_appended happ rfl).trans (artifact_input t s)
      · exact happ.1.trans ((Nat.zero_add _).trans hlen)
      · exact absurd hno (not_lt.mpr (hlen ▸ hroom))
    · refine ⟨_, hfull (not_le.mp hroom), htree, rfl, rfl, rfl, hhist, fun hno => ?_,
        fun _ => ⟨rfl, fun _ _ => rfl⟩⟩
      exact absurd (hlen.trans_le hno) hroom

end Sys2Proof.Machine
end

section
/-! PROOFS. DECOMPRESS: it reads the size field, the tree and the packed codes of an artifact back, so that it undoes
COMPRESS (46_control_composite.md rules R236, R238). -/

namespace Sys2Proof.Machine

/-! ### RDSIZE of a size field -/

/-- The rest of the input `k` bytes further on. -/
theorem payload_readTo {s : State} {k : Nat} (h : s.ipos.toNat + k ≤ s.ilen.toNat) :
    (s.readTo (s.ipos + BitVec.ofNat 32 k)).payload = s.payload.drop k := by
  have hlt := s.ilen.isLt
  have hpos : (s.ipos + BitVec.ofNat 32 k).toNat = s.ipos.toNat + k := by
    rw [BitVec.toNat_add, BitVec.toNat_ofNat]
    omega
  refine List.ext_getElem ?_ (fun j hj _ => ?_)
  · rw [State.payload_length, List.length_drop, State.payload_length]
    show s.ilen.toNat - (s.ipos + BitVec.ofNat 32 k).toNat = _
    omega
  · rw [State.payload_getElem, List.getElem_drop, State.payload_getElem, ← Nat.add_assoc]
    show s.ibufByte ((s.ipos + BitVec.ofNat 32 k).toNat + j) = _
    rw [hpos]

@[simp] theorem length_sizeBytes (n : Word) : (sizeBytes n).length = 4 := rfl

/-- RDSIZE's body on a size field (R215, R96). -/
theorem bodyRdsize_reads {s : State} (hcap : s.ilen.toNat ≤ s.params.ibufCap) (hpos : s.ipos.toNat ≤ s.ilen.toNat)
    {n : Word} {rest : List Byte} (h : s.payload = sizeBytes n ++ rest) :
    bodyRdsize s = .ok () { s with nsize := n, ipos := s.ipos + 4 } ∧
      State.payload { s with nsize := n, ipos := s.ipos + 4 } = rest := by
  have hlen := congrArg List.length h
  rw [State.payload_length, List.length_append, length_sizeBytes] at hlen
  have hbyte (k : Nat) (hk : k < (sizeBytes n).length) : s.ibufByte (s.ipos.toNat + k) = (sizeBytes n)[k] := by
    have hk' : k < s.payload.length := by
      rw [h, List.length_append]
      omega
    rw [← s.payload_getElem k hk', List.getElem_of_eq h, List.getElem_append_left hk]
  refine ⟨?_, ?_⟩
  · rw [bodyRdsize_inRange hcap hpos (by omega)]
    have hfirst := hbyte 0 (by simp)
    rw [Nat.add_zero] at hfirst
    rw [hfirst, hbyte 1 (by simp), hbyte 2 (by simp), hbyte 3 (by simp)]
    exact congrArg (fun m => Res.ok () { s with nsize := m, ipos := s.ipos + 4 }) (sizeOfBytes_sizeBytes n)
  · have hdrop := payload_readTo (s := s) (k := 4) (by omega)
    rw [h] at hdrop
    exact hdrop

/-! ### The bits of a packed bitstream (R68, R100) -/

theorem getElem_lowBits (y : Byte) (k j : Nat) (hj : j < (lowBits y k).length) :
    (lowBits y k)[j] = y.getLsbD (k - 1 - j) := by
  induction k generalizing j with
  | zero => simp at hj
  | succ k ih =>
    cases j with
    | zero => rfl
    | succ j =>
      simp only [lowBits, List.getElem_cons_succ]
      rw [ih j (by simpa [lowBits] using hj)]
      congr 1
      omega

/-- A byte that spells eight bits has these bits. -/
theorem lowBits_ofNat_bitsToNat {u : List Bool} (hu : u.length = 8) : lowBits (BitVec.ofNat 8 (bitsToNat u)) 8 = u := by
  refine List.ext_getElem (by simp [hu]) (fun j hj hj' => ?_)
  rw [getElem_lowBits, BitVec.getLsbD_ofNat, ← testBit_bitsToNat u j hj', hu]
  simp
  omega

/-- Fewer than eight bits are padded with zeros to one byte (R101). -/
theorem streamBits_packed_short {q : List Bool} (hq : q.length < 8) : q <+: streamBits (packed q) := by
  rcases q.length.eq_zero_or_pos with h | h
  · rw [List.eq_nil_of_length_eq_zero h]
    exact List.nil_prefix
  · have hpad : (q ++ List.replicate (8 - q.length) false).length = 8 := by simp; omega
    have hval : BitVec.ofNat 8 (bitsToNat q) <<< (8 - q.length) =
        BitVec.ofNat 8 (bitsToNat (q ++ List.replicate (8 - q.length) false)) := by
      rw [bitsToNat_append, bitsToNat_replicate_false, Nat.add_zero, List.length_replicate, ofNat_shiftLeft]
    rw [packed_short hq h, hval, streamBits_cons, lowBits_ofNat_bitsToNat hpad, List.append_assoc]
    exact ⟨_, rfl⟩

/-- The packed bitstream starts with the bits packed. -/
theorem bits_isPrefix_streamBits_packed (bits : List Bool) : bits <+: streamBits (packed bits) := by
  induction hn : bits.length using Nat.strong_induction_on generalizing bits with
  | _ n ih =>
    by_cases hshort : bits.length < 8
    · exact streamBits_packed_short hshort
    · have hu : (bits.take 8).length = 8 := by simp; omega
      obtain ⟨q, hq⟩ := ih (bits.drop 8).length (by simp; omega) (bits.drop 8) rfl
      have hpacked := packed_append hu (bits.drop 8)
      rw [List.take_append_drop] at hpacked
      rw [hpacked, streamBits_cons, lowBits_ofNat_bitsToNat hu, ← hq, ← List.append_assoc, List.take_append_drop]
      exact ⟨q, rfl⟩

theorem streamBits_append (xs ys : List Byte) : streamBits (xs ++ ys) = streamBits xs ++ streamBits ys :=
  List.flatMap_append

/-! ### UNPACK of packed codes -/

/-- The leaves whose paths the codes of a payload are, with these paths. -/
def leavesOf (t : ITree) (payload : List Byte) : List (Byte × List Bool) :=
  payload.map (fun x => (x, ((codeTableOf t).get x).toBits))

theorem flatMap_leavesOf (t : ITree) (payload : List Byte) :
    (leavesOf t payload).flatMap (fun x => x.2) = codeBits (codeTableOf t) payload := by
  rw [leavesOf, List.flatMap_map]
  rfl

theorem map_fst_leavesOf (t : ITree) (payload : List Byte) : (leavesOf t payload).map (fun x => x.1) = payload := by
  rw [leavesOf, List.map_map]
  exact List.map_id payload

theorem mem_paths_of_mem_leavesOf {t : ITree} (h : t.coversAlphabet) {payload : List Byte} :
    ∀ x ∈ leavesOf t payload, x ∈ t.paths := by
  intro x hx
  obtain ⟨b, -, rfl⟩ := List.mem_map.mp hx
  obtain ⟨p, hp⟩ := h.exists_path b
  rw [(h.code h.depth_le hp).2]
  exact hp

/-- UNPACK's body on the packed codes of a payload of `NSIZE` bytes (R210 to R214). -/
theorem bodyUnpack_reads {s : State} {t : ITree} {payload rest : List Byte} (hcovers : t.coversAlphabet) {i : Nat}
    (h : s.holdsTree (t.renumber i)) (hp : s.params.wf = true) (hcap : s.ilen.toNat ≤ s.params.ibufCap)
    (hpos : s.ipos.toNat ≤ s.ilen.toNat) (hn : s.nsize.toNat = payload.length)
    (hroom : s.olen.toNat + payload.length ≤ s.params.obufCap)
    (hpay : s.payload = packed (codeBits (codeTableOf t) payload) ++ rest) :
    ∃ n m, bodyUnpack s = .ok () ((s.readTo
        (s.ipos + BitVec.ofNat 32 (((codeBits (codeTableOf t) payload).length + 7) / 8))).withOutput n m) ∧
      appended s (s.withOutput n m) payload := by
  obtain ⟨q, hq⟩ := bits_isPrefix_streamBits_packed (codeBits (codeTableOf t) payload)
  have hbits : streamBits s.payload = codeBits (codeTableOf t) payload ++ (q ++ streamBits rest) := by
    rw [hpay, streamBits_append, ← hq, List.append_assoc]
  have hlen : (leavesOf t payload).length = payload.length := List.length_map _
  have hks : ∀ x ∈ leavesOf t payload, x ∈ (t.renumber i).paths := by
    rw [t.paths_renumber]
    exact mem_paths_of_mem_leavesOf hcovers
  obtain ⟨w, p, n, m, hw, happ, hbody⟩ := bodyUnpack_paths h hcap hpos hp
    (.inl ((t.isLeaf_renumber i).trans hcovers.isLeaf)) hks (hlen.trans hn.symm).le (hlen ▸ hroom)
    (flatMap_leavesOf t payload ▸ hbits)
  rw [hlen, ← hn] at hw
  rw [unpackLoop_done hw, ipos_of_unread hpos hbits hw.unread] at hbody
  exact ⟨n, m, hbody, map_fst_leavesOf t payload ▸ happ⟩

/-! ### DECOMPRESS of an artifact -/

/-- A payload that fits into `OBUF` has a 32-bit length (R11). -/
theorem toNat_length_of_room {p : Params} (hp : p.wf = true) {payload : List Byte} (h : payload.length ≤ p.obufCap) :
    (BitVec.ofNat 32 payload.length).toNat = payload.length := by
  have hcap := (Params.caps_le hp).2
  exact Nat.mod_eq_of_lt (by omega)

/-- DECOMPRESS's body on an artifact, whatever bytes stand behind it (R236). -/
theorem bodyDecompress_reads {s : State} {t : ITree} {payload rest : List Byte} (hcovers : t.coversAlphabet)
    (hp : s.params.wf = true) (hcap : s.ilen.toNat ≤ s.params.ibufCap) (hroom : payload.length ≤ s.params.obufCap)
    (hin : s.input = artifact t payload ++ rest) :
    ∃ n m nd, bodyDecompress s = .ok () { s.startDecompress.withOutput n m with
        tvalid := true, root := 0, ncount := BitVec.ofNat 10 t.size, node := nd
        nsize := BitVec.ofNat 32 payload.length, ipos := BitVec.ofNat 32 (artifact t payload).length } ∧
      State.holdsTree { s with tvalid := true, root := 0, ncount := BitVec.ofNat 10 t.size, node := nd } (t.renumber 0) ∧
      appended s.startDecompress (s.startDecompress.withOutput n m) payload := by
  have hinput : s.startDecompress.payload = sizeBytes (BitVec.ofNat 32 payload.length) ++
      (t.bytes ++ (packed (codeBits (codeTableOf t) payload) ++ rest)) := by
    rw [State.payload_eq_input _ rfl, State.startDecompress_input, hin, artifact]
    simp only [List.append_assoc]
  have hlen := congrArg List.length hin
  have hartifact := hcovers.length_artifact payload
  rw [State.length_input, List.length_append] at hlen
  obtain ⟨hrdsize, hpay1⟩ := bodyRdsize_reads (s := s.startDecompress) hcap (Nat.zero_le _) hinput
  have hsize : t.size ≤ NNODE := by
    have hnodes := t.size_eq
    have hleaves := hcovers.leaves
    show t.size ≤ 511
    omega
  obtain ⟨u, hdes, hu, hpay2, htree, -⟩ := bodyDes_reads
    (s := { s.startDecompress with nsize := BitVec.ofNat 32 payload.length, ipos := s.startDecompress.ipos + 4 })
    hcap (show 4 ≤ s.ilen.toNat by omega) hpay1 hsize
  have hipos : s.startDecompress.ipos + 4 + BitVec.ofNat 32 t.bytes.length = BitVec.ofNat 32 771 := by
    rw [hcovers.length_bytes]
    rfl
  dsimp only at hu
  rw [hipos] at hu
  generalize u.node = nd at hu
  subst hu
  obtain ⟨n, m, hunpack, happ⟩ := bodyUnpack_reads (payload := payload) hcovers htree hp hcap
    (show 771 ≤ s.ilen.toNat by omega) (toNat_length_of_room hp hroom) ((Nat.zero_add _).trans_le hroom) hpay2
  refine ⟨n, m, nd, ?_, htree, happ⟩
  rw [bodyDecompress, hrdsize, Res.andThen_ok, hdes, Res.andThen_ok, hunpack, hartifact, BitVec.ofNat_add]
  rfl

/-- DECOMPRESS of an artifact in range, with room for the payload (R236, R238). -/
theorem exec_decompress_reads {r : State} {t : ITree} {payload rest : List Byte} (hcovers : t.coversAlphabet)
    (hr : r.ready) (hp : r.params.wf = true) (hcap : r.ilen.toNat ≤ r.params.ibufCap)
    (hroom : payload.length ≤ r.params.obufCap) (hin : r.input = artifact t payload ++ rest) :
    ∃ r', exec .decompress r = .next r' ∧ r'.done = true ∧ r'.output = payload ∧
      r'.olen = BitVec.ofNat 32 payload.length ∧ r'.nsize = BitVec.ofNat 32 payload.length ∧
      r'.ipos = BitVec.ofNat 32 (artifact t payload).length ∧
      r'.holdsTree (t.renumber 0) ∧ r'.hist = r.hist ∧ r'.code = r.code := by
  obtain ⟨n, m, nd, hbody, htree, happ⟩ := bodyDecompress_reads (s := r.flagsAccepted) hcovers hp hcap hroom hin
  have hlen : n.toNat = payload.length := happ.1.trans (Nat.zero_add _)
  have hn : n = BitVec.ofNat 32 payload.length := by rw [← hlen, BitVec.ofNat_toNat, BitVec.setWidth_eq]
  exact ⟨_, exec_completes (i := .decompress) (by decide) hr hbody, rfl, output_of_appended happ rfl, hn, rfl, rfl,
    htree, rfl, rfl⟩

/-- Settles O36: the bytes before `rest` are the artifact of `t` and the payload. -/
theorem anyConformingArtifactDecompresses : Obligations.AnyConformingArtifactDecompresses := by
  intro t payload rest r hcovers hr hp hcap hroom hin
  obtain ⟨r', hexec, hdone, hout, holen, -, -, htree, hhist, hcode⟩ :=
    exec_decompress_reads hcovers hr hp hcap hroom hin
  exact ⟨r', hexec, hdone, hout, by rw [holen, toNat_length_of_room hp hroom], htree, hhist, hcode⟩

/-- Settles O35: COMPRESS that completes has left an artifact of its input, and DECOMPRESS reads it back. -/
theorem compressThenDecompressIsTheIdentity : Obligations.CompressThenDecompressIsTheIdentity := by
  intro s hr hp hin
  obtain ⟨t, nd, hcovers, -, hfits, hfull⟩ := exec_compress_inRange hr hp hin
  have hlen := hcovers.length_artifact s.input
  by_cases hroom : (artifact t s.input).length ≤ s.params.obufCap
  · obtain ⟨n, m, hexec, happ⟩ := hfits hroom
    refine ⟨_, hexec, fun _ => rfl, fun _ r hready hpr hcap hroomr hinput => ?_⟩
    have hartifact : r.input = artifact t s.input := hinput.trans (output_of_appended happ rfl)
    have hilen : (artifact t s.input).length = r.ilen.toNat := by rw [← hartifact, State.length_input]
    obtain ⟨r', hdec, hdone, hout, holen, hnsize, hipos, -⟩ := exec_decompress_reads (rest := []) hcovers hready hpr
      hcap (s.length_input.trans_le hroomr) (by rw [hartifact, List.append_nil])
    rw [State.length_input, BitVec.ofNat_toNat, BitVec.setWidth_eq] at holen hnsize
    rw [hilen, BitVec.ofNat_toNat, BitVec.setWidth_eq] at hipos
    exact ⟨r', hdec, hdone, hout, holen, hnsize, hipos⟩
  · refine ⟨_, hfull (not_le.mp hroom), fun hlongest => absurd ?_ hroom, nofun⟩
    have hbits := length_codeBits_le (codeTableOf t) s.input
    rw [State.length_input] at hbits
    omega

end Sys2Proof.Machine
end

section
/-! PROOFS. Faults: what a command that faults reports and restores, and what ends a fault (60_exceptions.md rules R251 to
R256). -/

namespace Sys2Proof.Machine

/-! ### The causes a body can raise (R251) -/

/-- A fault that is raised is not `F_ILLEGAL_CMD`, which belongs to words that are no command (R92). -/
def Res.neverIllegal {α : Type} : Res α → Prop
  | .ok _ _ => True
  | .raise f _ => f ≠ .illegalCmd
  | .stuck _ => True

theorem Res.neverIllegal_bind {α β : Type} {r : Res α} {k : α → State → Res β} (h : r.neverIllegal)
    (hk : ∀ a s, (k a s).neverIllegal) : (r.bind k).neverIllegal := by
  cases r with
  | ok a s => exact hk a s
  | raise f s => exact h
  | stuck e => trivial

theorem Res.neverIllegal_andThen {r : Res Unit} {k : State → Res Unit} (h : r.neverIllegal)
    (hk : ∀ s, (k s).neverIllegal) : (r.andThen k).neverIllegal :=
  Res.neverIllegal_bind h (fun _ => hk)

theorem checkIn_neverIllegal (s : State) : (checkIn s).neverIllegal := by
  unfold checkIn
  split
  · trivial
  · exact FaultCode.noConfusion

theorem ibufNext_neverIllegal {f : FaultCode} (hf : f ≠ .illegalCmd) (s : State) : (ibufNext f s).neverIllegal := by
  unfold ibufNext
  split
  · exact hf
  · trivial

theorem obufAppend_neverIllegal (b : Byte) (s : State) : (obufAppend b s).neverIllegal := by
  unfold obufAppend
  split
  · exact FaultCode.noConfusion
  · trivial

theorem obufAppendAll_neverIllegal (bs : List Byte) (s : State) : (obufAppendAll bs s).neverIllegal := by
  unfold obufAppendAll
  split
  · exact FaultCode.noConfusion
  · trivial

theorem bodyHist_neverIllegal (s : State) : (bodyHist s).neverIllegal :=
  Res.neverIllegal_bind (checkIn_neverIllegal s) (fun _ _ => trivial)

theorem bodyBuild_neverIllegal (s : State) : (bodyBuild s).neverIllegal := by
  rw [bodyBuild_eq]
  trivial

theorem bodyGen_neverIllegal (s : State) : (bodyGen s).neverIllegal := by
  unfold bodyGen
  split
  · exact FaultCode.noConfusion
  · split
    · exact FaultCode.noConfusion
    · split <;> trivial

theorem bodySer_neverIllegal (s : State) : (bodySer s).neverIllegal := by
  unfold bodySer
  split
  · exact FaultCode.noConfusion
  · split
    · exact obufAppendAll_neverIllegal _ s
    · trivial

theorem parse_neverIllegal (k : Nat) (p : NodeIdx) (s : State) : (parse k p s).neverIllegal := by
  induction k generalizing p s with
  | zero => trivial
  | succ k ih =>
    refine Res.neverIllegal_bind (ibufNext_neverIllegal FaultCode.noConfusion s) (fun flag t => ?_)
    dsimp only
    split
    · exact FaultCode.noConfusion
    · split
      · exact FaultCode.noConfusion
      · split
        · exact Res.neverIllegal_bind (ibufNext_neverIllegal FaultCode.noConfusion _) (fun _ _ => trivial)
        · exact Res.neverIllegal_bind (ih _ _) (fun _ _ => Res.neverIllegal_bind (ih _ _) (fun _ _ => trivial))

theorem bodyDes_neverIllegal (s : State) : (bodyDes s).neverIllegal :=
  Res.neverIllegal_bind (checkIn_neverIllegal s) (fun _ t => by
    have hparse := parse_neverIllegal 512 NULL t.dropTree
    cases hp : parse 512 NULL t.dropTree with
    | ok r u => trivial
    | raise f u => rwa [hp] at hparse
    | stuck e => trivial)

theorem packBits_neverIllegal (bs : List Bool) (p : PackAcc) (s : State) : (packBits bs p s).neverIllegal := by
  induction bs generalizing p s with
  | nil => trivial
  | cons b bs ih =>
    unfold packBits
    split
    · exact Res.neverIllegal_bind (obufAppend_neverIllegal _ s) (fun _ => ih _)
    · exact ih _ s

theorem packSymbols_neverIllegal (xs : List Byte) (p : PackAcc) (s : State) : (packSymbols xs p s).neverIllegal := by
  induction xs generalizing p s with
  | nil => trivial
  | cons x xs ih =>
    unfold packSymbols
    split
    · exact FaultCode.noConfusion
    · exact Res.neverIllegal_bind (packBits_neverIllegal _ p s) ih

theorem flushBits_neverIllegal (p : PackAcc) (s : State) : (flushBits p s).neverIllegal := by
  unfold flushBits
  split
  · exact obufAppend_neverIllegal _ s
  · trivial

theorem bodyPack_neverIllegal (s : State) : (bodyPack s).neverIllegal :=
  Res.neverIllegal_bind (checkIn_neverIllegal s) (fun _ t =>
    Res.neverIllegal_bind (packSymbols_neverIllegal _ _ t) flushBits_neverIllegal)

theorem fetchBits_neverIllegal (w : Walk) (s : State) : (fetchBits w s).neverIllegal := by
  unfold fetchBits
  split
  · exact Res.neverIllegal_bind (ibufNext_neverIllegal FaultCode.noConfusion s) (fun _ _ => trivial)
  · trivial

theorem consumeBit_neverIllegal (w : Walk) (s : State) : (consumeBit w s).neverIllegal := by
  unfold consumeBit
  split
  · trivial
  · dsimp only
    split
    · trivial
    · split
      · exact Res.neverIllegal_bind (obufAppend_neverIllegal _ s) (fun _ _ => trivial)
      · trivial

theorem unpackLoop_neverIllegal (k : Nat) (w : Walk) (s : State) : (unpackLoop k w s).neverIllegal := by
  induction k generalizing w s with
  | zero => trivial
  | succ k ih =>
    unfold unpackLoop
    split
    · exact Res.neverIllegal_bind (fetchBits_neverIllegal w s) (fun w t =>
        Res.neverIllegal_bind (consumeBit_neverIllegal w t) ih)
    · trivial

theorem bodyUnpack_neverIllegal (s : State) : (bodyUnpack s).neverIllegal := by
  unfold bodyUnpack
  split
  · exact FaultCode.noConfusion
  · refine Res.neverIllegal_bind (checkIn_neverIllegal s) (fun _ t => ?_)
    split
    · exact FaultCode.noConfusion
    · exact unpackLoop_neverIllegal _ _ t

theorem bodyRdsize_neverIllegal (s : State) : (bodyRdsize s).neverIllegal :=
  Res.neverIllegal_bind (checkIn_neverIllegal s) (fun _ t => by
    dsimp only
    split
    · exact FaultCode.noConfusion
    · trivial)

theorem bodyCompress_neverIllegal (s : State) : (bodyCompress s).neverIllegal := by
  unfold bodyCompress
  refine Res.neverIllegal_andThen (bodyHist_neverIllegal _) (fun t => ?_)
  have hbuild := bodyBuild_neverIllegal t
  generalize bodyBuild t = r at hbuild ⊢
  refine Res.neverIllegal_andThen hbuild (fun t => ?_)
  refine Res.neverIllegal_andThen (bodyGen_neverIllegal t) (fun t => ?_)
  refine Res.neverIllegal_andThen (obufAppendAll_neverIllegal _ t) (fun t => ?_)
  exact Res.neverIllegal_andThen (bodySer_neverIllegal t) bodyPack_neverIllegal

theorem bodyDecompress_neverIllegal (s : State) : (bodyDecompress s).neverIllegal :=
  Res.neverIllegal_andThen (bodyRdsize_neverIllegal _) fun _ =>
    Res.neverIllegal_andThen (bodyDes_neverIllegal _) bodyUnpack_neverIllegal

/-- No command's body raises `F_ILLEGAL_CMD`. -/
theorem bodyOf_neverIllegal (i : Instr) (s : State) : (bodyOf i s).neverIllegal := by
  cases i with
  | nop => trivial
  | ack => trivial
  | orst => trivial
  | hist => exact bodyHist_neverIllegal s
  | build => exact bodyBuild_neverIllegal s
  | gen => exact bodyGen_neverIllegal s
  | ser => exact bodySer_neverIllegal s
  | des => exact bodyDes_neverIllegal s
  | pack => exact bodyPack_neverIllegal s
  | unpack => exact bodyUnpack_neverIllegal s
  | wrsize => exact obufAppendAll_neverIllegal _ s
  | rdsize => exact bodyRdsize_neverIllegal s
  | compress => exact bodyCompress_neverIllegal s
  | decompress => exact bodyDecompress_neverIllegal s

theorem FaultCode.code_mem_of_ne_illegalCmd {f : FaultCode} (h : f ≠ .illegalCmd) :
    f.code ∈ [0x11#8, 0x21, 0x22, 0x23, 0x31, 0x32, 0x33, 0x42, 0x43, 0x44] := by
  cases f with
  | illegalCmd => exact absurd rfl h
  | _ => decide

/-! ### What a fault restores (R252, R253, R254) -/

/-- A command that ends with `ERR` = 1 after a ready state has taken a fault its body raised: completion leaves `ERR` as
it was, and ACK clears it. -/
theorem exec_eq_takeFault {i : Instr} {s s' : State} (hr : s.ready) (h : exec i s = .next s') (he : s'.err = true) :
    ∃ f t, bodyOf i s.flagsAccepted = .raise f t ∧ s' = takeFault s f t := by
  by_cases hi : i = .ack
  · subst hi
    cases (runAck_eq s hr.1).symm.trans h
    cases he
  · rw [exec_eq_runCommand i hi] at h
    rcases runCommand_cases _ s s' h with ⟨-, rfl⟩ | ⟨-, t, hok, rfl⟩ | ⟨-, f, t, hraise, rfl⟩
    · cases hr.2.symm.trans he
    · have hkept : t.err = false := (bodyOf_ok i _ _ hok).err.trans hr.2
      cases hkept.symm.trans he
    · exact ⟨f, t, hraise, rfl⟩

/-- Settles O39: `takeFault` puts the registers and the output back, except `ILEN`, which no body touches in the first
place; and a body raises every cause but `F_ILLEGAL_CMD`. -/
theorem faultRollsTheRegistersBack : Obligations.FaultRollsTheRegistersBack := by
  refine ⟨fun i s s' hr h he => ?_, rfl, rfl, rfl, rfl, rfl, rfl, rfl, rfl, rfl, rfl, rfl⟩
  obtain ⟨f, t, hraise, rfl⟩ := exec_eq_takeFault hr h he
  have hcause := bodyOf_neverIllegal i s.flagsAccepted
  rw [hraise] at hcause
  exact ⟨rfl, rfl, rfl, rfl, fun _ _ => rfl, rfl, rfl, FaultCode.code_mem_of_ne_illegalCmd hcause⟩

/-! ### What ends a fault (R255, R256) -/

/-- Both states show the same fault outcome: `ERR`, its cause and `DONE`. -/
def SameOutcome (s s' : State) : Prop := s'.err = s.err ∧ s'.fcode = s.fcode ∧ s'.done = s.done

theorem AnswersOnly.sameOutcome {s s' : State} (h : AnswersOnly s s') : SameOutcome s s' := by
  rw [h]
  exact ⟨rfl, rfl, rfl⟩

/-- No port access but the reset input writes the outcome: a write reaches `CTRL`, an operand register or `IBUF`. -/
theorem portAccess_sameOutcome {op : PortOp} (hop : op ≠ .rst) (s : State) : SameOutcome s (portAccess op s) := by
  cases op with
  | read32 a => exact (read32At_answersOnly s _).sameOutcome
  | write32 a v =>
    rw [portAccess]
    rcases write32At_cases v s (locate32 a) with ⟨-, h⟩ | ⟨-, -, h⟩ | ⟨-, -, h⟩ | ⟨-, -, h⟩ | ⟨-, h⟩ <;> rw [h] <;>
      exact ⟨rfl, rfl, rfl⟩
  | read8 a => exact (read8At_answersOnly s _).sameOutcome
  | write8 a b =>
    rw [portAccess]
    rcases write8At_cases b s (locate8 s.params a) with ⟨i, -, -, h⟩ | ⟨-, h⟩ <;> rw [h] <;> exact ⟨rfl, rfl, rfl⟩
  | rst => exact absurd rfl hop

/-- Only a 32-bit write at the offset of `CMD` submits a word. -/
theorem eq_commandOp_of_classify {op : PortOp} {w : Word} (h : classify op = .command w) : op = commandOp w := by
  cases op with
  | write32 a v =>
    by_cases hl : locate32 a = .reg .cmd
    · have hv : v = w := by simpa [classify, hl] using h
      rw [(locate32_eq_reg a .cmd).mp hl, hv]
      rfl
    · simp [classify, hl] at h
  | _ => cases h

/-- Settles O41: a waiting engine keeps its state, a word other than ACK's is ignored, and a port access other than the
reset input leaves the outcome. -/
theorem onlyAckOrResetClearsErr : Obligations.OnlyAckOrResetClearsErr := by
  intro s s' hstep herr
  rcases step_cases s with ⟨-, hs⟩ | ⟨op, w, rest, hport, hop, hs⟩ | ⟨op, rest, hport, -, hs⟩ <;> rw [hs] at hstep
  · cases hstep
    exact .inl ⟨herr, rfl, rfl⟩
  · by_cases hw : w = encode .ack
    · rw [eq_commandOp_of_classify hop, hw] at hport
      exact .inr (.inl ⟨rest, hport⟩)
    · rw [submit_ignored w (taken rest s) (.inr ⟨herr, hw⟩)] at hstep
      cases hstep
      exact .inl ⟨herr, rfl, rfl⟩
  · by_cases hrst : op = .rst
    · exact .inr (.inr ⟨rest, hrst ▸ hport⟩)
    · cases hstep
      obtain ⟨hkept, hcode, hdone⟩ := portAccess_sameOutcome hrst (taken rest s)
      exact .inl ⟨hkept.trans herr, hcode, hdone⟩

end Sys2Proof.Machine
end

section
/-! PROOFS. The reset input (70_reset_and_hazards.md rules R290, R291). -/

namespace Sys2Proof.Machine

/-- The reset input is taken as a port access, whatever the engine does at the time (R291). -/
theorem step_rst (s : State) (rest : List PortOp) (h : s.port = .rst :: rest) :
    step s = .next (hardReset (taken rest s)) :=
  step_access s .rst rest h rfl

/-- Settles O57: `hardReset` keeps the capacities and what the host has pending, and everything the rest of the statement
reads is as in `State.reset`, whose values O56 gives. -/
theorem resetInputGivesTheResetState : Obligations.ResetInputGivesTheResetState := by
  intro s rest hport
  obtain ⟨hstatus, hctrl, hilen, hipos, holen, hnsize, hroot, hncount, -, -, hirq⟩ := resetLeavesTheSpecsValues
  exact ⟨hardReset (taken rest s), step_rst s rest hport, rfl, rfl, hstatus, hctrl, hilen, hipos, holen, hnsize, hroot,
    hncount, rfl, rfl, hirq⟩

end Sys2Proof.Machine
end
